-- ==== Sys2Proof/Word.lean ====
section
/-! DEFINITION. The two word types of the engine: a byte (00_scope.md R10) and a value of the width
`W = 32` (00_scope.md R8, decision D17). -/

namespace Sys2Proof

/-- A byte, bits 7 to 0 (00_scope.md R10). -/
abbrev Byte := BitVec 8

/-- A value of width `W = 32`: offset, byte count, argument, sector count, counter (00_scope.md R8). -/
abbrev Word := BitVec 32

end Sys2Proof
end

