-- ==== Sys2Proof/Syntax.lean ====
section
/-! DEFINITION. The operations of the engine: one constructor per row of spec/opcode_table.json
(30_encoding.md R108), and the ten card commands by name (30_encoding.md R93). -/

namespace Sys2Proof

/-- The card commands the engine emits (30_encoding.md R93). "No other command is ever framed." -/
inductive Command where
  | cmd0 | cmd8 | cmd9 | cmd12 | cmd18 | cmd25 | cmd55 | cmd58 | acmd23 | acmd41
  deriving DecidableEq, Repr

/-- The ten commands, in the order of 30_encoding.md R93. -/
def Command.all : List Command :=
  [.cmd0, .cmd8, .cmd9, .cmd12, .cmd18, .cmd25, .cmd55, .cmd58, .acmd23, .acmd41]

/-- The application commands, which a CMD55 precedes (30_encoding.md R104). -/
def Command.isApplication : Command → Bool
  | .cmd0 => false
  | .cmd8 => false
  | .cmd9 => false
  | .cmd12 => false
  | .cmd18 => false
  | .cmd25 => false
  | .cmd55 => false
  | .cmd58 => false
  | .acmd23 => true
  | .acmd41 => true

/-- One constructor per row of the opcode table. An operand is a field the row's encoding leaves open. -/
inductive Instr where
  /-- Reset command (R140). -/
  | cmd0
  /-- Interface-condition check (R141). -/
  | cmd8
  /-- Capacity register (R142). -/
  | cmd9
  /-- Stop transmission (R143). -/
  | cmd12
  /-- Multi-block read at card address `arg` (R144). -/
  | cmd18 (arg : Word)
  /-- Multi-block write at card address `arg` (R145). -/
  | cmd25 (arg : Word)
  /-- Application-command prefix (R146). -/
  | cmd55
  /-- OCR read (R147). -/
  | cmd58
  /-- Set write-block erase count to `nsec` (R148). -/
  | acmd23 (nsec : Word)
  /-- SD operating condition, `hcs` the high-capacity-support bit (R149, R103). -/
  | acmd41 (hcs : Bool)
  /-- Start token `0xFE`, card to engine (R100, R234, R210). -/
  | tokenStart
  /-- Write-multiple start token `0xFC`, engine to card (R100, R245). -/
  | tokenWstart
  /-- Stop-write token `0xFD`, engine to card (R100, R249). -/
  | tokenWstop
  /-- A valid status byte, bits 6..0 its flags (R95, R96, R134). -/
  | r1Status (flags : BitVec 7)
  /-- An accepted data-response, bits 7..5 ignored (R101, R246). -/
  | dataRespAccept (ignored : BitVec 3)
  /-- Host request op 0 (R282). -/
  | init (unit : BitVec 8)
  /-- Host request op 1 (R283). -/
  | read (unit : BitVec 8) (offset count : Word)
  /-- Host request op 2 (R284). -/
  | write (unit : BitVec 8) (offset count : Word)
  /-- Host request op 3 (R285). -/
  | shutdown (unit : BitVec 8)
  /-- Host request op 4 (R286). -/
  | diag
  deriving DecidableEq, Repr

end Sys2Proof
end

