-- ==== Sys2Proof/Config.lean ====
section
/-! DEFINITION. What an implementation fixes (the OPEN parameters of 00_scope.md R8) and the free values
the spec leaves open (93_implementation_defined.md Part 1). -/

namespace Sys2Proof

/-- The nine wait phases, in the index order of 10_state.md R40. -/
inductive Phase where
  | waitCmd | cmd | sendOp | csd | readStart | wdata | wdone | wstop | widle
  deriving DecidableEq, Repr

/-- `CMD_INDEX`: "A model takes this table as a configuration table with these defaults" (30_encoding.md R93,
00_scope.md R8). The defaults are `CommandTable.standard` (Decode.lean). -/
structure CommandTable where
  cmd0   : BitVec 6
  cmd8   : BitVec 6
  cmd9   : BitVec 6
  cmd12  : BitVec 6
  cmd18  : BitVec 6
  cmd25  : BitVec 6
  cmd55  : BitVec 6
  cmd58  : BitVec 6
  acmd23 : BitVec 6
  acmd41 : BitVec 6
  deriving DecidableEq, Repr

/-- `CMD_INDEX` of a command. -/
def CommandTable.index (t : CommandTable) : Command → BitVec 6
  | .cmd0 => t.cmd0
  | .cmd8 => t.cmd8
  | .cmd9 => t.cmd9
  | .cmd12 => t.cmd12
  | .cmd18 => t.cmd18
  | .cmd25 => t.cmd25
  | .cmd55 => t.cmd55
  | .cmd58 => t.cmd58
  | .acmd23 => t.acmd23
  | .acmd41 => t.acmd41

/-- "Every command frame is told apart by byte 0 alone", but for the application commands, which the CMD55
before them marks (30_encoding.md R108, R104; log 28). -/
def CommandTable.distinct (t : CommandTable) : Bool :=
  Command.all.all fun c => Command.all.all fun d =>
    decide (c.isApplication = d.isApplication → t.index c = t.index d → c = d)

/-- The OPEN parameters of 00_scope.md R8 other than `N_UNITS`, which is the number of unit records of
the state, and `CMD_INDEX`. A bound counts polls, not time (R9). -/
structure Config where
  bWaitCmd : Nat
  bCmd     : Nat
  bSendOp  : Nat
  bCsd     : Nat
  bRead    : Nat
  bWdata   : Nat
  bWdone   : Nat
  bWstop   : Nat
  bWidle   : Nat
  fastKhz  : Nat
  commands : CommandTable
  deriving DecidableEq, Repr

/-- The bound of each phase (10_state.md R40). -/
def Config.bound (c : Config) : Phase → Nat
  | .waitCmd => c.bWaitCmd
  | .cmd => c.bCmd
  | .sendOp => c.bSendOp
  | .csd => c.bCsd
  | .readStart => c.bRead
  | .wdata => c.bWdata
  | .wdone => c.bWdone
  | .wstop => c.bWstop
  | .widle => c.bWidle

/-- Phases in index order (10_state.md R40). -/
def Phase.all : List Phase :=
  [.waitCmd, .cmd, .sendOp, .csd, .readStart, .wdata, .wdone, .wstop, .widle]

/-- "A model must reject a configuration in which any `B_x` is 0" (00_scope.md R9); a bound is at most
`2^32 - 1` (10_state.md R41), and the command indices tell the frames apart (30_encoding.md R108). -/
def Config.wf (c : Config) : Bool :=
  (Phase.all.all fun k => decide (1 ≤ c.bound k) && decide (c.bound k < 2 ^ 32)) && c.commands.distinct

/-- FREE VALUE: the byte the transport returns at the `n`-th draw, when the state supplies none
(10_state.md R48, U10; log 2). -/
opaque Config.freeByte : Nat → BitVec 8

/-- FREE VALUE: the sector count decoded from CSD layout B with `e < 9` (42_capacity.md R215, 93 U1; log 3). -/
opaque Config.freeSectors : Nat → BitVec 32

/-- FREE VALUE: a choice the spec gives no rule for, which agent moves next (20_memory.md R82, U13) and
which counter DIAG samples next (44_host.md R286, U14); log 4, log 14. -/
opaque Config.freeChoice : Nat → Nat

end Sys2Proof
end

