-- ==== Sys2Proof/Decode.lean ====
section
/-! DEFINITION. The byte formats of 30_encoding.md: the command frame (R90 to R93), the tokens (R100), the
two inbound patterns (R96, R101) and the host-port record (44_host.md R280); a decoder, total on any
bytes and rejecting by name, and the encoder.

The engine never tells formats apart by bits alone: which format a byte belongs to follows from the place
in the pseudocode (R105). So the decoder takes the place, a `Port`. -/

namespace Sys2Proof

/-- Where a byte string stands: which format it has. -/
inductive Port where
  /-- Engine to card: a 6-byte command frame (R90). -/
  | frame
  /-- Engine to card: the command frame after a CMD55 frame, an application command's (R104). -/
  | appFrame
  /-- Engine to card: a token of a multi-block write (R100). -/
  | txToken
  /-- Card to engine: a byte polled for the start token (R100). -/
  | rxToken
  /-- Card to engine: a byte of the response poll (R95). -/
  | rxStatus
  /-- Card to engine: the data-response byte (R101). -/
  | rxDataResp
  /-- The host port: a request record (R280). -/
  | host
  deriving DecidableEq, Repr

/-- Why bytes are no operation. -/
inductive Reject where
  /-- Not as many bytes as the format has. -/
  | badLength
  /-- Bits 7..6 of a frame's byte 0 are not `0b01` (R90). -/
  | badMarker
  /-- A command index not in R93: "never framed" (R106). -/
  | unknownIndex
  /-- A CRC byte other than the command's (R92). -/
  | badCrc
  /-- An argument the command is never sent with (R103). -/
  | badArgument
  /-- No token of the write direction (R100). -/
  | notToken
  /-- Not the start token: the poll skips the byte (R106, R234). -/
  | notStartToken
  /-- Bit 7 is set: "not a response" (R96, R106). -/
  | notStatus
  /-- `d[4:0] ≠ 0b00101`: a rejection (R101). -/
  | notAccepted
  /-- Host `op` 5, 6 or 7 (R280). -/
  | reservedOp
  /-- Padding bits of the model's host record layout are not 0 (log 12). -/
  | badPadding
  deriving DecidableEq, Repr

/-- A request record's fields other than the buffer (44_host.md R280). -/
structure Request where
  op     : BitVec 3
  unit   : BitVec 8
  offset : Word
  count  : Word
  deriving DecidableEq, Repr

/-- The host `op` codes (44_host.md R280). -/
def opInit : BitVec 3 := 0
def opRead : BitVec 3 := 1
def opWrite : BitVec 3 := 2
def opShutdown : BitVec 3 := 3
def opDiag : BitVec 3 := 4

/-- The defaults of `CMD_INDEX` (30_encoding.md R93; from general knowledge there, K1; log 17). -/
def CommandTable.standard : CommandTable where
  cmd0 := 0
  cmd8 := 8
  cmd9 := 9
  cmd12 := 12
  cmd18 := 18
  cmd25 := 25
  cmd55 := 55
  cmd58 := 58
  acmd23 := 23
  acmd41 := 41

/-- The CRC byte depends only on the command (30_encoding.md R92). -/
def crcByte : Command → Byte
  | .cmd0 => 0x95
  | .cmd8 => 0x87
  | _ => 0xFF

/-- The tokens (30_encoding.md R100). -/
def tokenStartByte : Byte := 0xFE
def tokenWstartByte : Byte := 0xFC
def tokenWstopByte : Byte := 0xFD

/-- The filler byte (00_scope.md R16). -/
def filler : Byte := 0xFF

/-- Byte 0 of a frame, `0x40 | idx` (R90, R93). -/
def frameByte0 (t : CommandTable) (c : Command) : Byte := (0b01#2) ++ t.index c

/-- A value's four bytes, most significant first (R91). -/
def bigEndian (v : Word) : List Byte :=
  [v.extractLsb' 24 8, v.extractLsb' 16 8, v.extractLsb' 8 8, v.extractLsb' 0 8]

/-- The value of four bytes, most significant first (R91). -/
def ofBigEndian (b3 b2 b1 b0 : Byte) : Word := b3 ++ b2 ++ b1 ++ b0

/-- The 6-byte command frame (30_encoding.md R90). -/
def frame (t : CommandTable) (c : Command) (arg : Word) : List Byte :=
  [frameByte0 t c] ++ bigEndian arg ++ [crcByte c]

/-- The high-capacity-support argument (30_encoding.md R103, 41_init.md R181): bit 30. -/
def hcsArgument (hcs : Bool) : Word := if hcs then 0x40000000 else 0

/-- The command and argument of a command row (30_encoding.md R103), none for the other rows. -/
def Instr.commandOf : Instr → Option (Command × Word)
  | .cmd0 => some (.cmd0, 0)
  | .cmd8 => some (.cmd8, 0x000001AA)
  | .cmd9 => some (.cmd9, 0)
  | .cmd12 => some (.cmd12, 0)
  | .cmd18 arg => some (.cmd18, arg)
  | .cmd25 arg => some (.cmd25, arg)
  | .cmd55 => some (.cmd55, 0)
  | .cmd58 => some (.cmd58, 0)
  | .acmd23 nsec => some (.acmd23, nsec)
  | .acmd41 hcs => some (.acmd41, hcsArgument hcs)
  | .tokenStart => none
  | .tokenWstart => none
  | .tokenWstop => none
  | .r1Status _ => none
  | .dataRespAccept _ => none
  | .init _ => none
  | .read _ _ _ => none
  | .write _ _ _ => none
  | .shutdown _ => none
  | .diag => none

/-- The command of a frame's index bits (R93), among the application commands if `app` (R104). -/
def commandOfIndex (t : CommandTable) (app : Bool) (idx : BitVec 6) : Option Command :=
  Command.all.find? fun c => c.isApplication == app && t.index c == idx

/-- The operation of a command with its argument; an argument the command is never sent with is rejected
(R103). -/
def commandInstr (c : Command) (arg : Word) : Except Reject Instr :=
  let fixed (a : Word) (i : Instr) : Except Reject Instr := if arg = a then .ok i else .error .badArgument
  match c with
  | .cmd0 => fixed 0 .cmd0
  | .cmd8 => fixed 0x000001AA .cmd8
  | .cmd9 => fixed 0 .cmd9
  | .cmd12 => fixed 0 .cmd12
  | .cmd18 => .ok (.cmd18 arg)
  | .cmd25 => .ok (.cmd25 arg)
  | .cmd55 => fixed 0 .cmd55
  | .cmd58 => fixed 0 .cmd58
  | .acmd23 => .ok (.acmd23 arg)
  | .acmd41 => if arg = hcsArgument true then .ok (.acmd41 true) else fixed (hcsArgument false) (.acmd41 false)

/-- A 6-byte command frame (R90 to R93, R103), after a CMD55 frame if `app` (R104). -/
def decodeFrame (t : CommandTable) (app : Bool) : List Byte → Except Reject Instr
  | [b0, b1, b2, b3, b4, b5] =>
    if b0.extractLsb' 6 2 ≠ 0b01#2 then .error .badMarker
    else match commandOfIndex t app (b0.extractLsb' 0 6) with
      | none => .error .unknownIndex
      | some c => if b5 ≠ crcByte c then .error .badCrc else commandInstr c (ofBigEndian b1 b2 b3 b4)
  | _ => .error .badLength

/-- The operation of a request record (44_host.md R280). Fields an operation ignores are dropped. -/
def decodeRequest (q : Request) : Except Reject Instr :=
  if q.op = opInit then .ok (.init q.unit)
  else if q.op = opRead then .ok (.read q.unit q.offset q.count)
  else if q.op = opWrite then .ok (.write q.unit q.offset q.count)
  else if q.op = opShutdown then .ok (.shutdown q.unit)
  else if q.op = opDiag then .ok .diag
  else .error .reservedOp

/-- A request record as bytes. The spec gives the fields and their widths and no layout (R280, R80). The
layout is the model's: `op` in bits 2..0 of byte 0, then `unit`, then `offset` and `count` big-endian.
DESIGN CHOICE, safe (log 12). -/
def Request.bytes (q : Request) : List Byte :=
  [(0 : BitVec 5) ++ q.op, q.unit] ++ bigEndian q.offset ++ bigEndian q.count

/-- A request record from its bytes (log 12). -/
def decodeHost : List Byte → Except Reject Instr
  | [b0, u, o3, o2, o1, o0, c3, c2, c1, c0] =>
    if b0.extractLsb' 3 5 ≠ 0 then .error .badPadding
    else decodeRequest ⟨b0.extractLsb' 0 3, u, ofBigEndian o3 o2 o1 o0, ofBigEndian c3 c2 c1 c0⟩
  | _ => .error .badLength

/-- A valid status byte (R95, R96). -/
def decodeStatus (b : Byte) : Except Reject Instr :=
  if b.getLsbD 7 then .error .notStatus else .ok (.r1Status (b.extractLsb' 0 7))

/-- An accepted data-response, `d[4:0] = 0b00101` (R101). -/
def decodeDataResp (d : Byte) : Except Reject Instr :=
  if d.extractLsb' 0 5 = 0b00101#5 then .ok (.dataRespAccept (d.extractLsb' 5 3)) else .error .notAccepted

/-- The decoder: bytes at a place of the pseudocode to an operation, or a rejection by name. -/
def decode (t : CommandTable) : Port → List Byte → Except Reject Instr
  | .frame, bs => decodeFrame t false bs
  | .appFrame, bs => decodeFrame t true bs
  | .txToken, [b] =>
    if b = tokenWstartByte then .ok .tokenWstart
    else if b = tokenWstopByte then .ok .tokenWstop
    else .error .notToken
  | .txToken, _ => .error .badLength
  | .rxToken, [b] => if b = tokenStartByte then .ok .tokenStart else .error .notStartToken
  | .rxToken, _ => .error .badLength
  | .rxStatus, [b] => decodeStatus b
  | .rxStatus, _ => .error .badLength
  | .rxDataResp, [b] => decodeDataResp b
  | .rxDataResp, _ => .error .badLength
  | .host, bs => decodeHost bs

/-- The place where an operation's bytes stand. -/
def Instr.port : Instr → Port
  | .cmd0 => .frame
  | .cmd8 => .frame
  | .cmd9 => .frame
  | .cmd12 => .frame
  | .cmd18 _ => .frame
  | .cmd25 _ => .frame
  | .cmd55 => .frame
  | .cmd58 => .frame
  | .acmd23 _ => .appFrame
  | .acmd41 _ => .appFrame
  | .tokenStart => .rxToken
  | .tokenWstart => .txToken
  | .tokenWstop => .txToken
  | .r1Status _ => .rxStatus
  | .dataRespAccept _ => .rxDataResp
  | .init _ => .host
  | .read _ _ _ => .host
  | .write _ _ _ => .host
  | .shutdown _ => .host
  | .diag => .host

/-- The byte a valid status with these flags is (R96). -/
def statusByte (flags : BitVec 7) : Byte := (0#1) ++ flags

/-- The byte an accepted data-response with these ignored bits is (R101). -/
def dataRespByte (ignored : BitVec 3) : Byte := ignored ++ (0b00101#5)

/-- The encoder, written from the same formats. -/
def encode (t : CommandTable) : Instr → List Byte
  | .cmd0 => frame t .cmd0 0
  | .cmd8 => frame t .cmd8 0x000001AA
  | .cmd9 => frame t .cmd9 0
  | .cmd12 => frame t .cmd12 0
  | .cmd18 arg => frame t .cmd18 arg
  | .cmd25 arg => frame t .cmd25 arg
  | .cmd55 => frame t .cmd55 0
  | .cmd58 => frame t .cmd58 0
  | .acmd23 nsec => frame t .acmd23 nsec
  | .acmd41 hcs => frame t .acmd41 (hcsArgument hcs)
  | .tokenStart => [tokenStartByte]
  | .tokenWstart => [tokenWstartByte]
  | .tokenWstop => [tokenWstopByte]
  | .r1Status flags => [statusByte flags]
  | .dataRespAccept ignored => [dataRespByte ignored]
  | .init unit => Request.bytes ⟨opInit, unit, 0, 0⟩
  | .read unit offset count => Request.bytes ⟨opRead, unit, offset, count⟩
  | .write unit offset count => Request.bytes ⟨opWrite, unit, offset, count⟩
  | .shutdown unit => Request.bytes ⟨opShutdown, unit, 0, 0⟩
  | .diag => Request.bytes ⟨opDiag, 0, 0, 0⟩

/-- The place a word of the opcode table belongs to, by its length and value. The table's 8-bit rows
overlap (R1_STATUS holds INIT's `0x00` and DATA_RESP_ACCEPT's `0x05`), since the engine tells them apart by
place and not by bits (R105). The order used here is the model's (log 13): tokens, then host `op` codes,
then an accepted data-response, then a status. A frame whose index is an application command's stands after
its CMD55 (R104). -/
def tableWordPort (nbits w : Nat) : Option Port :=
  if nbits ≤ 8 then
    if w = 0xFE then some .rxToken
    else if w = 0xFC ∨ w = 0xFD then some .txToken
    else if w ≤ 4 then some .host
    else if w % 32 = 5 ∧ w < 256 then some .rxDataResp
    else if w < 128 then some .rxStatus
    else none
  else if nbits = 48 then
    if (commandOfIndex .standard true (BitVec.ofNat 6 (w / 2 ^ 40))).isSome then some .appFrame else some .frame
  else none

/-- The bytes of a word of the opcode table, at its place. A frame's first byte is bits 47..40 (R90), as the
table numbers it. A host row gives `op` only; the other fields are 0, but for `count`, which is 1, the least a
READ or WRITE may have (43_transfer.md R232; log 13). -/
def tableWordBytes (port : Port) (w : Nat) : List Byte :=
  match port with
  | .frame => [40, 32, 24, 16, 8, 0].map fun k => BitVec.ofNat 8 (w / 2 ^ k)
  | .appFrame => [40, 32, 24, 16, 8, 0].map fun k => BitVec.ofNat 8 (w / 2 ^ k)
  | .host => Request.bytes ⟨BitVec.ofNat 3 w, 0, 0, 1⟩
  | .txToken => [BitVec.ofNat 8 w]
  | .rxToken => [BitVec.ofNat 8 w]
  | .rxStatus => [BitVec.ofNat 8 w]
  | .rxDataResp => [BitVec.ofNat 8 w]

/-- The operation the decoder reads from a word of the opcode table. -/
def decodeTableWord (nbits w : Nat) : Option Instr :=
  match tableWordPort nbits w with
  | none => none
  | some port => (decode .standard port (tableWordBytes port w)).toOption

end Sys2Proof
end

