-- ==== Sys2Proof/Machine/Flags.lean ====
section
/-! DEFINITION. The status bits of a response byte (30_encoding.md R96) and every test the engine makes on
a byte it receives (10_state.md R39, R40). The engine keeps no flag register (R39). -/

namespace Sys2Proof.Machine

/-- Bits of the status byte (30_encoding.md R96). -/
def statusInvalid (r : Byte) : Bool := r.getLsbD 7
def statusParamErr (r : Byte) : Bool := r.getLsbD 6
def statusAddrErr (r : Byte) : Bool := r.getLsbD 5
def statusEraseSeqErr (r : Byte) : Bool := r.getLsbD 4
def statusCrcErr (r : Byte) : Bool := r.getLsbD 3
def statusIllegalCmd (r : Byte) : Bool := r.getLsbD 2
def statusEraseReset (r : Byte) : Bool := r.getLsbD 1
def statusIdle (r : Byte) : Bool := r.getLsbD 0

/-- Response poll: `b[7] == 0` (40_exchanger.md R134). -/
def isStatus (b : Byte) : Bool := !statusInvalid b

/-- Reset retry: `r == 0x01`, "idle, no other flags" (41_init.md R173). -/
def isIdleOnly (r : Byte) : Bool := r == 0x01

/-- OCR read, CSD read, READ and WRITE setup: `r == 0x00` passes (10_state.md R39). -/
def isClear (r : Byte) : Bool := r == 0x00

/-- Not busy: a poll returns exactly `0xFF` (30_encoding.md R102). -/
def isNotBusy (b : Byte) : Bool := b == 0xFF

/-- The start token `0xFE` (30_encoding.md R100). -/
def isStartToken (b : Byte) : Bool := b == tokenStartByte

/-- The echoed check pattern (30_encoding.md R97, 41_init.md R177). -/
def isEchoPattern (t3 : Byte) : Bool := t3 == 0xAA

/-- The OCR's top two bits are both set (30_encoding.md R97, 41_init.md R183). -/
def isBlockAddressed (t0 : Byte) : Bool := t0.extractLsb' 6 2 == 0b11#2

/-- An accepted data-response: `d[4:0] == 0b00101` (30_encoding.md R101). -/
def isAccepted (d : Byte) : Bool := d.extractLsb' 0 5 == 0b00101#5

end Sys2Proof.Machine
end

