-- ==== Sys2Proof/Machine/State.lean ====
section
/-! DEFINITION. The state of the engine as plain data (10_state.md), the reasons a step can stop, and the
state after reset (10_state.md R47, 70_reset_and_hazards.md R330). -/

namespace Sys2Proof.Machine

/-- `cls[u]` and the working class `c` (10_state.md R31). -/
inductive CardClass where
  | unknown | mmcSdv1 | sdv2 | sdv2Block
  deriving DecidableEq, Repr

/-- Outcome codes 0 to 10 (60_exceptions.md R300). Codes 11 to 15 are never produced (U7): there is no
constructor for them. -/
inductive OutcomeCode where
  | ok | noCardPresent | unsupportedCard | negotiationTimeout | capacityQueryFailed | commandRejected
  | dataTimeout | dataRejected | timingWindowExceeded | notReady | badUnit
  deriving DecidableEq, Repr

/-- The nine diagnostics counters (10_state.md R40, R41). -/
structure Diag where
  waitCmd   : Word
  cmd       : Word
  sendOp    : Word
  csd       : Word
  readStart : Word
  wdata     : Word
  wdone     : Word
  wstop     : Word
  widle     : Word
  deriving DecidableEq, Repr

/-- The `value` of a response: a word, or the nine counters for DIAG (44_host.md R280). -/
inductive RespValue where
  | word (v : Word)
  | counters (d : Diag)
  deriving DecidableEq, Repr

/-- The response registers (10_state.md R44). -/
structure Response where
  status : OutcomeCode
  value  : RespValue
  deriving DecidableEq, Repr

/-- The events of a trace (00_scope.md R12, R14). `timeout` and `respond` carry the unit as well, which
the spec leaves to the context (log 10); DIAG's response belongs to no unit. -/
inductive Event where
  | sel (u : Nat)
  | des (u : Nat)
  | x (u : Nat) (out inn : Byte)
  | rate (u : Nat) (khz : Nat)
  | timeout (u : Nat) (k : Phase)
  | respond (u : Option Nat) (resp : Response)
  deriving DecidableEq, Repr

/-- Bytes by index, in canonical form: indexes strictly rising, no entry equal to what an unlisted index
reads as (`Memory.wf`, Ops.lean). -/
abbrev Memory := List Host.Cell

/-- A host buffer: bytes `0 .. size-1` (20_memory.md R70). -/
structure HostBuf where
  size : Nat
  mem  : Memory
  deriving DecidableEq, Repr

/-- A host-port request record, with its buffer (44_host.md R280, 10_state.md R44). -/
structure PortRecord where
  req : Request
  buf : HostBuf
  deriving DecidableEq, Repr

/-- The call sites of `SendCommand` in the pseudocode of INIT (R170, R210), READ (R233), WRITE (R243). -/
inductive CallSite where
  | reset | probe | negPrefix | negCond | ocr | capacity
  | readStart | readStop
  | writePrefix | writeErase | writeStart
  deriving DecidableEq, Repr

/-- The position inside `SendCommand` (40_exchanger.md R133): the next primitive is a poll of the
pre-command wait, its `Timeout`, byte `k` of the frame, a poll of the response, or its `Timeout`. -/
inductive XPos where
  | preWait | preTimeout | frame (k : Nat) | resp | respTimeout
  deriving DecidableEq, Repr

/-- The bounded waits outside `SendCommand` (10_state.md R40, indices 3 to 8). -/
inductive WaitSite where
  | csd | readStart | wdata | wdone | wstop | widle
  deriving DecidableEq, Repr

/-- The control state of a running agent: the primitive it performs next (10_state.md R36). The loop
variables `n` and `k`, which 10_state.md R37 does not list, are part of the position (log 22). -/
inductive Pos where
  /-- `SetRate(u, SLOW_KHZ)` (R171). -/
  | rateSlow
  /-- The power-up `Deselect(u)` (R172). -/
  | desPower
  /-- Power-up filler `n`, from 0 (R172). -/
  | powerFiller (n : Nat)
  /-- `Select(u)` before the reset attempts (R173). -/
  | selReset
  /-- `Deselect(u)` after them (R173, R174). -/
  | desReset
  /-- `Select(u)` of the version probe (R175). -/
  | selProbe
  /-- Trailing byte `t[n]` of the interface-condition echo (R177). -/
  | echo (n : Nat)
  /-- `Deselect(u)` that ends the probe (R178). -/
  | desProbe
  /-- `Select(u)` of a negotiation iteration (R179). -/
  | selNeg
  /-- `Deselect(u)` of a negotiation iteration (R179, R180). -/
  | desNeg
  /-- `Timeout(SEND_OP)` (R180). -/
  | negTimeout
  /-- `Select(u)` of the OCR read (R182). -/
  | selOcr
  /-- Trailing byte `t[n]` of the OCR (R182). -/
  | ocr (n : Nat)
  /-- `Deselect(u)` of the OCR read (R182, R183). -/
  | desOcr
  /-- `SetRate(u, FAST_KHZ)` (R185). -/
  | rateFast
  /-- `Select(u)` of CAPACITY (R210). -/
  | selCap
  /-- CSD byte `csd[n]` (R211). -/
  | csd (n : Nat)
  /-- CSD checksum byte `n` (R211). -/
  | csdSum (n : Nat)
  /-- `Deselect(u)` of CAPACITY, then the decode (R210, R186). -/
  | desCap
  /-- `Select(u)` of READ (R233). -/
  | selRead
  /-- READ payload byte `k` of the sector (R235). -/
  | readPayload (k : Nat)
  /-- READ checksum byte `n` (R236). -/
  | readSum (n : Nat)
  /-- `Select(u)` of the write setup (R242). -/
  | selWrite
  /-- `Deselect(u)` after the write setup (R242). -/
  | desSetup
  /-- `Select(u)` of a write sector (R244). -/
  | selSector
  /-- The write start token (R245). -/
  | wstartToken
  /-- WRITE payload byte `k` of the sector (R245). -/
  | writePayload (k : Nat)
  /-- WRITE checksum byte `n` (R246). -/
  | writeSum (n : Nat)
  /-- The data-response byte (R246). -/
  | dataResp
  /-- `Deselect(u)` between write sectors (R248). -/
  | desSector
  /-- `Select(u)` of the stop transaction (R249). -/
  | selStop
  /-- The stop-write token (R249). -/
  | wstopToken
  /-- `Deselect(u)` before `Respond(OK, 0)` of READ and WRITE (R237, R249). -/
  | desDone
  /-- `Deselect(u)` of a failure path, before `fail e` (60_exceptions.md R302). -/
  | desFail (e : OutcomeCode)
  /-- Inside `SendCommand` of a call site. -/
  | call (site : CallSite) (x : XPos)
  /-- A poll of a bounded wait (40_exchanger.md R130). -/
  | wait (site : WaitSite)
  /-- The `Timeout` of a bounded wait (R130). -/
  | waitTimeout (site : WaitSite)
  /-- `Respond(status, value)` (44_host.md R280). -/
  | respond (status : OutcomeCode) (value : Word)
  deriving DecidableEq, Repr

/-- The working registers of a running agent (10_state.md R37). "A working register holds no value when a
request starts" (R38): `none` is the spec's own state, and reading it is a fault (U8; log 5). -/
structure Work where
  r    : Option Byte
  b    : Option Byte
  i    : Option Word
  j    : Option Word
  c    : Option CardClass
  t    : Vector (Option Byte) 4
  csd  : Vector (Option Byte) 16
  arg  : Option Word
  nsec : Option Word
  rem  : Option Word
  p    : Option Word
  m    : Option (BitVec 10)
  d    : Option Byte
  ok   : Option Bool
  deriving DecidableEq, Repr

/-- No working register holds a value (10_state.md R38). -/
def Work.empty : Work where
  r := none
  b := none
  i := none
  j := none
  c := none
  t := Vector.replicate 4 none
  csd := Vector.replicate 16 none
  arg := none
  nsec := none
  rem := none
  p := none
  m := none
  d := none
  ok := none

/-- A request in progress: the request, the position, the working registers (10_state.md R36, R37). -/
structure Running where
  req  : Request
  pos  : Pos
  work : Work
  deriving DecidableEq, Repr

/-- "Each unit's agent is either `IDLE` or running exactly one host request" (10_state.md R36). -/
inductive Agent where
  | idle
  | running (run : Running)
  deriving DecidableEq, Repr

/-- One unit: its session, its agent, the host buffer of its request (10_state.md R30, R31, R36), and the
bytes its transport will return, oldest first (an input of the model; log 2). -/
structure UnitState where
  cls     : CardClass
  agent   : Agent
  buf     : HostBuf
  inbound : List Byte
  deriving DecidableEq, Repr

/-- Which agent moves in the next step (log 4). -/
inductive Turn where
  | host
  | unit (u : Nat)
  | diag
  deriving DecidableEq, Repr

/-- The state of the machine. The number of unit records is `N_UNITS`. -/
structure State where
  cfg       : Config
  units     : List UnitState
  diag      : Diag
  /-- The host-port request registers: the request taken last (10_state.md R44). -/
  port      : PortRecord
  /-- The response registers: the response given last (10_state.md R44). -/
  resp      : Response
  /-- The trace, oldest event first (00_scope.md R12, R14). -/
  trace     : List Event
  /-- The requests the host will issue, oldest first (log 16). -/
  hostQueue : List PortRecord
  /-- The samples a DIAG in flight has taken, in the order taken (44_host.md R286; log 14). -/
  diagRead  : Option (List (Phase × Word))
  turn      : Turn
  /-- Scheduling choices, oldest first, used before the opaque ones (log 4). -/
  choices   : List Nat
  /-- The number of draws so far, to which the opaque free values are applied (log 2). -/
  draws     : Nat
  deriving DecidableEq, Repr

/-- Why the machine stops with a fault. -/
inductive Fault where
  /-- A position reads a working register that holds no value (10_state.md R38, U8). Raised by `act` and by
  `fetch`. The pseudocode never does so. Safe. -/
  | workingRegisterUnset
  /-- A host-buffer index outside the buffer (20_memory.md R70, R72). Raised by `act`. The pseudocode
  never does so. Safe. -/
  | bufferIndexOutOfRange
  deriving DecidableEq, Repr

/-- Why a step has no meaning. -/
inductive Refusal where
  /-- The instruction has no meaning in this model yet. Raised by arms of `exec` only. Safe. -/
  | notModelled (mnemonic : String)
  /-- Bytes that are no operation, a reserved host `op` among them (44_host.md R280, U4). Raised by `step`.
  Safe. -/
  | undecodable (why : Reject)
  /-- A new READ or WRITE with `count = 0`, whatever its unit (20_memory.md R78, 43_transfer.md R232, U2).
  Raised by READ and WRITE. Safe. -/
  | countZero
  /-- A new READ or WRITE whose buffer is shorter than `count`, whatever its unit (20_memory.md R70, U3).
  Raised by READ and WRITE. Safe. -/
  | bufferTooShort
  /-- A request to a unit (or a DIAG) whose last request has no response yet (44_host.md R287, U19). Raised
  by `fetch` and by the host operations. Safe. -/
  | requestInFlight
  /-- A frame, token or inbound pattern where the pseudocode has none (30_encoding.md R106, 41_init.md R190,
  U5). Raised by the meanings of those rows; `step` never asks for one. Safe. -/
  | outOfPlace
  /-- A configuration with a bound of 0, or no unit, or more than 256, or command indices that do not tell the
  frames apart (00_scope.md R8, R9, U6, 30_encoding.md R108; log 25, log 28). Raised by `step`. Safe. -/
  | badConfiguration
  deriving DecidableEq, Repr

/-- The result of a step. -/
abbrev StepOutcome := Host.Outcome State Fault Refusal

/-- An empty host buffer. -/
def HostBuf.empty : HostBuf := ⟨0, []⟩

/-- All counters 0 (10_state.md R47). -/
def Diag.zero : Diag := ⟨0, 0, 0, 0, 0, 0, 0, 0, 0⟩

/-- A unit after reset (10_state.md R47); its buffer is empty and its transport holds no supplied byte
(log 9, log 2). -/
def UnitState.reset : UnitState := ⟨.unknown, .idle, HostBuf.empty, []⟩

/-- The state after reset for a configuration and a number of units (10_state.md R47, 70 R330). The port
and response registers have no reset value in the spec: 0 (DESIGN CHOICE, log 9). -/
def State.resetWith (cfg : Config) (nUnits : Nat) : State where
  cfg := cfg
  units := List.replicate nUnits UnitState.reset
  diag := Diag.zero
  port := ⟨⟨0, 0, 0, 0⟩, HostBuf.empty⟩
  resp := ⟨.ok, .word 0⟩
  trace := []
  hostQueue := []
  diagRead := none
  turn := .host
  choices := []
  draws := 0

/-- The values of the OPEN parameters at `State.reset`: those 95_test_vectors.md uses in its examples
(DESIGN CHOICE, unsafe; log 1), and the default command indices (30_encoding.md R93). -/
def State.exampleConfig : Config := ⟨4, 4, 4, 4, 4, 4, 4, 4, 4, 20000, .standard⟩

/-- The machine right after reset, with two units. -/
def State.reset : State := State.resetWith State.exampleConfig 2

end Sys2Proof.Machine
end

