-- ==== Sys2Proof/Machine/Operands.lean ====
section
/-! DEFINITION. The constants of 00_scope.md R8, the numeric codes (10_state.md R31, R40, 60_exceptions.md
R300), and every operand computation: the address transform and sector count (43_transfer.md R231, R232),
the sector's share (R235), the command and argument of a call site (30_encoding.md R103). -/

namespace Sys2Proof.Machine

/-- `SECTOR` (00_scope.md R8). -/
def sectorBytes : Nat := 512

/-- `SLOW_KHZ` (00_scope.md R8, 41_init.md R171). -/
def slowKhz : Nat := 250

/-- `RESET_FILLER` (00_scope.md R8, 41_init.md R172). -/
def resetFiller : Nat := 10

/-- `RESET_ATTEMPTS` (00_scope.md R8, 41_init.md R173). -/
def resetAttempts : Nat := 4

/-- Checksum bytes of a block (30_encoding.md R98, R99). -/
def checksumBytes : Nat := 2

/-- Trailing bytes of the echo and of the OCR (30_encoding.md R94). -/
def trailingBytes : Nat := 4

/-- CSD bytes (30_encoding.md R99). -/
def csdBytes : Nat := 16

/-- The card class codes (10_state.md R31). -/
def CardClass.code : CardClass → BitVec 2
  | .unknown => 0
  | .mmcSdv1 => 1
  | .sdv2 => 2
  | .sdv2Block => 3

/-- The outcome codes (60_exceptions.md R300). -/
def OutcomeCode.code : OutcomeCode → BitVec 4
  | .ok => 0
  | .noCardPresent => 1
  | .unsupportedCard => 2
  | .negotiationTimeout => 3
  | .capacityQueryFailed => 4
  | .commandRejected => 5
  | .dataTimeout => 6
  | .dataRejected => 7
  | .timingWindowExceeded => 8
  | .notReady => 9
  | .badUnit => 10

/-- The addressing transform (43_transfer.md R231): both shifts wrap modulo `2^32`. -/
def cardAddress (cls : CardClass) (offset : Word) : Word :=
  let a := if cls = .sdv2Block then offset else offset <<< 9
  a <<< 1

/-- `nsec = ceil(count / 512)`, "computed exactly on naturals" (43_transfer.md R232). -/
def sectorCount (count : Word) : Word := BitVec.ofNat 32 ((count.toNat + (sectorBytes - 1)) / sectorBytes)

/-- `m <- min(rem, 512)` (43_transfer.md R235, R245). -/
def sectorShare (rem : Word) : BitVec 10 := BitVec.ofNat 10 (min rem.toNat sectorBytes)

/-- `p <- p + m` (43_transfer.md R233, R243). -/
def nextBufferIndex (p : Word) (m : BitVec 10) : Word := p + m.setWidth 32

/-- `rem > 512` (43_transfer.md R233, R243). -/
def moreSectors (rem : Word) : Bool := decide (sectorBytes < rem.toNat)

/-- `rem <- rem - 512` (43_transfer.md R233, R243). -/
def lessOneSector (rem : Word) : Word := rem - BitVec.ofNat 32 sectorBytes

/-- The command each call site sends (41_init.md R170, 42_capacity.md R210, 43_transfer.md R233, R243). -/
def CallSite.command : CallSite → Command
  | .reset => .cmd0
  | .probe => .cmd8
  | .negPrefix => .cmd55
  | .negCond => .acmd41
  | .ocr => .cmd58
  | .capacity => .cmd9
  | .readStart => .cmd18
  | .readStop => .cmd12
  | .writePrefix => .cmd55
  | .writeErase => .acmd23
  | .writeStart => .cmd25

/-- The argument each call site sends (30_encoding.md R103); none where its register holds no value. -/
def CallSite.argument (site : CallSite) (w : Work) : Option Word :=
  match site with
  | .reset => some 0
  | .probe => some 0x000001AA
  | .negPrefix => some 0
  | .negCond => w.c.map fun c => hcsArgument (c == .sdv2)
  | .ocr => some 0
  | .capacity => some 0
  | .readStart => w.arg
  | .readStop => some 0
  | .writePrefix => some 0
  | .writeErase => w.nsec
  | .writeStart => w.arg

/-- The phase of each bounded wait outside `SendCommand` (10_state.md R40). -/
def WaitSite.phase : WaitSite → Phase
  | .csd => .csd
  | .readStart => .readStart
  | .wdata => .wdata
  | .wdone => .wdone
  | .wstop => .wstop
  | .widle => .widle

end Sys2Proof.Machine
end

