-- ==== Sys2Proof/Machine/Ops.lean ====
section
/-! DEFINITION. The named operations over the state: host-buffer memory, counters, the transport's answers,
one primitive's effects (`Action`, `State.commit`), responding, and the shared failure path. -/

namespace Sys2Proof.Machine

/-! ### Memory -/

/-- What an unlisted index of a buffer reads as. A buffer's bytes are the host's; this only fixes how an
array is written as a list (log 6). -/
def Memory.unlisted : Byte := 0

/-- Byte `a` (00_scope.md R13). -/
def Memory.read : Memory → Nat → Byte
  | [], _ => Memory.unlisted
  | (k, v) :: rest, a => if k = a then v else Memory.read rest a

/-- `m` with byte `a` set to `v`, keeping the canonical form (00_scope.md R13). -/
def Memory.write : Memory → Nat → Byte → Memory
  | [], a, v => if v = Memory.unlisted then [] else [(a, v)]
  | (k, x) :: rest, a, v =>
    if a < k then (if v = Memory.unlisted then (k, x) :: rest else (a, v) :: (k, x) :: rest)
    else if a = k then (if v = Memory.unlisted then rest else (k, v) :: rest)
    else (k, x) :: Memory.write rest a v

/-- Every listed index is at least `lo`, indexes strictly rise, and no listed byte is the unlisted value. -/
def Memory.wfFrom : Nat → Memory → Bool
  | _, [] => true
  | lo, (k, v) :: rest => decide (lo ≤ k) && (v != Memory.unlisted) && Memory.wfFrom (k + 1) rest

/-- The canonical form. -/
def Memory.wf (m : Memory) : Bool := Memory.wfFrom 0 m

/-- `MemRead(buf, k, 1)` (00_scope.md R13): a byte of the buffer, none at or above its size. -/
def HostBuf.load (buf : HostBuf) (k : Nat) : Option Byte :=
  if k < buf.size then some (buf.mem.read k) else none

/-- `MemWrite(buf, k, 1, v)` (00_scope.md R13): "changes only the one buffer byte it names" (20_memory.md
R79). -/
def HostBuf.store (buf : HostBuf) (k : Nat) (v : Byte) : HostBuf := { buf with mem := buf.mem.write k v }

/-- The canonical form, with no byte listed at or above the size. -/
def HostBuf.wf (buf : HostBuf) : Bool := buf.mem.wf && buf.mem.all fun c => decide (c.1 < buf.size)

/-! ### Counters -/

/-- `diag[k]` (10_state.md R40). -/
def Diag.get (d : Diag) : Phase → Word
  | .waitCmd => d.waitCmd
  | .cmd => d.cmd
  | .sendOp => d.sendOp
  | .csd => d.csd
  | .readStart => d.readStart
  | .wdata => d.wdata
  | .wdone => d.wdone
  | .wstop => d.wstop
  | .widle => d.widle

/-- `diag[k] <- v`. -/
def Diag.set (d : Diag) (k : Phase) (v : Word) : Diag :=
  match k with
  | .waitCmd => { d with waitCmd := v }
  | .cmd => { d with cmd := v }
  | .sendOp => { d with sendOp := v }
  | .csd => { d with csd := v }
  | .readStart => { d with readStart := v }
  | .wdata => { d with wdata := v }
  | .wdone => { d with wdone := v }
  | .wstop => { d with wstop := v }
  | .widle => { d with widle := v }

/-- The larger of two unsigned words. -/
def wordMax (a b : Word) : Word := if a.toNat < b.toNat then b else a

/-- `diag[k] <- max(diag[k], i)`, one step (10_state.md R41, R42). -/
def Diag.raise (d : Diag) (k : Phase) (i : Word) : Diag := d.set k (wordMax (d.get k) i)

/-- The counter a wait updates, if any. -/
def Diag.raiseOpt (d : Diag) : Option (Phase × Word) → Diag
  | none => d
  | some (k, i) => d.raise k i

/-! ### The transport's answers -/

/-- The byte the transport of a unit returns to the next exchange: the next byte the state supplies, and
past its end a free value (10_state.md R48; log 2). -/
def UnitState.answer (U : UnitState) (draws : Nat) : Byte :=
  match U.inbound with
  | b :: _ => b
  | [] => Config.freeByte draws

/-! ### One primitive -/

/-- The primitives (00_scope.md R12, R14). `MemRead` and `MemWrite` (R13) belong to the exchange they
feed or follow (log 7). -/
inductive Prim where
  | select
  | deselect
  | exchange (out : Byte)
  | setRate (khz : Nat)
  | timeout (k : Phase)
  | respond (status : OutcomeCode) (value : Word)
  deriving DecidableEq, Repr

/-- Whether a primitive is an `X`. -/
def Prim.isExchange : Prim → Bool
  | .select => false
  | .deselect => false
  | .exchange _ => true
  | .setRate _ => false
  | .timeout _ => false
  | .respond _ _ => false

/-- The event of a primitive of unit `u`, `b` the byte returned if it is an exchange (00_scope.md R12). -/
def Prim.event (p : Prim) (u : Nat) (b : Byte) : Event :=
  match p with
  | .select => .sel u
  | .deselect => .des u
  | .exchange out => .x u out b
  | .setRate khz => .rate u khz
  | .timeout k => .timeout u k
  | .respond status value => .respond (some u) ⟨status, .word value⟩

/-- What one step of a running agent does: its primitive and the assignments up to the next one (log 8). -/
structure Action where
  prim  : Prim
  /-- The agent after it. -/
  agent : Agent
  /-- A counter's maximum update (10_state.md R41). -/
  diag  : Option (Phase × Word)
  /-- A write of `cls[u]` (41_init.md R186). -/
  cls   : Option CardClass
  /-- A `MemWrite` (43_transfer.md R235). -/
  store : Option (Nat × Byte)
  deriving DecidableEq, Repr

/-- A buffer after an action's store. -/
def HostBuf.storeOpt (buf : HostBuf) : Option (Nat × Byte) → HostBuf
  | none => buf
  | some (k, v) => buf.store k v

/-- The unit's record after an action: an exchange uses up one supplied byte. -/
def UnitState.after (U : UnitState) (a : Action) : UnitState where
  cls := a.cls.getD U.cls
  agent := a.agent
  buf := U.buf.storeOpt a.store
  inbound := if a.prim.isExchange then U.inbound.tail else U.inbound

/-- The response registers after a primitive (10_state.md R44). -/
def Response.after (resp : Response) : Prim → Response
  | .respond status value => ⟨status, .word value⟩
  | .select => resp
  | .deselect => resp
  | .exchange _ => resp
  | .setRate _ => resp
  | .timeout _ => resp

/-- An action of unit `u`, whose record is `U`, takes effect; `b` is the byte returned. -/
def State.commit (s : State) (u : Nat) (U : UnitState) (b : Byte) (a : Action) : State :=
  { s with
    units := s.units.set u (U.after a)
    diag := s.diag.raiseOpt a.diag
    resp := s.resp.after a.prim
    trace := s.trace ++ [a.prim.event u b]
    draws := if a.prim.isExchange then s.draws + 1 else s.draws }

/-- A response given at the host port without a running agent: unit `u`'s, or DIAG's (44_host.md R280). -/
def State.respond (s : State) (u : Option Nat) (resp : Response) : State :=
  { s with resp := resp, trace := s.trace ++ [.respond u resp] }

/-- Unit `u`'s record replaced. -/
def State.setUnit (s : State) (u : Nat) (U : UnitState) : State := { s with units := s.units.set u U }

/-! ### Building actions -/

/-- Reading a working register: a fault where it holds no value (10_state.md R38, U8). -/
def need {α β : Type} (reg : Option α) (k : α → Except Fault β) : Except Fault β :=
  match reg with
  | some a => k a
  | none => .error .workingRegisterUnset

/-- The agent goes on at a position. -/
def Running.at (run : Running) (next : Pos × Work) : Agent := .running ⟨run.req, next.1, next.2⟩

/-- A primitive after which the agent goes on, with no other effect. -/
def Running.go (run : Running) (prim : Prim) (next : Pos × Work) : Action :=
  ⟨prim, run.at next, none, none, none⟩

/-- `fail e` with chip-select asserted: `Deselect(u)` is the next primitive, then `Respond(e, 0)`
(60_exceptions.md R301, R302). The engine has no traps; this is its one failure path. -/
def failSelected (e : OutcomeCode) (w : Work) : Pos × Work := (.desFail e, w)

/-- `fail e` with chip-select deasserted: `Respond(e, 0)` is the next primitive (R301, R302). -/
def failDeselected (e : OutcomeCode) (w : Work) : Pos × Work := (.respond e 0, w)

/-- The `Deselect(u)` of the failure path. -/
def actDesFail (run : Running) (e : OutcomeCode) : Action :=
  run.go .deselect (failDeselected e run.work)

/-- `Respond(status, value)`: the agent is IDLE and its working registers are gone (10_state.md R37,
60_exceptions.md R311). -/
def actRespond (status : OutcomeCode) (value : Word) : Action :=
  ⟨.respond status value, .idle, none, none, none⟩

end Sys2Proof.Machine
end

