-- ==== Sys2Proof/Machine/Capacity.lean ====
section
/-! DEFINITION. The capacity decoder (42_capacity.md R212 to R218). -/

namespace Sys2Proof.Machine

/-- CSD bytes as the decoder reads them: the 16 registers `csd[0..15]`, by index. -/
abbrev Csd := Vector Byte 16

/-- A bit field of a CSD byte, zero-extended to 32 bits (00_scope.md R10). -/
def csdField (b : Byte) (lo len : Nat) : Word := (b.extractLsb' lo len).setWidth 32

/-- Layout A: `units << 10` (R213). -/
def layoutA (csd : Csd) : Word :=
  let units : Word := csdField csd[9] 0 8 + (csdField csd[8] 0 8 <<< 8) + 1
  units <<< 10

/-- Layout B's exponent `e` (R214). -/
def layoutBExponent (csd : Csd) : Word :=
  csdField csd[5] 0 4 + csdField csd[10] 7 1 + (csdField csd[9] 0 2 <<< 1) + 2

/-- Layout B's multiplier (R214). -/
def layoutBMultiplier (csd : Csd) : Word :=
  csdField csd[8] 6 2 + (csdField csd[7] 0 8 <<< 2) + (csdField csd[6] 0 2 <<< 10) + 1

/-- Layout B with `e ≥ 9`: `mult << (e - 9)` (R214). -/
def layoutB (csd : Csd) : Word := layoutBMultiplier csd <<< ((layoutBExponent csd).toNat - 9)

/-- `DecodeCSD` (R212, R216, R217): the layout by `csd[0][7:6]`, the result halved, 0 for an unknown version.
In layout B with `e < 9` nothing fixes the result, any of the `2^32` values: the free value `free` (R215,
93 U1; log 3). -/
def decodeCsd (csd : Csd) (free : Word) : Word :=
  let v := csd[0].extractLsb' 6 2
  if v = 0b01#2 then layoutA csd >>> 1
  else if v = 0b00#2 then (if 9 ≤ (layoutBExponent csd).toNat then layoutB csd >>> 1 else free)
  else 0

/-- The CSD registers, all holding a value; none if one holds none. -/
def allCsd (csd : Vector (Option Byte) 16) : Option Csd :=
  if csd.toList.all Option.isSome then
    some #v[csd[0].getD 0, csd[1].getD 0, csd[2].getD 0, csd[3].getD 0, csd[4].getD 0, csd[5].getD 0,
      csd[6].getD 0, csd[7].getD 0, csd[8].getD 0, csd[9].getD 0, csd[10].getD 0, csd[11].getD 0,
      csd[12].getD 0, csd[13].getD 0, csd[14].getD 0, csd[15].getD 0]
  else none

end Sys2Proof.Machine
end

