-- ==== Sys2Proof/Machine/Exchanger.lean ====
section
/-! DEFINITION. The command/response exchanger (40_exchanger.md): the bounded wait (R130) and
`SendCommand` (R131 to R137), one primitive at a time. -/

namespace Sys2Proof.Machine

/-- Entering `BoundedWait` at a wait outside `SendCommand`: `i` starts at 0 (R130). -/
def enterWait (site : WaitSite) (w : Work) : Pos × Work := (.wait site, { w with i := some 0 })

/-- Entering `SendCommand`: the pre-command wait, which CMD0 does not have (R131, R133). -/
def enterCall (site : CallSite) (w : Work) : Pos × Work :=
  if site.command = .cmd0 then (.call site (.frame 0), w) else (.call site .preWait, { w with i := some 0 })

/-- One poll of `BoundedWait` (R130): `X(u, 0xFF)` returned `b`. On success the counter's maximum is
updated with the poll index and the wait returns; at the bound it ends without. -/
def pollStep (cfg : Config) (run : Running) (k : Phase) (cond : Bool) (b : Byte)
    (onHit onExpired : Work → Except Fault (Pos × Work)) : Except Fault Action :=
  need run.work.i fun i =>
    let w := { run.work with b := some b }
    if cond then
      match onHit { w with ok := some true } with
      | .ok next => .ok ⟨.exchange filler, run.at next, some (k, i), none, none⟩
      | .error f => .error f
    else if i.toNat + 1 < cfg.bound k then
      .ok (run.go (.exchange filler) (run.pos, { w with i := some (i + 1) }))
    else
      match onExpired { w with ok := some false } with
      | .ok next => .ok (run.go (.exchange filler) next)
      | .error f => .error f

/-- What the caller does with the status, up to its next primitive. The caller is the pseudocode of INIT
(41_init.md R170), CAPACITY (42_capacity.md R210), READ (43_transfer.md R233) or WRITE (R243). -/
def afterCall (req : Request) (site : CallSite) (r : Byte) (w : Work) : Except Fault (Pos × Work) :=
  match site with
  | .reset =>
    need w.j fun j =>
      let w := { w with j := some (j + 1) }
      if isIdleOnly r || decide (resetAttempts ≤ j.toNat + 1) then .ok (.desReset, w)
      else .ok (enterCall .reset w)
  | .probe =>
    if statusIllegalCmd r then .ok (.desProbe, { w with c := some .mmcSdv1 }) else .ok (.echo 0, w)
  | .negPrefix => .ok (enterCall .negCond w)
  | .negCond => .ok (.desNeg, w)
  | .ocr => if isClear r then .ok (.ocr 0, w) else .ok (failSelected .commandRejected w)
  | .capacity => if isClear r then .ok (enterWait .csd w) else .ok (failSelected .capacityQueryFailed w)
  | .readStart =>
    if isClear r then .ok (enterWait .readStart { w with rem := some req.count, p := some 0 })
    else .ok (failSelected .commandRejected w)
  | .readStop => .ok (.desDone, w)
  | .writePrefix => .ok (enterCall .writeErase w)
  | .writeErase => if isClear r then .ok (enterCall .writeStart w) else .ok (failSelected .commandRejected w)
  | .writeStart => if isClear r then .ok (.desSetup, w) else .ok (failSelected .commandRejected w)

/-- `SendCommand` returns: `r <- b` (R133), then the caller goes on. On a timeout `b` is "the last
(invalid) byte read" (R135). -/
def returnStatus (req : Request) (site : CallSite) (w : Work) : Except Fault (Pos × Work) :=
  need w.b fun b => afterCall req site b { w with r := some b }

/-- One primitive of `SendCommand` (R133). `b` is the byte an exchange returned. -/
def actCall (cfg : Config) (run : Running) (site : CallSite) (x : XPos) (b : Byte) : Except Fault Action :=
  match x with
  | .preWait =>
    pollStep cfg run .waitCmd (isNotBusy b) b
      (fun w => .ok (.call site (.frame 0), w))
      (fun w => .ok (.call site .preTimeout, w))
  | .preTimeout => .ok (run.go (.timeout .waitCmd) (.call site (.frame 0), run.work))
  | .frame k =>
    need (site.argument run.work) fun arg =>
      let out := (frame cfg.commands site.command arg).getD k filler
      .ok (run.go (.exchange out)
        (if k < 5 then (.call site (.frame (k + 1)), run.work)
         else (.call site .resp, { run.work with i := some 0 })))
  | .resp =>
    pollStep cfg run .cmd (isStatus b) b
      (returnStatus run.req site)
      (fun w => if site.command = .cmd0 then returnStatus run.req site w else .ok (.call site .respTimeout, w))
  | .respTimeout =>
    match returnStatus run.req site run.work with
    | .ok next => .ok (run.go (.timeout .cmd) next)
    | .error f => .error f

/-- What follows a bounded wait that succeeded (42_capacity.md R210, 43_transfer.md R234, R244, R247,
R249). `m <- min(rem, 512)` comes before a READ sector's payload (R235). -/
def afterWait (site : WaitSite) (w : Work) : Except Fault (Pos × Work) :=
  match site with
  | .csd => .ok (.csd 0, w)
  | .readStart => need w.rem fun rem => .ok (.readPayload 0, { w with m := some (sectorShare rem) })
  | .wdata => .ok (.wstartToken, w)
  | .wdone => .ok (.desSector, w)
  | .wstop => .ok (.wstopToken, w)
  | .widle => .ok (.desDone, w)

/-- The outcome of a bounded wait that timed out (10_state.md R40). -/
def WaitSite.failure : WaitSite → OutcomeCode
  | .csd => .capacityQueryFailed
  | .readStart => .dataTimeout
  | .wdata => .timingWindowExceeded
  | .wdone => .timingWindowExceeded
  | .wstop => .timingWindowExceeded
  | .widle => .timingWindowExceeded

/-- The condition of each wait (10_state.md R40). -/
def WaitSite.cond (site : WaitSite) (b : Byte) : Bool :=
  match site with
  | .csd => isStartToken b
  | .readStart => isStartToken b
  | .wdata => isNotBusy b
  | .wdone => isNotBusy b
  | .wstop => isNotBusy b
  | .widle => isNotBusy b

/-- One poll of a wait outside `SendCommand`. -/
def actWait (cfg : Config) (run : Running) (site : WaitSite) (b : Byte) : Except Fault Action :=
  pollStep cfg run site.phase (site.cond b) b (afterWait site) (fun w => .ok (.waitTimeout site, w))

/-- Its `Timeout(k)`, then `Deselect(u); fail E` (R130, 60_exceptions.md R308, R302). -/
def actWaitTimeout (run : Running) (site : WaitSite) : Action :=
  run.go (.timeout site.phase) (failSelected site.failure run.work)

end Sys2Proof.Machine
end

