-- ==== Sys2Proof/Machine/Init.lean ====
section
/-! DEFINITION. The initialization sequencer (41_init.md R170 to R190) and the CSD read (42_capacity.md
R210, R211), one primitive at a time. Each definition is one primitive of the pseudocode with the
assignments up to the next (log 8). -/

namespace Sys2Proof.Machine

/-- The first primitive, `SetRate(u, SLOW_KHZ)` (R171). -/
def actRateSlow (run : Running) : Action := run.go (.setRate slowKhz) (.desPower, run.work)

/-- `Deselect(u)` before the power-up clocks (R172). -/
def actDesPower (run : Running) : Action := run.go .deselect (.powerFiller 0, run.work)

/-- Filler `n` of `RESET_FILLER`; the byte returned is discarded (R172). -/
def actPowerFiller (run : Running) (n : Nat) : Action :=
  run.go (.exchange filler) (if n + 1 < resetFiller then (.powerFiller (n + 1), run.work) else (.selReset, run.work))

/-- `Select(u)`, `j <- 0`, then the first CMD0 (R173). -/
def actSelReset (run : Running) : Action :=
  run.go .select (enterCall .reset { run.work with j := some 0 })

/-- `Deselect(u)` after the reset attempts; `NoCardPresent` unless the status is `0x01` (R173, R174). -/
def actDesReset (run : Running) : Except Fault Action :=
  need run.work.r fun r =>
    .ok (run.go .deselect (if isIdleOnly r then (.selProbe, run.work) else failDeselected .noCardPresent run.work))

/-- `Select(u)`, then CMD8 (R175). -/
def actSelProbe (run : Running) : Action := run.go .select (enterCall .probe run.work)

/-- Echo byte `t[n]`; after `t[3]`, the pattern check (R177). -/
def actEcho (run : Running) (n : Nat) (b : Byte) : Action :=
  let w := { run.work with t := run.work.t.setIfInBounds n (some b) }
  run.go (.exchange filler)
    (if n + 1 < trailingBytes then (.echo (n + 1), w)
     else if isEchoPattern b then (.desProbe, { w with c := some .sdv2 })
     else failSelected .unsupportedCard w)

/-- `Deselect(u)` that ends the probe, then the first negotiation iteration, `j = 0` (R178, R180). -/
def actDesProbe (run : Running) : Action := run.go .deselect (.selNeg, { run.work with j := some 0 })

/-- `Select(u)` of an iteration, then CMD55 (R179). -/
def actSelNeg (run : Running) : Action := run.go .select (enterCall .negPrefix run.work)

/-- After negotiation: the OCR read for an SD v2 card, else the fast clock (R182, R184). -/
def afterNegotiation (c : CardClass) : Pos := if c = .sdv2 then .selOcr else .rateFast

/-- `Deselect(u)` of an iteration, then the loop test (R180): only bit 0 of the ACMD41 status is tested. -/
def actDesNeg (cfg : Config) (run : Running) : Except Fault Action :=
  need run.work.r fun r => need run.work.j fun j => need run.work.c fun c =>
    if !statusIdle r then
      .ok ⟨.deselect, run.at (afterNegotiation c, run.work), some (.sendOp, j), none, none⟩
    else if j.toNat + 1 < cfg.bSendOp then
      .ok (run.go .deselect (.selNeg, { run.work with j := some (j + 1) }))
    else
      .ok (run.go .deselect (.negTimeout, run.work))

/-- `Timeout(SEND_OP); fail NegotiationTimeout`: the card is already deselected (R180). -/
def actNegTimeout (run : Running) : Action :=
  run.go (.timeout .sendOp) (failDeselected .negotiationTimeout run.work)

/-- `Select(u)`, then CMD58 (R182). -/
def actSelOcr (run : Running) : Action := run.go .select (enterCall .ocr run.work)

/-- OCR byte `t[n]` (R182). -/
def actOcr (run : Running) (n : Nat) (b : Byte) : Action :=
  let w := { run.work with t := run.work.t.setIfInBounds n (some b) }
  run.go (.exchange filler) (if n + 1 < trailingBytes then (.ocr (n + 1), w) else (.desOcr, w))

/-- `Deselect(u)` of the OCR read, then the addressing-mode decision (R182, R183). -/
def actDesOcr (run : Running) : Except Fault Action :=
  need run.work.t[0] fun t0 =>
    .ok (run.go .deselect
      (.rateFast, if isBlockAddressed t0 then { run.work with c := some .sdv2Block } else run.work))

/-- `SetRate(u, FAST_KHZ)` (R185). -/
def actRateFast (cfg : Config) (run : Running) : Action := run.go (.setRate cfg.fastKhz) (.selCap, run.work)

/-- `Select(u)` of CAPACITY, then CMD9 (R210). -/
def actSelCap (run : Running) : Action := run.go .select (enterCall .capacity run.work)

/-- CSD byte `csd[n]` (R211). -/
def actCsd (run : Running) (n : Nat) (b : Byte) : Action :=
  let w := { run.work with csd := run.work.csd.setIfInBounds n (some b) }
  run.go (.exchange filler) (if n + 1 < csdBytes then (.csd (n + 1), w) else (.csdSum 0, w))

/-- CSD checksum byte, discarded (R211). -/
def actCsdSum (run : Running) (n : Nat) : Action :=
  run.go (.exchange filler) (if n + 1 < checksumBytes then (.csdSum (n + 1), run.work) else (.desCap, run.work))

/-- `Deselect(u)` of CAPACITY, then the decode and the commit: a count of 0 fails, otherwise `cls[u] <- c`
(R210, R186, R217). -/
def actDesCap (run : Running) (free : Word) : Except Fault Action :=
  need (allCsd run.work.csd) fun csd =>
    let n := decodeCsd csd free
    if n = 0 then .ok (run.go .deselect (failDeselected .capacityQueryFailed run.work))
    else need run.work.c fun c =>
      .ok ⟨.deselect, run.at (.respond .ok n, run.work), none, some c, none⟩

end Sys2Proof.Machine
end

