-- ==== Sys2Proof/Machine/Transfer.lean ====
section
/-! DEFINITION. The block transfer engine (43_transfer.md R230 to R250), one primitive at a time. -/

namespace Sys2Proof.Machine

/-! ### READ (R233) -/

/-- `Select(u)`, then CMD18 (R233). -/
def actSelRead (run : Running) : Action := run.go .select (enterCall .readStart run.work)

/-- Payload byte `k` of the sector: the first `m` go to the buffer in order, the rest nowhere (R235). -/
def actReadPayload (buf : HostBuf) (run : Running) (k : Nat) (b : Byte) : Except Fault Action :=
  need run.work.p fun p => need run.work.m fun m =>
    let next : Agent := run.at (if k + 1 < sectorBytes then .readPayload (k + 1) else .readSum 0, run.work)
    if k < m.toNat then
      if p.toNat + k < buf.size then .ok ⟨.exchange filler, next, none, none, some (p.toNat + k, b)⟩
      else .error .bufferIndexOutOfRange
    else .ok ⟨.exchange filler, next, none, none, none⟩

/-- Checksum byte, never checked; after the second, the next sector or CMD12 (R236, R237, R233). -/
def actReadSum (run : Running) (n : Nat) : Except Fault Action :=
  if n + 1 < checksumBytes then .ok (run.go (.exchange filler) (.readSum (n + 1), run.work))
  else need run.work.p fun p => need run.work.m fun m => need run.work.rem fun rem =>
    let w := { run.work with p := some (nextBufferIndex p m) }
    .ok (run.go (.exchange filler)
      (if moreSectors rem then enterWait .readStart { w with rem := some (lessOneSector rem) }
       else enterCall .readStop w))

/-! ### WRITE (R243) -/

/-- `Select(u)`, then CMD55 (R242). -/
def actSelWrite (run : Running) : Action := run.go .select (enterCall .writePrefix run.work)

/-- `Deselect(u)` after the setup; `rem <- count`, `p <- 0` (R242, R243). -/
def actDesSetup (run : Running) : Action :=
  run.go .deselect (.selSector, { run.work with rem := some run.req.count, p := some 0 })

/-- `Select(u)` of a sector, then the data-wait (R244). -/
def actSelSector (run : Running) : Action := run.go .select (enterWait .wdata run.work)

/-- `X(u, 0xFC)`, then `m <- min(rem, 512)` (R245). -/
def actWstart (run : Running) : Except Fault Action :=
  need run.work.rem fun rem =>
    .ok (run.go (.exchange tokenWstartByte) (.writePayload 0, { run.work with m := some (sectorShare rem) }))

/-- Payload byte `k` of the sector: `m` buffer bytes in order, then fillers (R245). -/
def actWritePayload (buf : HostBuf) (run : Running) (k : Nat) : Except Fault Action :=
  need run.work.p fun p => need run.work.m fun m =>
    let next : Pos × Work := (if k + 1 < sectorBytes then .writePayload (k + 1) else .writeSum 0, run.work)
    if k < m.toNat then
      match buf.load (p.toNat + k) with
      | some out => .ok (run.go (.exchange out) next)
      | none => .error .bufferIndexOutOfRange
    else .ok (run.go (.exchange filler) next)

/-- Checksum byte `0xFF` (R246). -/
def actWriteSum (run : Running) (n : Nat) : Action :=
  run.go (.exchange filler) (if n + 1 < checksumBytes then (.writeSum (n + 1), run.work) else (.dataResp, run.work))

/-- The data-response `d`: accepted, then the completion wait; anything else is `DataRejected` (R246). -/
def actDataResp (run : Running) (b : Byte) : Action :=
  let w := { run.work with d := some b }
  run.go (.exchange filler) (if isAccepted b then enterWait .wdone w else failSelected .dataRejected w)

/-- `Deselect(u)` between sectors (R248), then the next sector or the stop transaction (R243). -/
def actDesSector (run : Running) : Except Fault Action :=
  need run.work.p fun p => need run.work.m fun m => need run.work.rem fun rem =>
    let w := { run.work with p := some (nextBufferIndex p m) }
    .ok (run.go .deselect
      (if moreSectors rem then (.selSector, { w with rem := some (lessOneSector rem) }) else (.selStop, w)))

/-- `Select(u)` of the stop transaction, then its wait (R249). -/
def actSelStop (run : Running) : Action := run.go .select (enterWait .wstop run.work)

/-- `X(u, 0xFD)`, then the idle wait (R249). -/
def actWstop (run : Running) : Action := run.go (.exchange tokenWstopByte) (enterWait .widle run.work)

/-- `Deselect(u)`, then `Respond(OK, 0)` (R237, R249). -/
def actDesDone (run : Running) : Action := run.go .deselect (.respond .ok 0, run.work)

end Sys2Proof.Machine
end

