-- ==== Sys2Proof/Machine/Engine.lean ====
section
/-! DEFINITION. One step of a unit's agent: "The position advances by one primitive per step, in the order
the pseudocode gives" (10_state.md R36). -/

namespace Sys2Proof.Machine

/-- The action at a running agent's position. `b` is the byte the transport returns if the primitive is an
exchange, `free` the free value of 42_capacity.md R215. -/
def act (cfg : Config) (buf : HostBuf) (free : Word) (b : Byte) (run : Running) : Except Fault Action :=
  match run.pos with
  | .rateSlow => .ok (actRateSlow run)
  | .desPower => .ok (actDesPower run)
  | .powerFiller n => .ok (actPowerFiller run n)
  | .selReset => .ok (actSelReset run)
  | .desReset => actDesReset run
  | .selProbe => .ok (actSelProbe run)
  | .echo n => .ok (actEcho run n b)
  | .desProbe => .ok (actDesProbe run)
  | .selNeg => .ok (actSelNeg run)
  | .desNeg => actDesNeg cfg run
  | .negTimeout => .ok (actNegTimeout run)
  | .selOcr => .ok (actSelOcr run)
  | .ocr n => .ok (actOcr run n b)
  | .desOcr => actDesOcr run
  | .rateFast => .ok (actRateFast cfg run)
  | .selCap => .ok (actSelCap run)
  | .csd n => .ok (actCsd run n b)
  | .csdSum n => .ok (actCsdSum run n)
  | .desCap => actDesCap run free
  | .selRead => .ok (actSelRead run)
  | .readPayload k => actReadPayload buf run k b
  | .readSum n => actReadSum run n
  | .selWrite => .ok (actSelWrite run)
  | .desSetup => .ok (actDesSetup run)
  | .selSector => .ok (actSelSector run)
  | .wstartToken => actWstart run
  | .writePayload k => actWritePayload buf run k
  | .writeSum n => .ok (actWriteSum run n)
  | .dataResp => .ok (actDataResp run b)
  | .desSector => actDesSector run
  | .selStop => .ok (actSelStop run)
  | .wstopToken => .ok (actWstop run)
  | .desDone => .ok (actDesDone run)
  | .desFail e => .ok (actDesFail run e)
  | .call site x => actCall cfg run site x b
  | .wait site => actWait cfg run site b
  | .waitTimeout site => .ok (actWaitTimeout run site)
  | .respond status value => .ok (actRespond status value)

/-- The running agent of record `U` of unit `u` performs its next primitive; an exchange returns `b`. -/
def performRun (u : Nat) (U : UnitState) (run : Running) (b : Byte) (s : State) : StepOutcome :=
  match act s.cfg U.buf (Config.freeSectors s.draws) b run with
  | .ok a => .next (s.commit u U b a)
  | .error f => .fault f

/-- The running agent of unit `u`, if there is one. -/
def State.runningAt (s : State) (u : Nat) : Option (UnitState × Running) :=
  match s.units[u]? with
  | some U => match U.agent with
    | .running run => some (U, run)
    | .idle => none
  | none => none

/-- The unit that moves in this step, with its running agent (log 4). -/
def State.mover (s : State) : Option (Nat × UnitState × Running) :=
  match s.turn with
  | .unit u => (s.runningAt u).map fun x => (u, x)
  | .host => none
  | .diag => none

end Sys2Proof.Machine
end

