-- ==== Sys2Proof/Machine/Commands.lean ====
section
/-! DEFINITION. The meanings of the ten card command rows (40_exchanger.md R140 to R149). A command is
`SendCommand(u, cmd, arg)`, run by the agent that moves, one primitive a step: each step of the command,
from its pre-command wait to its status, is this meaning again. -/

namespace Sys2Proof.Machine

/-- The agent stands inside the `SendCommand` of this command with this argument. -/
def Running.calls (run : Running) (cmd : Command) (arg : Word) : Bool :=
  match run.pos with
  | .call site _ => decide (site.command = cmd) && decide (site.argument run.work = some arg)
  | _ => false

/-- The next primitive of `SendCommand(u, cmd, arg)` (40_exchanger.md R133). A frame is sent only from a
call site of the pseudocode (41_init.md R190, 30_encoding.md R106). -/
def execCommand (cmd : Command) (arg : Word) (s : State) : StepOutcome :=
  match s.mover with
  | some (u, U, run) =>
    if run.calls cmd arg then performRun u U run (U.answer s.draws) s else .refused .outOfPlace
  | none => .refused .outOfPlace

/-- CMD0, reset: no pre-command wait, no timeout event (R140). -/
def execCmd0 (s : State) : StepOutcome := execCommand .cmd0 0 s

/-- CMD8, interface condition, argument `0x1AA` (R141). -/
def execCmd8 (s : State) : StepOutcome := execCommand .cmd8 0x000001AA s

/-- CMD9, capacity register (R142). -/
def execCmd9 (s : State) : StepOutcome := execCommand .cmd9 0 s

/-- CMD12, stop transmission (R143). -/
def execCmd12 (s : State) : StepOutcome := execCommand .cmd12 0 s

/-- CMD18, multi-block read (R144). -/
def execCmd18 (arg : Word) (s : State) : StepOutcome := execCommand .cmd18 arg s

/-- CMD25, multi-block write (R145). -/
def execCmd25 (arg : Word) (s : State) : StepOutcome := execCommand .cmd25 arg s

/-- CMD55, application-command prefix (R146). -/
def execCmd55 (s : State) : StepOutcome := execCommand .cmd55 0 s

/-- CMD58, OCR read (R147). -/
def execCmd58 (s : State) : StepOutcome := execCommand .cmd58 0 s

/-- ACMD23, set write-block erase count (R148). -/
def execAcmd23 (nsec : Word) (s : State) : StepOutcome := execCommand .acmd23 nsec s

/-- ACMD41, SD operating condition (R149). -/
def execAcmd41 (hcs : Bool) (s : State) : StepOutcome := execCommand .acmd41 (hcsArgument hcs) s

end Sys2Proof.Machine
end

