-- ==== Sys2Proof/Machine/HostOps.lean ====
section
/-! DEFINITION. The meanings of the host requests (44_host.md R281 to R286). INIT, READ and WRITE run one
primitive a step: on an idle agent the meaning starts the request and performs its first primitive, on the
agent running it the meaning performs the next. -/

namespace Sys2Proof.Machine

/-! ### Choices the spec gives no rule for -/

/-- The next scheduling choice (log 4). -/
def State.choice (s : State) : Nat :=
  match s.choices with
  | c :: _ => c
  | [] => Config.freeChoice s.draws

/-- The state with that choice used up. -/
def State.dropChoice (s : State) : State := { s with choices := s.choices.tail, draws := s.draws + 1 }

/-! ### Requests to a unit -/

/-- The duty a READ or WRITE record breaks, if any: `count ≥ 1`, and a buffer of at least `count` bytes
(R287, 43_transfer.md R232, 20_memory.md R70, R78). -/
def transferDuty (count : Word) (buf : HostBuf) : Option Refusal :=
  if count = 0 then some .countZero
  else if buf.size < count.toNat then some .bufferTooShort
  else none

/-- A request that breaks a duty of the host has no meaning (R287). -/
def ifDutiful (broken : Option Refusal) (o : StepOutcome) : StepOutcome :=
  match broken with
  | some r => .refused r
  | none => o

/-- A request to a unit: the next primitive of the request if the unit's agent is running it; else, a new
request, refused where it breaks a duty (log 11), then the unit check (R281), then `start`. A second request to
a busy unit has no meaning (R287, U19). -/
def hostRequest (req : Request) (broken : Option Refusal) (start : UnitState → StepOutcome) (s : State) :
    StepOutcome :=
  let u := req.unit.toNat
  match s.units[u]? with
  | none => ifDutiful broken (.next (s.respond (some u) ⟨.badUnit, .word 0⟩))
  | some U => match U.agent with
    | .running run =>
      if run.req = req then performRun u U run (U.answer s.draws) s else .refused .requestInFlight
    | .idle => ifDutiful broken (start U)

/-- The agent starts a request at its first primitive, and performs it (10_state.md R36, R38). -/
def startRequest (req : Request) (U : UnitState) (pos : Pos) (w : Work) (s : State) : StepOutcome :=
  let run : Running := ⟨req, pos, w⟩
  performRun req.unit.toNat { U with agent := .running run } run (U.answer s.draws) s

/-- READ and WRITE: the class check (43_transfer.md R230), then the first primitive, with the request's
buffer. -/
def startTransfer (req : Request) (pos : Pos) (w : Work) (s : State) (U : UnitState) : StepOutcome :=
  if U.cls = .unknown then .next (s.respond (some req.unit.toNat) ⟨.notReady, .word 0⟩)
  else startRequest req { U with buf := s.port.buf } pos w s

/-- The request records of the three running requests. INIT ignores `offset` and `count` (R280). -/
def initRequest (unit : BitVec 8) : Request := ⟨opInit, unit, 0, 0⟩
def readRequest (unit : BitVec 8) (offset count : Word) : Request := ⟨opRead, unit, offset, count⟩
def writeRequest (unit : BitVec 8) (offset count : Word) : Request := ⟨opWrite, unit, offset, count⟩

/-- INIT (R282, 41_init.md R170): `cls[u] <- UNKNOWN` is its first effect (R187). -/
def execInit (unit : BitVec 8) (s : State) : StepOutcome :=
  hostRequest (initRequest unit) none
    (fun U => startRequest (initRequest unit) { U with cls := .unknown } .rateSlow Work.empty s) s

/-- READ (R283, 43_transfer.md R233): `arg <- transform(offset)` before the first primitive. -/
def execRead (unit : BitVec 8) (offset count : Word) (s : State) : StepOutcome :=
  hostRequest (readRequest unit offset count) (transferDuty count s.port.buf)
    (fun U => startTransfer (readRequest unit offset count) .selRead
      { Work.empty with arg := some (cardAddress U.cls offset) } s U) s

/-- WRITE (R284, 43_transfer.md R243): `arg` and `nsec` before the first primitive. -/
def execWrite (unit : BitVec 8) (offset count : Word) (s : State) : StepOutcome :=
  hostRequest (writeRequest unit offset count) (transferDuty count s.port.buf)
    (fun U => startTransfer (writeRequest unit offset count) .selWrite
      { Work.empty with arg := some (cardAddress U.cls offset), nsec := some (sectorCount count) } s U) s

/-- SHUTDOWN (R285): `cls[u] <- UNKNOWN; Respond(OK, 0)`. -/
def execShutdown (unit : BitVec 8) (s : State) : StepOutcome :=
  let u := unit.toNat
  match s.units[u]? with
  | none => .next (s.respond (some u) ⟨.badUnit, .word 0⟩)
  | some U => match U.agent with
    | .running _ => .refused .requestInFlight
    | .idle => .next ((s.setUnit u { U with cls := .unknown }).respond (some u) ⟨.ok, .word 0⟩)

/-! ### DIAG -/

/-- Whether a unit's agent is running a request. -/
def UnitState.busy (U : UnitState) : Bool :=
  match U.agent with
  | .idle => false
  | .running _ => true

/-- Counters not yet sampled. -/
def unsampled (taken : List (Phase × Word)) : List Phase :=
  Phase.all.filter fun k => taken.all fun x => decide (x.1 ≠ k)

/-- The nine values of a finished sampling. -/
def Diag.ofSamples (taken : List (Phase × Word)) : Diag :=
  taken.foldl (fun d x => d.set x.1 x.2) Diag.zero

/-- DIAG's response (R286). -/
def State.respondDiag (s : State) (d : Diag) : State :=
  { s.respond none ⟨.ok, .counters d⟩ with diagRead := none }

/-- DIAG samples one counter, in an order the spec leaves open (R286, U14; log 14). The last sample ends
it. -/
def sampleCounter (taken : List (Phase × Word)) (s : State) : State :=
  match unsampled taken with
  | [] => s.respondDiag (Diag.ofSamples taken)
  | [k] => s.respondDiag (Diag.ofSamples (taken ++ [(k, s.diag.get k)]))
  | k :: l =>
    let pick := (k :: l).getD (s.choice % (k :: l).length) k
    { s.dropChoice with diagRead := some (taken ++ [(pick, s.diag.get pick)]) }

/-- DIAG (R286). With no unit running, the nine values come from one instant, and the response is given at
once; while a unit runs, each step samples one counter (log 14). -/
def execDiag (s : State) : StepOutcome :=
  match s.diagRead with
  | some taken => .next (sampleCounter taken s)
  | none =>
    if s.units.any UnitState.busy then .next (sampleCounter [] s) else .next (s.respondDiag s.diag)

end Sys2Proof.Machine
end

