-- ==== Sys2Proof/Machine/Tokens.lean ====
section
/-! DEFINITION. The meanings of the token and inbound rows (30_encoding.md R95, R100, R101). A row that the
card sends is the exchange in which the engine receives that byte (log 15). -/

namespace Sys2Proof.Machine

/-- The agent that moves performs its primitive, the exchange returning `b`, if it stands at a fitting
place. `b` is none where the byte returned is the transport's. -/
def execAt (fits : Pos → Bool) (b : Option Byte) (s : State) : StepOutcome :=
  match s.mover with
  | some (u, U, run) =>
    if fits run.pos then performRun u U run (b.getD (U.answer s.draws)) s else .refused .outOfPlace
  | none => .refused .outOfPlace

/-- A wait for the start token (43_transfer.md R234, 42_capacity.md R210). -/
def Pos.isStartTokenWait : Pos → Bool
  | .wait .csd => true
  | .wait .readStart => true
  | _ => false

/-- The response poll of a command (40_exchanger.md R134). -/
def Pos.isResponsePoll : Pos → Bool
  | .call _ .resp => true
  | _ => false

/-- TOKEN_START: a poll of a start-token wait returns `0xFE` (R234, R210). -/
def execTokenStart (s : State) : StepOutcome := execAt Pos.isStartTokenWait (some tokenStartByte) s

/-- TOKEN_WSTART: the engine sends `0xFC` (R245). -/
def execTokenWstart (s : State) : StepOutcome := execAt (fun p => decide (p = .wstartToken)) none s

/-- TOKEN_WSTOP: the engine sends `0xFD` (R249). -/
def execTokenWstop (s : State) : StepOutcome := execAt (fun p => decide (p = .wstopToken)) none s

/-- R1_STATUS: a response poll returns a byte with bit 7 clear (R134, R95). -/
def execR1Status (flags : BitVec 7) (s : State) : StepOutcome :=
  execAt Pos.isResponsePoll (some (statusByte flags)) s

/-- DATA_RESP_ACCEPT: the data-response exchange returns an accepted byte (R246, R101). -/
def execDataRespAccept (ignored : BitVec 3) (s : State) : StepOutcome :=
  execAt (fun p => decide (p = .dataResp)) (some (dataRespByte ignored)) s

end Sys2Proof.Machine
end

