-- ==== Sys2Proof/Machine/Dispatch.lean ====
section
/-! DEFINITION. One arm per row of the opcode table. -/

namespace Sys2Proof.Machine

open Sys2Proof

def exec (i : Instr) (s : State) : Host.Outcome State Fault Refusal :=
  match i with
  | .cmd0 => Sys2Proof.Machine.execCmd0 s
  | .cmd8 => Sys2Proof.Machine.execCmd8 s
  | .cmd9 => Sys2Proof.Machine.execCmd9 s
  | .cmd12 => Sys2Proof.Machine.execCmd12 s
  | .cmd18 arg => Sys2Proof.Machine.execCmd18 arg s
  | .cmd25 arg => Sys2Proof.Machine.execCmd25 arg s
  | .cmd55 => Sys2Proof.Machine.execCmd55 s
  | .cmd58 => Sys2Proof.Machine.execCmd58 s
  | .acmd23 nsec => Sys2Proof.Machine.execAcmd23 nsec s
  | .acmd41 hcs => Sys2Proof.Machine.execAcmd41 hcs s
  | .tokenStart => Sys2Proof.Machine.execTokenStart s
  | .tokenWstart => Sys2Proof.Machine.execTokenWstart s
  | .tokenWstop => Sys2Proof.Machine.execTokenWstop s
  | .r1Status flags => Sys2Proof.Machine.execR1Status flags s
  | .dataRespAccept ignored => Sys2Proof.Machine.execDataRespAccept ignored s
  | .init unit => Sys2Proof.Machine.execInit unit s
  | .read unit offset count => Sys2Proof.Machine.execRead unit offset count s
  | .write unit offset count => Sys2Proof.Machine.execWrite unit offset count s
  | .shutdown unit => Sys2Proof.Machine.execShutdown unit s
  | .diag => Sys2Proof.Machine.execDiag s

end Sys2Proof.Machine
end

