-- ==== Sys2Proof/Machine/Fetch.lean ====
section
/-! DEFINITION. Which operation the next step runs, and which agent moves after it. The engine has no
program counter (10_state.md R35): a host request comes from the host port, a frame, a token or an inbound
byte from the position of the agent that moves. -/

namespace Sys2Proof.Machine

/-- What a step finds to do. -/
inductive Fetched where
  /-- Nothing: the engine "waits for a host request" (70_reset_and_hazards.md R331). -/
  | waiting
  /-- No meaning. -/
  | refused (r : Refusal)
  /-- A fault. -/
  | fault (f : Fault)
  /-- The bytes of an operation, the place they stand at, and the state that runs it. -/
  | word (port : Port) (bytes : List Byte) (s : State)
  deriving DecidableEq, Repr

/-- DIAG's request record. -/
def diagRequest : Request := ⟨opDiag, 0, 0, 0⟩

/-- The host port can take a request: its unit has no request in progress, or there is no such unit, or it
is a DIAG and none is in flight (44_host.md R287; log 4, log 26). -/
def State.portFree (s : State) (q : Request) : Bool :=
  if q.op = opDiag then s.diagRead.isNone
  else match s.units[q.unit.toNat]? with
    | none => true
    | some U => !U.busy

/-- The bytes of the operation a running agent is in, `b` the byte the transport returns next. Inside
`SendCommand` that is the frame, or the status if the response poll receives one; at a token its byte;
elsewhere the request record. -/
def fetchRunning (t : CommandTable) (run : Running) (b : Byte) : Except Fault (Port × List Byte) :=
  match run.pos with
  | .call site x =>
    need (site.argument run.work) fun arg =>
      .ok (if x = .resp ∧ isStatus b = true then (.rxStatus, [b])
        else (if site.command.isApplication then .appFrame else .frame, frame t site.command arg))
  | .wait .csd => .ok (if isStartToken b then (.rxToken, [b]) else (.host, run.req.bytes))
  | .wait .readStart => .ok (if isStartToken b then (.rxToken, [b]) else (.host, run.req.bytes))
  | .wstartToken => .ok (.txToken, [tokenWstartByte])
  | .wstopToken => .ok (.txToken, [tokenWstopByte])
  | .dataResp => .ok (if isAccepted b then (.rxDataResp, [b]) else (.host, run.req.bytes))
  | _ => .ok (.host, run.req.bytes)

/-- What the next step finds to do (log 4, log 21). -/
def State.fetch (s : State) : Fetched :=
  match s.turn with
  | .host => match s.hostQueue with
    | [] => .waiting
    | q :: rest =>
      if s.portFree q.req then .word .host q.req.bytes { s with port := q, hostQueue := rest }
      else .refused .requestInFlight
  | .unit u => match s.runningAt u with
    | none => .waiting
    | some (U, run) => match fetchRunning s.cfg.commands run (U.answer s.draws) with
      | .ok (port, bytes) => .word port bytes s
      | .error f => .fault f
  | .diag => match s.diagRead with
    | none => .waiting
    | some _ => .word .host diagRequest.bytes s

/-! ### Which agent moves next (20_memory.md R82, U13; log 4) -/

/-- The host has a request the port can take. -/
def State.hostReady (s : State) : Bool :=
  match s.hostQueue with
  | [] => false
  | q :: _ => s.portFree q.req

/-- The agents that can move. -/
def State.candidates (s : State) : List Turn :=
  (if s.hostReady then [Turn.host] else [])
    ++ ((List.range s.units.length).filter fun u => (s.runningAt u).isSome).map Turn.unit
    ++ (if s.diagRead.isSome then [Turn.diag] else [])

/-- The next turn: the host's if none can move, the only candidate if there is one, else a free choice. -/
def State.reschedule (s : State) : State :=
  match s.candidates with
  | [] => { s with turn := .host }
  | [t] => { s with turn := t }
  | t :: l => { s.dropChoice with turn := (t :: l).getD (s.choice % (t :: l).length) t }

/-- A step's outcome with the next turn chosen. -/
def thenReschedule : StepOutcome → StepOutcome
  | .next s => .next s.reschedule
  | .fault f => .fault f
  | .refused r => .refused r

/-- Only a configuration the spec allows runs (00_scope.md R8, R9, 93 U6; log 25). -/
def State.configOk (s : State) : Bool :=
  s.cfg.wf && decide (1 ≤ s.units.length) && decide (s.units.length ≤ 256)

/-! ### Placing one operation (log 16) -/

/-- A running agent that stands where this frame, token or inbound byte comes next, with the registers
that place needs: a frame at its first byte, an inbound byte at the exchange that receives it. None for a
host request. -/
def placement : Instr → Option Running
  | .cmd0 => some ⟨initRequest 0, .call .reset (.frame 0), Work.empty⟩
  | .cmd8 => some ⟨initRequest 0, .call .probe (.frame 0), Work.empty⟩
  | .cmd9 => some ⟨initRequest 0, .call .capacity (.frame 0), Work.empty⟩
  | .cmd12 => some ⟨readRequest 0 0 1, .call .readStop (.frame 0), Work.empty⟩
  | .cmd18 arg => some ⟨readRequest 0 0 1, .call .readStart (.frame 0), { Work.empty with arg := some arg }⟩
  | .cmd25 arg => some ⟨writeRequest 0 0 1, .call .writeStart (.frame 0), { Work.empty with arg := some arg }⟩
  | .cmd55 => some ⟨initRequest 0, .call .negPrefix (.frame 0), Work.empty⟩
  | .cmd58 => some ⟨initRequest 0, .call .ocr (.frame 0), Work.empty⟩
  | .acmd23 nsec =>
    some ⟨writeRequest 0 0 1, .call .writeErase (.frame 0), { Work.empty with nsec := some nsec }⟩
  | .acmd41 hcs =>
    some ⟨initRequest 0, .call .negCond (.frame 0),
      { Work.empty with c := some (if hcs then .sdv2 else .mmcSdv1) }⟩
  | .tokenStart => some ⟨readRequest 0 0 1, .wait .readStart, { Work.empty with i := some 0, rem := some 1 }⟩
  | .tokenWstart => some ⟨writeRequest 0 0 1, .wstartToken, { Work.empty with rem := some 1 }⟩
  | .tokenWstop => some ⟨writeRequest 0 0 1, .wstopToken, Work.empty⟩
  | .r1Status _ => some ⟨readRequest 0 0 1, .call .readStop .resp, { Work.empty with i := some 0 }⟩
  | .dataRespAccept _ => some ⟨writeRequest 0 0 1, .dataResp, Work.empty⟩
  | .init _ => none
  | .read _ _ _ => none
  | .write _ _ _ => none
  | .shutdown _ => none
  | .diag => none

/-- The byte the transport must return for an inbound row. -/
def placedAnswer : Instr → List Byte
  | .tokenStart => [tokenStartByte]
  | .r1Status flags => [statusByte flags]
  | .dataRespAccept ignored => [dataRespByte ignored]
  | _ => []

/-- The state in which the next step runs exactly this operation. A host request of word `w` goes to the
head of the host's requests, with one byte to move, and unit 0 and the DIAG reader free; any other row puts unit 0's agent at
its place. -/
def State.place (s : State) (i : Instr) (w : Nat) : State :=
  match placement i with
  | none =>
    { s with
      hostQueue := ⟨⟨BitVec.ofNat 3 w, 0, 0, 1⟩, ⟨1, []⟩⟩ :: s.hostQueue
      units := s.units.modify 0 fun U => { U with agent := .idle }
      diagRead := none
      turn := .host }
  | some run =>
    { s with
      units := s.units.modify 0 fun U => { U with agent := .running run, inbound := placedAnswer i ++ U.inbound }
      turn := .unit 0 }

end Sys2Proof.Machine
end

