-- ==== Sys2Proof/Machine/Step.lean ====
section
/-! DEFINITION. The step: fetch, decode, run, choose the next turn. -/

namespace Sys2Proof.Machine

/-- One step of the machine. -/
def step (s : State) : Host.Outcome State Fault Refusal :=
  if s.configOk then
    match s.fetch with
    | .waiting => .next s.reschedule
    | .refused r => .refused r
    | .fault f => .fault f
    | .word port bytes s' =>
      match decode s.cfg.commands port bytes with
      | .ok i => thenReschedule (exec i s')
      | .error e => .refused (.undecodable e)
  else .refused .badConfiguration

/-- `s` with the operation of a word of the opcode table where the next step takes it (log 16). -/
def State.withFetchWord (s : State) (nbits w : Nat) : State :=
  match decodeTableWord nbits w with
  | none => s
  | some i => s.place i w

end Sys2Proof.Machine
end

