-- ==== Sys2Proof/Safety.lean ====
section
/-! DEFINITION. What a safe run is, in the terms the statements use: the invariant of the state, the cost
still to come of a request in progress (70_reset_and_hazards.md R340, R341), the chip-select a trace leaves
(60_exceptions.md R302), and an operation performed several times. -/

namespace Sys2Proof.Machine

/-! ### An operation of many primitives -/

/-- `n` steps of one operation, stopping at the first fault or refusal. -/
def execTimes (i : Instr) : Nat → State → StepOutcome
  | 0, s => .next s
  | n + 1, s =>
    match exec i s with
    | .next t => execTimes i n t
    | .fault f => .fault f
    | .refused r => .refused r

/-! ### Which agent a statement is about -/

/-- Unit `u`, whose record is `U`, is running `run`. -/
def State.Runs (s : State) (u : Nat) (U : UnitState) (run : Running) : Prop :=
  s.units[u]? = some U ∧ U.agent = .running run

/-- It is unit `u`'s turn, and it is running `run`. -/
def State.Moves (s : State) (u : Nat) (U : UnitState) (run : Running) : Prop :=
  s.turn = .unit u ∧ s.Runs u U run

/-- `i` is the host request that `run` is running. -/
def Running.IsOf (run : Running) (i : Instr) : Prop :=
  match i with
  | .init unit => run.req = initRequest unit
  | .read unit offset count => run.req = readRequest unit offset count
  | .write unit offset count => run.req = writeRequest unit offset count
  | _ => False

/-- The operation each `SendCommand` of the pseudocode performs, its operand from the registers: INIT
(41_init.md R170, R181), CAPACITY (42_capacity.md R210), READ (43_transfer.md R233), WRITE (R242, R243). -/
def CallSite.operation (site : CallSite) (w : Work) : Option Instr :=
  match site with
  | .reset => some .cmd0
  | .probe => some .cmd8
  | .negPrefix => some .cmd55
  | .negCond => w.c.map fun c => .acmd41 (decide (c = .sdv2))
  | .ocr => some .cmd58
  | .capacity => some .cmd9
  | .readStart => w.arg.map .cmd18
  | .readStop => some .cmd12
  | .writePrefix => some .cmd55
  | .writeErase => w.nsec.map .acmd23
  | .writeStart => w.arg.map .cmd25

/-- The byte the transport of a unit returns to the `k`-th exchange from now, if no other unit exchanges
meanwhile (10_state.md R48; log 2). -/
def UnitState.answerAt (U : UnitState) (draws k : Nat) : Byte := (U.inbound[k]?).getD (Config.freeByte (draws + k))

/-- The state in which a response poll of unit `u` has received a valid status and the agent goes on at `pos`
with the registers `w`; `r`, `b` and `ok` are set, `CMD` is raised. -/
def State.statusReceived (s : State) (u : Nat) (U : UnitState) (run : Running) (flags : BitVec 7) (n : Word) (pos : Pos)
    (w : Work) : State :=
  { s with
    units := s.units.set u { U with
      inbound := U.inbound.tail
      agent := .running ⟨run.req, pos, { w with
        b := some (statusByte flags), ok := some true, r := some (statusByte flags) }⟩ }
    diag := s.diag.raise .cmd n
    trace := s.trace ++ [.x u 0xFF (statusByte flags)]
    draws := s.draws + 1 }

/-- The state in which the command of unit `u` has timed out at its response poll, `TIMEOUT CMD` has been emitted
and the agent goes on at `pos` with the registers `w` (40_exchanger.md R134, R135). -/
def State.statusTimedOut (s : State) (u : Nat) (U : UnitState) (run : Running) (pos : Pos) (w : Work) : State :=
  { s with
    units := s.units.set u { U with agent := .running ⟨run.req, pos, w⟩ }
    trace := s.trace ++ [.timeout u .cmd] }

/-! ### The invariant -/

/-- The three requests an agent runs (10_state.md R36). -/
inductive Family where
  | init | read | write
  deriving DecidableEq, Repr

/-- The outcomes of each (44_host.md R282 to R284), less those given before the agent starts. -/
def Family.allows : Family → OutcomeCode → Bool
  | .init, .ok => true
  | .init, .noCardPresent => true
  | .init, .unsupportedCard => true
  | .init, .negotiationTimeout => true
  | .init, .commandRejected => true
  | .init, .capacityQueryFailed => true
  | .read, .ok => true
  | .read, .commandRejected => true
  | .read, .dataTimeout => true
  | .write, .ok => true
  | .write, .commandRejected => true
  | .write, .dataRejected => true
  | .write, .timingWindowExceeded => true
  | _, _ => false

def CallSite.family : CallSite → Family
  | .reset => .init
  | .probe => .init
  | .negPrefix => .init
  | .negCond => .init
  | .ocr => .init
  | .capacity => .init
  | .readStart => .read
  | .readStop => .read
  | .writePrefix => .write
  | .writeErase => .write
  | .writeStart => .write

def WaitSite.family : WaitSite → Family
  | .csd => .init
  | .readStart => .read
  | .wdata => .write
  | .wdone => .write
  | .wstop => .write
  | .widle => .write

/-- The request record and the class that belong to a running request: INIT runs with `cls = UNKNOWN`
(41_init.md R187), READ and WRITE with a usable class, at least one byte and a long enough buffer (R230,
R232, R70). -/
def Family.holdsFor (f : Family) (U : UnitState) (req : Request) : Prop :=
  match f with
  | .init => req = initRequest req.unit ∧ U.cls = .unknown
  | .read => req.op = opRead ∧ U.cls ≠ .unknown ∧ 1 ≤ req.count.toNat ∧ req.count.toNat ≤ U.buf.size
  | .write => req.op = opWrite ∧ U.cls ≠ .unknown ∧ 1 ≤ req.count.toNat ∧ req.count.toNat ≤ U.buf.size

/-- `rem` and `p` in a sector: bytes are left, and done and left make the count (43_transfer.md R233, R243). -/
def Running.sectorOk (run : Running) : Prop :=
  ∃ rem p, run.work.rem = some rem ∧ run.work.p = some p ∧
    1 ≤ rem.toNat ∧ p.toNat + rem.toNat = run.req.count.toNat

/-- `m = min(rem, 512)` (43_transfer.md R235, R245). -/
def Running.shareOk (run : Running) : Prop :=
  ∃ rem, run.work.rem = some rem ∧ run.work.m = some (sectorShare rem)

/-- The working class of a probed card (41_init.md R176, R177). -/
def Running.probed (run : Running) : Prop := run.work.c = some .mmcSdv1 ∨ run.work.c = some .sdv2

/-- The working class is usable. -/
def Running.classed (run : Running) : Prop := ∃ c, run.work.c = some c ∧ c ≠ .unknown

/-- CSD registers below `n` hold values. -/
def Work.csdFilled (w : Work) (n : Nat) : Prop := ∀ k (h : k < 16), k < n → (w.csd[k]).isSome = true

/-- The registers the pseudocode around a call site has written and will read (10_state.md R38). -/
def CallSite.regsOk (cfg : Config) (U : UnitState) (run : Running) (site : CallSite) : Prop :=
  match site with
  | .reset => ∃ j, run.work.j = some j ∧ j.toNat < resetAttempts
  | .probe => True
  | .negPrefix => run.probed ∧ ∃ j, run.work.j = some j ∧ j.toNat < cfg.bSendOp
  | .negCond => run.probed ∧ ∃ j, run.work.j = some j ∧ j.toNat < cfg.bSendOp
  | .ocr => run.work.c = some .sdv2
  | .capacity => run.classed
  | .readStart => run.work.arg = some (cardAddress U.cls run.req.offset)
  | .readStop => True
  | .writePrefix =>
    run.work.arg = some (cardAddress U.cls run.req.offset) ∧ run.work.nsec = some (sectorCount run.req.count)
  | .writeErase =>
    run.work.arg = some (cardAddress U.cls run.req.offset) ∧ run.work.nsec = some (sectorCount run.req.count)
  | .writeStart => run.work.arg = some (cardAddress U.cls run.req.offset)

/-- The position inside `SendCommand`: CMD0 has no pre-command wait and no timeout event (R131, R134), a
poll index is below its bound, and a timed-out status has bit 7 set (R135). -/
def XPos.regsOk (cfg : Config) (run : Running) (cmd : Command) (x : XPos) : Prop :=
  match x with
  | .preWait => cmd ≠ .cmd0 ∧ ∃ i, run.work.i = some i ∧ i.toNat < cfg.bWaitCmd
  | .preTimeout => cmd ≠ .cmd0
  | .frame k => k < 6
  | .resp => ∃ i, run.work.i = some i ∧ i.toNat < cfg.bCmd
  | .respTimeout => cmd ≠ .cmd0 ∧ ∃ b, run.work.b = some b ∧ statusInvalid b = true

/-- The registers around a wait outside `SendCommand`. -/
def WaitSite.regsOk (run : Running) (site : WaitSite) : Prop :=
  match site with
  | .csd => run.classed
  | .readStart => run.sectorOk
  | .wdata => run.sectorOk
  | .wdone => run.sectorOk ∧ run.shareOk
  | .wstop => True
  | .widle => True

/-- Every register the position needs holds a value, and a fitting one (10_state.md R38). -/
def Running.ok (cfg : Config) (U : UnitState) (run : Running) : Prop :=
  match run.pos with
  | .rateSlow => Family.init.holdsFor U run.req
  | .desPower => Family.init.holdsFor U run.req
  | .powerFiller n => Family.init.holdsFor U run.req ∧ n < resetFiller
  | .selReset => Family.init.holdsFor U run.req
  | .desReset => Family.init.holdsFor U run.req ∧ ∃ r, run.work.r = some r
  | .selProbe => Family.init.holdsFor U run.req
  | .echo n => Family.init.holdsFor U run.req ∧ n < trailingBytes
  | .desProbe => Family.init.holdsFor U run.req ∧ run.probed
  | .selNeg => Family.init.holdsFor U run.req ∧ run.probed ∧ ∃ j, run.work.j = some j ∧ j.toNat < cfg.bSendOp
  | .desNeg =>
    Family.init.holdsFor U run.req ∧ run.probed ∧ (∃ r, run.work.r = some r) ∧
      ∃ j, run.work.j = some j ∧ j.toNat < cfg.bSendOp
  | .negTimeout => Family.init.holdsFor U run.req
  | .selOcr => Family.init.holdsFor U run.req ∧ run.work.c = some .sdv2
  | .ocr n =>
    Family.init.holdsFor U run.req ∧ run.work.c = some .sdv2 ∧ n < trailingBytes ∧
      (0 < n → (run.work.t[0]).isSome = true)
  | .desOcr => Family.init.holdsFor U run.req ∧ run.work.c = some .sdv2 ∧ (run.work.t[0]).isSome = true
  | .rateFast => Family.init.holdsFor U run.req ∧ run.classed
  | .selCap => Family.init.holdsFor U run.req ∧ run.classed
  | .csd n => Family.init.holdsFor U run.req ∧ run.classed ∧ n < csdBytes ∧ run.work.csdFilled n
  | .csdSum n => Family.init.holdsFor U run.req ∧ run.classed ∧ n < checksumBytes ∧ run.work.csdFilled csdBytes
  | .desCap => Family.init.holdsFor U run.req ∧ run.classed ∧ run.work.csdFilled csdBytes
  | .selRead => Family.read.holdsFor U run.req ∧ run.work.arg = some (cardAddress U.cls run.req.offset)
  | .readPayload k => Family.read.holdsFor U run.req ∧ run.sectorOk ∧ run.shareOk ∧ k < sectorBytes
  | .readSum n => Family.read.holdsFor U run.req ∧ run.sectorOk ∧ run.shareOk ∧ n < checksumBytes
  | .selWrite =>
    Family.write.holdsFor U run.req ∧ run.work.arg = some (cardAddress U.cls run.req.offset) ∧
      run.work.nsec = some (sectorCount run.req.count)
  | .desSetup => Family.write.holdsFor U run.req
  | .selSector => Family.write.holdsFor U run.req ∧ run.sectorOk
  | .wstartToken => Family.write.holdsFor U run.req ∧ run.sectorOk
  | .writePayload k => Family.write.holdsFor U run.req ∧ run.sectorOk ∧ run.shareOk ∧ k < sectorBytes
  | .writeSum n => Family.write.holdsFor U run.req ∧ run.sectorOk ∧ run.shareOk ∧ n < checksumBytes
  | .dataResp => Family.write.holdsFor U run.req ∧ run.sectorOk ∧ run.shareOk
  | .desSector => Family.write.holdsFor U run.req ∧ run.sectorOk ∧ run.shareOk
  | .selStop => Family.write.holdsFor U run.req
  | .wstopToken => Family.write.holdsFor U run.req
  | .desDone => Family.read.holdsFor U run.req ∨ Family.write.holdsFor U run.req
  | .desFail e => e ≠ .ok ∧ ∃ f : Family, f.holdsFor U run.req ∧ f.allows e = true
  | .call site x =>
    site.family.holdsFor U run.req ∧ site.regsOk cfg U run ∧ x.regsOk cfg run site.command
  | .wait site =>
    site.family.holdsFor U run.req ∧ site.regsOk run ∧
      ∃ i, run.work.i = some i ∧ i.toNat < cfg.bound site.phase
  | .waitTimeout site => site.family.holdsFor U run.req
  | .respond status value =>
    (run.req = initRequest run.req.unit ∧ status = .ok ∧ U.cls ≠ .unknown ∧ value ≠ 0) ∨
      (value = 0 ∧ ∃ f : Family, f.holdsFor U run.req ∧ f.allows status = true ∧
        (f = .init → status ≠ .ok))

/-- A unit's record: its buffer is in canonical form, and a running agent is at a legal position of a
request to this unit. -/
def UnitState.ok (cfg : Config) (u : Nat) (U : UnitState) : Prop :=
  U.buf.wf = true ∧
    ∀ run, U.agent = .running run → run.req.unit.toNat = u ∧ run.ok cfg U

/-- The samples of a DIAG in flight: distinct counters, fewer than nine, none above the counter's present
value (44_host.md R286, 10_state.md R41). -/
def samplesOk (d : Diag) (taken : List (Phase × Word)) : Prop :=
  (taken.map Prod.fst).Nodup ∧ taken.length < 9 ∧ ∀ x ∈ taken, x.2.toNat ≤ (d.get x.1).toNat

/-- The invariant of the state. -/
structure State.Inv (s : State) : Prop where
  config : s.configOk = true
  units : ∀ (u : Nat) (U : UnitState), s.units[u]? = some U → U.ok s.cfg u
  /-- `i < B_x` (10_state.md R41). -/
  counters : ∀ k, (s.diag.get k).toNat < s.cfg.bound k
  portBuf : s.port.buf.wf = true
  queueBufs : ∀ q ∈ s.hostQueue, q.buf.wf = true
  samples : ∀ taken, s.diagRead = some taken → samplesOk s.diag taken

/-! ### The cost still to come (70_reset_and_hazards.md R340, R341) -/

/-- What an exchange and any other primitive count for. With `x = 1, o = 0` a cost is a number of
exchanges (R341); with `x = o = 1` a number of steps (R340). -/
structure Weights where
  x : Nat
  o : Nat
  deriving DecidableEq, Repr

def Prim.cost (w : Weights) (p : Prim) : Nat := if p.isExchange then w.x else w.o

/-- The largest cost of the rest of a `SendCommand` at poll index `i`. -/
def callCost (w : Weights) (cfg : Config) (cmd : Command) (x : XPos) (i : Nat) : Nat :=
  match x with
  | .preWait => (cfg.bWaitCmd - i) * w.x + w.o + 6 * w.x + cfg.bCmd * w.x + w.o
  | .preTimeout => w.o + 6 * w.x + cfg.bCmd * w.x + w.o
  | .frame k => (6 - k) * w.x + cfg.bCmd * w.x + (if cmd = .cmd0 then 0 else w.o)
  | .resp => (cfg.bCmd - i) * w.x + (if cmd = .cmd0 then 0 else w.o)
  | .respTimeout => w.o

/-- The largest cost of a whole `SendCommand` (R341's `SC`). -/
def sendCost (w : Weights) (cfg : Config) (cmd : Command) : Nat :=
  if cmd = .cmd0 then callCost w cfg cmd (.frame 0) 0 else callCost w cfg cmd .preWait 0

/-- From a CSD byte, checksum byte or the last `Deselect` of CAPACITY to the response. -/
def capTailCost (w : Weights) : Nat := 18 * w.x + 2 * w.o
def csdWaitCost (w : Weights) (cfg : Config) (i : Nat) : Nat := (cfg.bCsd - i) * w.x + w.o + capTailCost w
def selCapCost (w : Weights) (cfg : Config) : Nat := w.o + sendCost w cfg .cmd9 + csdWaitCost w cfg 0
def rateFastCost (w : Weights) (cfg : Config) : Nat := w.o + selCapCost w cfg
def desOcrCost (w : Weights) (cfg : Config) : Nat := w.o + rateFastCost w cfg
def selOcrCost (w : Weights) (cfg : Config) : Nat := w.o + sendCost w cfg .cmd58 + 4 * w.x + desOcrCost w cfg
/-- `n` negotiation iterations, then what follows them. -/
def negCost (w : Weights) (cfg : Config) (n : Nat) : Nat :=
  n * (2 * w.o + sendCost w cfg .cmd55 + sendCost w cfg .acmd41) + w.o + selOcrCost w cfg
def desProbeCost (w : Weights) (cfg : Config) : Nat := w.o + negCost w cfg cfg.bSendOp
def selProbeCost (w : Weights) (cfg : Config) : Nat := w.o + sendCost w cfg .cmd8 + 4 * w.x + desProbeCost w cfg
def desResetCost (w : Weights) (cfg : Config) : Nat := w.o + selProbeCost w cfg
def selResetCost (w : Weights) (cfg : Config) : Nat :=
  w.o + resetAttempts * sendCost w cfg .cmd0 + desResetCost w cfg

/-- Sectors left for `rem` bytes (43_transfer.md R232). -/
def sectorsLeft (rem : Nat) : Nat := (rem + (sectorBytes - 1)) / sectorBytes

/-- What follows the last sector of READ, a start-token timeout included. -/
def readTailCost (w : Weights) (cfg : Config) : Nat := w.o + sendCost w cfg .cmd12 + 2 * w.o
def readSectorCost (w : Weights) (cfg : Config) : Nat := (cfg.bRead + 514) * w.x
/-- The cost after the sector in progress, `rem` bytes being left with it. -/
def readAfterSector (w : Weights) (cfg : Config) (rem : Nat) : Nat :=
  (sectorsLeft rem - 1) * readSectorCost w cfg + readTailCost w cfg

def writeStopCost (w : Weights) (cfg : Config) : Nat :=
  (cfg.bWstop + 1 + cfg.bWidle) * w.x + w.o + 2 * w.o
def selStopCost (w : Weights) (cfg : Config) : Nat := w.o + writeStopCost w cfg
def writeSectorCost (w : Weights) (cfg : Config) : Nat := (cfg.bWdata + 516 + cfg.bWdone) * w.x + 2 * w.o
def writeAfterSector (w : Weights) (cfg : Config) (rem : Nat) : Nat :=
  (sectorsLeft rem - 1) * writeSectorCost w cfg + selStopCost w cfg

/-- The largest cost after a `SendCommand` has returned to its call site: `sectors` sectors in the request,
`j` the attempt or iteration count. -/
def CallSite.afterCost (w : Weights) (cfg : Config) (sectors j : Nat) : CallSite → Nat
  | .reset => (resetAttempts - (j + 1)) * sendCost w cfg .cmd0 + desResetCost w cfg
  | .probe => 4 * w.x + desProbeCost w cfg
  | .negPrefix => sendCost w cfg .acmd41 + w.o + negCost w cfg (cfg.bSendOp - (j + 1))
  | .negCond => w.o + negCost w cfg (cfg.bSendOp - (j + 1))
  | .ocr => 4 * w.x + desOcrCost w cfg
  | .capacity => csdWaitCost w cfg 0
  | .readStart => sectors * readSectorCost w cfg + readTailCost w cfg
  | .readStop => 2 * w.o
  | .writePrefix =>
    sendCost w cfg .acmd23 + sendCost w cfg .cmd25 + w.o + sectors * writeSectorCost w cfg + selStopCost w cfg
  | .writeErase => sendCost w cfg .cmd25 + w.o + sectors * writeSectorCost w cfg + selStopCost w cfg
  | .writeStart => w.o + sectors * writeSectorCost w cfg + selStopCost w cfg

/-- The largest cost a running request has still to come (R341). -/
def Running.cost (w : Weights) (cfg : Config) (run : Running) : Nat :=
  let rem := (run.work.rem.getD 0).toNat
  let i := (run.work.i.getD 0).toNat
  let j := (run.work.j.getD 0).toNat
  let sectors := sectorsLeft run.req.count.toNat
  match run.pos with
  | .rateSlow => 2 * w.o + resetFiller * w.x + selResetCost w cfg
  | .desPower => w.o + resetFiller * w.x + selResetCost w cfg
  | .powerFiller n => (resetFiller - n) * w.x + selResetCost w cfg
  | .selReset => selResetCost w cfg
  | .desReset => desResetCost w cfg
  | .selProbe => selProbeCost w cfg
  | .echo n => (trailingBytes - n) * w.x + desProbeCost w cfg
  | .desProbe => desProbeCost w cfg
  | .selNeg => negCost w cfg (cfg.bSendOp - j)
  | .desNeg => w.o + negCost w cfg (cfg.bSendOp - (j + 1))
  | .negTimeout => 2 * w.o
  | .selOcr => selOcrCost w cfg
  | .ocr n => (trailingBytes - n) * w.x + desOcrCost w cfg
  | .desOcr => desOcrCost w cfg
  | .rateFast => rateFastCost w cfg
  | .selCap => selCapCost w cfg
  | .csd n => (csdBytes - n) * w.x + 2 * w.x + 2 * w.o
  | .csdSum n => (checksumBytes - n) * w.x + 2 * w.o
  | .desCap => 2 * w.o
  | .selRead => w.o + sendCost w cfg .cmd18 + sectors * readSectorCost w cfg + readTailCost w cfg
  | .readPayload k => (514 - k) * w.x + readAfterSector w cfg rem
  | .readSum n => (checksumBytes - n) * w.x + readAfterSector w cfg rem
  | .selWrite =>
    2 * w.o + sendCost w cfg .cmd55 + sendCost w cfg .acmd23 + sendCost w cfg .cmd25
      + sectors * writeSectorCost w cfg + selStopCost w cfg
  | .desSetup => w.o + sectors * writeSectorCost w cfg + selStopCost w cfg
  | .selSector => sectorsLeft rem * writeSectorCost w cfg + selStopCost w cfg
  | .wstartToken => (516 + cfg.bWdone) * w.x + w.o + writeAfterSector w cfg rem
  | .writePayload k => (515 - k + cfg.bWdone) * w.x + w.o + writeAfterSector w cfg rem
  | .writeSum n => (3 - n + cfg.bWdone) * w.x + w.o + writeAfterSector w cfg rem
  | .dataResp => (1 + cfg.bWdone) * w.x + w.o + writeAfterSector w cfg rem
  | .desSector => w.o + writeAfterSector w cfg rem
  | .selStop => selStopCost w cfg
  | .wstopToken => (1 + cfg.bWidle) * w.x + w.o + 2 * w.o
  | .desDone => 2 * w.o
  | .desFail _ => 2 * w.o
  | .call site x => callCost w cfg site.command x i + site.afterCost w cfg sectors j
  | .wait .csd => csdWaitCost w cfg i
  | .wait .readStart => (cfg.bRead - i + 514) * w.x + readAfterSector w cfg rem
  | .wait .wdata => (cfg.bWdata - i + 516 + cfg.bWdone) * w.x + w.o + writeAfterSector w cfg rem
  | .wait .wdone => (cfg.bWdone - i) * w.x + w.o + writeAfterSector w cfg rem
  | .wait .wstop => (cfg.bWstop - i + 1 + cfg.bWidle) * w.x + w.o + 2 * w.o
  | .wait .widle => (cfg.bWidle - i) * w.x + w.o + 2 * w.o
  | .waitTimeout _ => w.o + 2 * w.o
  | .respond _ _ => w.o

/-- The cost an agent has still to come: none when IDLE. -/
def Agent.cost (w : Weights) (cfg : Config) : Agent → Nat
  | .idle => 0
  | .running run => run.cost w cfg

/-- The largest number of exchanges of a `SendCommand` (R341's `SC`). -/
def sendExchanges (cfg : Config) : Nat := cfg.bWaitCmd + 6 + cfg.bCmd

/-- R341's bounds on the exchanges of INIT, READ and WRITE. -/
def initExchanges (cfg : Config) : Nat :=
  10 + 4 * (6 + cfg.bCmd) + sendExchanges cfg + 4 + cfg.bSendOp * 2 * sendExchanges cfg + sendExchanges cfg + 4
    + (sendExchanges cfg + cfg.bCsd + 18)
def readExchanges (cfg : Config) (nsec : Nat) : Nat := sendExchanges cfg + nsec * (cfg.bRead + 514) + sendExchanges cfg
def writeExchanges (cfg : Config) (nsec : Nat) : Nat :=
  3 * sendExchanges cfg + nsec * (cfg.bWdata + 516 + cfg.bWdone) + cfg.bWstop + 1 + cfg.bWidle

/-- Whether an event is an exchange of unit `u`. -/
def Event.isExchangeOf (u : Nat) : Event → Bool
  | .x v _ _ => decide (v = u)
  | _ => false

/-! ### Chip-select, as a trace leaves it (60_exceptions.md R302, 70 R338) -/

/-- Unit `u` selected after an event, `sel` before it. -/
def selectAfter (u : Nat) (sel : Bool) : Event → Bool
  | .sel v => if v = u then true else sel
  | .des v => if v = u then false else sel
  | _ => sel

/-- Whether the last `SEL` or `DES` of unit `u` in a trace is a `SEL`. -/
def selectedIn (u : Nat) (trace : List Event) : Bool := trace.foldl (selectAfter u) false

/-- The positions outside a transaction (00_scope.md R16): chip-select is deasserted there. -/
def Pos.deselected : Pos → Bool
  | .rateSlow => true
  | .desPower => true
  | .powerFiller _ => true
  | .selReset => true
  | .selProbe => true
  | .selNeg => true
  | .negTimeout => true
  | .selOcr => true
  | .rateFast => true
  | .selCap => true
  | .selRead => true
  | .selWrite => true
  | .selSector => true
  | .selStop => true
  | .respond _ _ => true
  | _ => false

/-- Whether a unit's agent is inside a transaction. -/
def UnitState.inTransaction (U : UnitState) : Bool :=
  match U.agent with
  | .idle => false
  | .running run => !run.pos.deselected

/-- The trace's chip-select of every unit is what its agent's position says. -/
def State.SelectionMatches (s : State) : Prop :=
  ∀ u U, s.units[u]? = some U → selectedIn u s.trace = U.inTransaction

end Sys2Proof.Machine
end

