-- ==== Sys2Proof/WellFormed.lean ====
section
/-! DEFINITION. Which operations the engine or a host that keeps its duties can produce. -/

namespace Sys2Proof

/-- An argument of CMD18 or CMD25 "is always the scaled value doubled" (43_transfer.md R231), so bit 0
is 0. -/
def cardArgumentOk (arg : Word) : Bool := !arg.getLsbD 0

/-- The sector count of a request: `1 ≤ nsec ≤ 2^23` (43_transfer.md R232). -/
def sectorCountOk (nsec : Word) : Bool := decide (1 ≤ nsec.toNat) && decide (nsec.toNat ≤ 2 ^ 23)

/-- READ and WRITE have `count ≥ 1` (44_host.md R280, R287). -/
def byteCountOk (count : Word) : Bool := count != 0

def Instr.wellFormed : Instr → Bool
  | .cmd0 => true
  | .cmd8 => true
  | .cmd9 => true
  | .cmd12 => true
  | .cmd18 arg => cardArgumentOk arg
  | .cmd25 arg => cardArgumentOk arg
  | .cmd55 => true
  | .cmd58 => true
  | .acmd23 nsec => sectorCountOk nsec
  | .acmd41 _ => true
  | .tokenStart => true
  | .tokenWstart => true
  | .tokenWstop => true
  | .r1Status _ => true
  | .dataRespAccept _ => true
  | .init _ => true
  | .read _ _ count => byteCountOk count
  | .write _ _ count => byteCountOk count
  | .shutdown _ => true
  | .diag => true

end Sys2Proof
end

