-- ==== Sys2Proof/Certificates/Slice0/Obligations.lean ====
section
/-! DEFINITION. The statements about the model. Each formalises rules of spec/, cited in its docstring. -/

open Sys2Proof Sys2Proof.Machine

/-! ### Encodings (30_encoding.md) -/

/-- Decoding what the encoder builds gives the operation back, for every operation and every operand, with any
command indices that tell the frames apart (30_encoding.md R108; log 28). -/
def Obligations.DecodeEncode : Prop :=
  ∀ (t : CommandTable) (i : Instr), t.distinct = true → decode t i.port (encode t i) = .ok i

/-- A word has one meaning: bytes that decode at a place of the wire are exactly the encoding of the operation
they decode to, and belong to its place (R90 to R93, R100, R101). -/
def Obligations.EncodeDecode : Prop :=
  ∀ (t : CommandTable) (p : Port) (bs : List Byte) (i : Instr), p ≠ .host → decode t p bs = .ok i →
    encode t i = bs ∧ i.port = p

/-- The six bytes of a command frame, as numbers: the marker with the configured index, the argument most significant
byte first, the CRC byte (R90, R91). -/
def Obligations.FrameBytes : Prop :=
  ∀ (t : CommandTable) (i : Instr) (c : Command) (arg : Word), i.commandOf = some (c, arg) →
    encode t i =
      [BitVec.ofNat 8 (0x40 + (t.index c).toNat), BitVec.ofNat 8 (arg.toNat / 2 ^ 24),
        BitVec.ofNat 8 (arg.toNat / 2 ^ 16), BitVec.ofNat 8 (arg.toNat / 2 ^ 8), BitVec.ofNat 8 arg.toNat,
        if c = .cmd0 then 0x95 else if c = .cmd8 then 0x87 else 0xFF]

/-- A frame of each of the ten commands at the default indices (30_encoding.md R93, 95_test_vectors.md V1), the
tokens and inbound bytes, written out byte by byte. -/
def Obligations.WordExamples : Prop :=
  decode .standard .frame [0x40, 0, 0, 0, 0, 0x95] = .ok .cmd0 ∧
  decode .standard .frame [0x48, 0, 0, 0x01, 0xAA, 0x87] = .ok .cmd8 ∧
  decode .standard .frame [0x49, 0, 0, 0, 0, 0xFF] = .ok .cmd9 ∧
  decode .standard .frame [0x4C, 0, 0, 0, 0, 0xFF] = .ok .cmd12 ∧
  decode .standard .frame [0x52, 0xFF, 0xFF, 0xFF, 0xFE, 0xFF] = .ok (.cmd18 0xFFFFFFFE) ∧
  decode .standard .frame [0x59, 0, 0, 0x14, 0, 0xFF] = .ok (.cmd25 0x00001400) ∧
  decode .standard .frame [0x77, 0, 0, 0, 0, 0xFF] = .ok .cmd55 ∧
  decode .standard .frame [0x7A, 0, 0, 0, 0, 0xFF] = .ok .cmd58 ∧
  decode .standard .appFrame [0x57, 0, 0x80, 0, 0, 0xFF] = .ok (.acmd23 0x00800000) ∧
  decode .standard .appFrame [0x69, 0x40, 0, 0, 0, 0xFF] = .ok (.acmd41 true) ∧
  decode .standard .appFrame [0x69, 0, 0, 0, 0, 0xFF] = .ok (.acmd41 false) ∧
  decode .standard .txToken [0xFC] = .ok .tokenWstart ∧
  decode .standard .txToken [0xFD] = .ok .tokenWstop ∧
  decode .standard .rxToken [0xFE] = .ok .tokenStart ∧
  decode .standard .rxStatus [0x05] = .ok (.r1Status 0b0000101) ∧
  decode .standard .rxDataResp [0xE5] = .ok (.dataRespAccept 0b111)

/-- The five host operations by `op`, and the reserved codes refused (44_host.md R280). The byte layout of the
record is the model's (log 12). -/
def Obligations.HostRecordDecodes : Prop :=
  ∀ (t : CommandTable) (q : Request),
    decode t .host q.bytes =
      if q.op = 0 then .ok (.init q.unit)
      else if q.op = 1 then .ok (.read q.unit q.offset q.count)
      else if q.op = 2 then .ok (.write q.unit q.offset q.count)
      else if q.op = 3 then .ok (.shutdown q.unit)
      else if q.op = 4 then .ok .diag
      else .error .reservedOp

/-! ### The step -/

/-- A step runs the operation that the bytes at hand decode to, and then chooses the next turn: a host request
that the port can take, the operation a running agent is in, a DIAG in flight. Choosing the turn changes the
turn, the supplied choices and the draw counter only (log 4). -/
def Obligations.StepRunsTheDecodedOperation : Prop :=
  ∀ (s : State) (i : Instr), s.configOk = true →
    (∀ q rest, s.turn = .host → s.hostQueue = q :: rest → s.portFree q.req = true →
      decode s.cfg.commands .host q.req.bytes = .ok i →
      step s = thenReschedule (exec i { s with port := q, hostQueue := rest })) ∧
    (∀ u U run port bytes, s.Moves u U run →
      fetchRunning s.cfg.commands run (U.answer s.draws) = .ok (port, bytes) →
      decode s.cfg.commands port bytes = .ok i → step s = thenReschedule (exec i s)) ∧
    (∀ taken, s.turn = .diag → s.diagRead = some taken → step s = thenReschedule (exec .diag s)) ∧
    (∃ turn choices draws, s.reschedule = { s with turn := turn, choices := choices, draws := draws })

/-- Whatever row the fetched bytes decode to, the step of a unit is its agent's own next primitive (10_state.md
R36). -/
def Obligations.StepIsTheAgentsNextPrimitive : Prop :=
  ∀ (s : State) (u : Nat) (U : UnitState) (run : Running), s.Inv → s.Moves u U run →
    step s = thenReschedule (performRun u U run (U.answer s.draws) s)

/-- A request with a reserved `op`, and a configuration with a zero bound or no unit, get no step (44_host.md
R280, 00_scope.md R9, 93 U6); nor do more than 256 units, or command indices that do not tell the frames apart,
by the model's reading (log 25, log 28). Nor does a request to a busy unit, the one it is running included
(44_host.md R287, 93 U19), or, by the model's reading, a DIAG while one is in flight (log 26). -/
def Obligations.StepRefusals : Prop :=
  ∀ s : State,
    ((∃ k, s.cfg.bound k = 0) ∨ s.units.length = 0 ∨ 256 < s.units.length ∨
      (∃ c d, c ≠ d ∧ Command.isApplication c = d.isApplication ∧ s.cfg.commands.index c = s.cfg.commands.index d) →
      step s = .refused .badConfiguration) ∧
    (∀ q rest, s.configOk = true → s.turn = .host → s.hostQueue = q :: rest → 5 ≤ q.req.op.toNat →
      s.portFree q.req = true → step s = .refused (.undecodable .reservedOp)) ∧
    (∀ q rest, s.configOk = true → s.turn = .host → s.hostQueue = q :: rest →
      (q.req.op ≠ 4 ∧ (∃ V run, s.units[q.req.unit.toNat]? = some V ∧ V.agent = .running run) ∨
        q.req.op = 4 ∧ s.diagRead ≠ none) →
      step s = .refused .requestInFlight)

/-- After reset every class is `UNKNOWN`, every counter 0, every agent `IDLE`, and no event has been emitted
(70_reset_and_hazards.md R330, 10_state.md R47), for every configuration and number of units. -/
def Obligations.ResetState : Prop :=
  ∀ (cfg : Config) (n : Nat),
    (State.resetWith cfg n).units.length = n ∧
    (∀ (u : Nat) (U : UnitState), (State.resetWith cfg n).units[u]? = some U → U.cls = .unknown ∧ U.agent = .idle) ∧
    (∀ k, (State.resetWith cfg n).diag.get k = 0) ∧
    (State.resetWith cfg n).trace = []

/-- No request is performed at reset: the engine waits (70_reset_and_hazards.md R331). -/
def Obligations.ResetWaits : Prop :=
  ∀ (cfg : Config) (n : Nat), cfg.wf = true → 1 ≤ n → n ≤ 256 →
    step (State.resetWith cfg n) = .next (State.resetWith cfg n)

/-- The invariant, and the match of chip-select with the agents' positions, hold after reset. -/
def Obligations.ResetMeetsInv : Prop :=
  ∀ (cfg : Config) (n : Nat), cfg.wf = true → 1 ≤ n → n ≤ 256 →
    (State.resetWith cfg n).Inv ∧ (State.resetWith cfg n).SelectionMatches

/-- Every step keeps the invariant: memory in canonical form, counters below their bounds (10_state.md R41), and
every running agent at a legal position with the registers that position needs (10_state.md R38). -/
def Obligations.StepKeepsInv : Prop :=
  ∀ s t : State, s.Inv → step s = .next t → t.Inv

/-- From a legal state no step faults: no working register is read before it is written (10_state.md R38), no
buffer byte outside the buffer is touched (20_memory.md R72); and a running agent always moves on (70 R340). -/
def Obligations.StepNeverFaults : Prop :=
  ∀ s : State, s.Inv →
    (∀ f, step s ≠ .fault f) ∧
    (∀ u U run, s.Moves u U run → ∃ t, step s = .next t)

/-- Every step keeps chip-select as the agents' positions say: asserted exactly inside a transaction, so
deasserted whenever a response is given (60_exceptions.md R302, 00_scope.md R16). -/
def Obligations.StepKeepsSelectionMatches : Prop :=
  ∀ s t : State, s.SelectionMatches → step s = .next t → t.SelectionMatches

/-! ### Every request ends (70_reset_and_hazards.md R340, R341) -/

/-- Every INIT, READ and WRITE that starts runs to its `Respond`, and emits at most the exchanges of R341 on
the way. -/
def Obligations.EveryRequestEnds : Prop :=
  ∀ (s : State) (unit : BitVec 8) (V : UnitState) (offset count : Word),
    s.Inv → s.units[unit.toNat]? = some V → V.agent = .idle →
    let ends := fun (i : Instr) (bound : Nat) =>
      ∃ n t T evs resp, execTimes i n s = .next t ∧ t.units[unit.toNat]? = some T ∧ T.agent = .idle ∧
        t.trace = s.trace ++ evs ++ [.respond (some unit.toNat) resp] ∧
        (∀ e ∈ evs, ∀ v r, e ≠ .respond v r) ∧ evs.countP (Event.isExchangeOf unit.toNat) ≤ bound
    ends (.init unit) (initExchanges s.cfg) ∧
    (V.cls ≠ .unknown → 1 ≤ count.toNat → count.toNat ≤ s.port.buf.size →
      ends (.read unit offset count) (readExchanges s.cfg ((count.toNat + 511) / 512)) ∧
      ends (.write unit offset count) (writeExchanges s.cfg ((count.toNat + 511) / 512)))

/-! ### Host operations (44_host.md) -/

/-- A unit number out of range: `BadUnit`, and nothing else (R281). A READ or WRITE keeps the host's duties
(R287). -/
def Obligations.BadUnit : Prop :=
  ∀ (s : State) (unit : BitVec 8) (offset count : Word), s.units.length ≤ unit.toNat →
    ∀ i, (i = .init unit ∨ i = .shutdown unit ∨ (1 ≤ count.toNat ∧ count.toNat ≤ s.port.buf.size ∧
        (i = .read unit offset count ∨ i = .write unit offset count))) →
      exec i s = .next { s with
        resp := ⟨.badUnit, .word 0⟩
        trace := s.trace ++ [.respond (some unit.toNat) ⟨.badUnit, .word 0⟩] }

/-- READ and WRITE of a unit whose class is `UNKNOWN`: `NotReady`, and nothing else. With `count = 0` they are
refused (43_transfer.md R230, R232). -/
def Obligations.NotReady : Prop :=
  ∀ (s : State) (unit : BitVec 8) (offset count : Word) (V : UnitState),
    s.units[unit.toNat]? = some V → V.agent = .idle →
    ∀ i ∈ [Instr.read unit offset count, .write unit offset count],
      (V.cls = .unknown → count ≠ 0 → count.toNat ≤ s.port.buf.size → exec i s = .next { s with
        resp := ⟨.notReady, .word 0⟩
        trace := s.trace ++ [.respond (some unit.toNat) ⟨.notReady, .word 0⟩] }) ∧
      (count = 0 → exec i s = .refused .countZero)

/-- What a host that breaks a duty gets: `count = 0` (20_memory.md R78), a buffer shorter than `count` (R70), of
any unit that is not busy, absent or `UNKNOWN` ones too; a second request to a busy unit (44_host.md R287). All
are refused. That a refusal comes before `BadUnit` and `NotReady` is the model's reading (log 11). -/
def Obligations.BrokenDutyIsRefused : Prop :=
  ∀ (s : State) (unit : BitVec 8) (offset count : Word),
    (∀ i ∈ [Instr.read unit offset count, .write unit offset count],
      (∀ V, s.units[unit.toNat]? = some V → V.agent = .idle) →
      (count.toNat = 0 → exec i s = .refused .countZero) ∧
      (1 ≤ count.toNat → s.port.buf.size < count.toNat → exec i s = .refused .bufferTooShort)) ∧
    (∀ V run, s.units[unit.toNat]? = some V → V.agent = .running run → exec (.shutdown unit) s = .refused .requestInFlight ∧
      ∀ i ∈ [Instr.init unit, .read unit offset count, .write unit offset count],
        ¬ run.IsOf i → exec i s = .refused .requestInFlight)

/-- INIT of an idle unit, whatever its class: the class becomes `UNKNOWN` and the first event is the slow
clock, 250 kHz (41_init.md R171, R187). -/
def Obligations.InitStarts : Prop :=
  ∀ (s : State) (unit : BitVec 8) (V : UnitState), s.units[unit.toNat]? = some V → V.agent = .idle →
    exec (.init unit) s = .next { s with
      units := s.units.set unit.toNat
        { V with cls := .unknown, agent := .running ⟨initRequest unit, .desPower, Work.empty⟩ }
      trace := s.trace ++ [.rate unit.toNat 250] }

/-- READ of a usable unit: its argument is computed, the transaction starts, and CMD18's pre-command wait
comes next (43_transfer.md R231, R233). -/
def Obligations.ReadStarts : Prop :=
  ∀ (s : State) (unit : BitVec 8) (offset count : Word) (V : UnitState),
    s.units[unit.toNat]? = some V → V.agent = .idle → V.cls ≠ .unknown → 1 ≤ count.toNat →
    count.toNat ≤ s.port.buf.size →
    exec (.read unit offset count) s = .next { s with
      units := s.units.set unit.toNat { V with
        buf := s.port.buf
        agent := .running ⟨⟨1, unit, offset, count⟩, .call .readStart .preWait, { Work.empty with
          arg := some (BitVec.ofNat 32 (offset.toNat * if V.cls = .sdv2Block then 2 else 1024))
          i := some 0 }⟩ }
      trace := s.trace ++ [.sel unit.toNat] }

/-- WRITE of a usable unit: its argument and its sector count are computed, the transaction starts, and CMD55's
pre-command wait comes next (43_transfer.md R231, R232, R243). -/
def Obligations.WriteStarts : Prop :=
  ∀ (s : State) (unit : BitVec 8) (offset count : Word) (V : UnitState),
    s.units[unit.toNat]? = some V → V.agent = .idle → V.cls ≠ .unknown → 1 ≤ count.toNat →
    count.toNat ≤ s.port.buf.size →
    exec (.write unit offset count) s = .next { s with
      units := s.units.set unit.toNat { V with
        buf := s.port.buf
        agent := .running ⟨⟨2, unit, offset, count⟩, .call .writePrefix .preWait, { Work.empty with
          arg := some (BitVec.ofNat 32 (offset.toNat * if V.cls = .sdv2Block then 2 else 1024))
          nsec := some (BitVec.ofNat 32 ((count.toNat + 511) / 512))
          i := some 0 }⟩ }
      trace := s.trace ++ [.sel unit.toNat] }

/-- The addressing transform, on naturals (43_transfer.md R231). -/
def Obligations.AddressTransform : Prop :=
  ∀ (cls : CardClass) (offset : Word),
    let a := if cls = .sdv2Block then offset.toNat else offset.toNat * 2 ^ 9 % 2 ^ 32
    (cardAddress cls offset).toNat = a * 2 % 2 ^ 32

/-- SHUTDOWN of an idle unit: the class becomes `UNKNOWN`, the response is `(OK, 0)`, nothing else changes; a READ
or WRITE after it that keeps the host's duties ends with `NotReady`. Of a unit number out of range: `BadUnit` (44_host.md R285). -/
def Obligations.Shutdown : Prop :=
  ∀ (s : State) (unit : BitVec 8),
    (s.units.length ≤ unit.toNat → exec (.shutdown unit) s = .next { s with
      resp := ⟨.badUnit, .word 0⟩
      trace := s.trace ++ [.respond (some unit.toNat) ⟨.badUnit, .word 0⟩] }) ∧
    ∀ V, s.units[unit.toNat]? = some V → V.agent = .idle →
      ∃ t, exec (.shutdown unit) s = .next t ∧
        t = { s with
          units := s.units.set unit.toNat { V with cls := .unknown }
          resp := ⟨.ok, .word 0⟩
          trace := s.trace ++ [.respond (some unit.toNat) ⟨.ok, .word 0⟩] } ∧
        ∀ offset count, 1 ≤ count.toNat → count.toNat ≤ s.port.buf.size →
          ∀ i ∈ [Instr.read unit offset count, .write unit offset count], exec i t = .next { t with
            resp := ⟨.notReady, .word 0⟩
            trace := t.trace ++ [.respond (some unit.toNat) ⟨.notReady, .word 0⟩] }

/-- DIAG while no unit runs: the nine counters, unchanged, and nothing else (44_host.md R286). That they come
from one instant then is the model's choice (log 14). -/
def Obligations.DiagQuiet : Prop :=
  ∀ s : State, s.diagRead = none → (∀ U ∈ s.units, UnitState.agent U = .idle) →
    exec .diag s = .next { s with
      resp := ⟨.ok, .counters s.diag⟩
      trace := s.trace ++ [.respond none ⟨.ok, .counters s.diag⟩] }

/-- DIAG while a unit runs reads its first counter in the step that takes it; DIAG in flight reads one counter not
read yet in each step, at its present value; the ninth reading ends it with `(OK, the nine values read)`. No
counter changes (44_host.md R286; one reading a step is the model's, log 14). -/
def Obligations.DiagSamples : Prop :=
  ∀ (s : State) (taken : List (Phase × Word)),
    (s.diagRead = some taken ∨
      s.diagRead = none ∧ taken = [] ∧ ∃ V ∈ s.units, ∃ run, UnitState.agent V = .running run) →
    samplesOk s.diag taken →
    ∃ t k, exec .diag s = .next t ∧ (∀ x ∈ taken, x.1 ≠ k) ∧
      t.diag = s.diag ∧ t.units = s.units ∧ t.cfg = s.cfg ∧ t.port = s.port ∧ t.hostQueue = s.hostQueue ∧
      (taken.length < 8 → t.diagRead = some (taken ++ [(k, s.diag.get k)]) ∧ t.trace = s.trace ∧
        t.resp = s.resp) ∧
      (taken.length = 8 → t.diagRead = none ∧ ∃ d, t.resp = ⟨.ok, .counters d⟩ ∧
        t.trace = s.trace ++ [.respond none ⟨.ok, .counters d⟩] ∧
        d.get k = s.diag.get k ∧ ∀ x ∈ taken, d.get x.1 = x.2)

/-! ### The exchanger (40_exchanger.md) -/

/-- Inside the frame, each call site sends the next byte of the encoding of its own operation
(`CallSite.operation`) and keeps nothing of the byte returned; after the sixth the response poll starts (R132). -/
def Obligations.CommandSendsItsNextByte : Prop :=
  ∀ (i : Instr) (s : State) (u : Nat) (U : UnitState) (run : Running) (site : CallSite) (k : Nat),
    site.operation run.work = some i → s.Moves u U run → run.pos = .call site (.frame k) → k < 6 →
    ∃ out, (encode s.cfg.commands i)[k]? = some out ∧
      exec i s = .next { s with
        units := s.units.set u { U with
          inbound := U.inbound.tail
          agent := .running (if k < 5 then ⟨run.req, .call site (.frame (k + 1)), run.work⟩
            else ⟨run.req, .call site .resp, { run.work with i := some 0 }⟩) }
        trace := s.trace ++ [.x u out (U.answer s.draws)]
        draws := s.draws + 1 }

/-- The whole frame: six exchanges send the six bytes in order, whatever the card returns, and nothing else
changes but the agent's position and poll index (R132). The bytes are spelled for each of the eleven call sites:
its command's index, its argument and its CRC byte (30_encoding.md R90 to R93, R103). -/
def Obligations.FrameIsSentInOrder : Prop :=
  ∀ (i : Instr) (s : State) (u : Nat) (U : UnitState) (run : Running) (site : CallSite),
    site.operation run.work = some i → s.Moves u U run → run.pos = .call site (.frame 0) →
    let byte0 := fun c => BitVec.ofNat 8 (0x40 + (s.cfg.commands.index c).toNat)
    let bytesOf := fun register : Option Word =>
      let v := (register.getD 0).toNat
      [BitVec.ofNat 8 (v / 2 ^ 24), BitVec.ofNat 8 (v / 2 ^ 16), BitVec.ofNat 8 (v / 2 ^ 8), BitVec.ofNat 8 v]
    let sent : List Byte := match site with
      | .reset => [byte0 .cmd0, 0, 0, 0, 0, 0x95]
      | .probe => [byte0 .cmd8, 0, 0, 0x01, 0xAA, 0x87]
      | .negPrefix => [byte0 .cmd55, 0, 0, 0, 0, 0xFF]
      | .negCond => [byte0 .acmd41, if run.work.c = some .sdv2 then 0x40 else 0, 0, 0, 0, 0xFF]
      | .ocr => [byte0 .cmd58, 0, 0, 0, 0, 0xFF]
      | .capacity => [byte0 .cmd9, 0, 0, 0, 0, 0xFF]
      | .readStart => byte0 .cmd18 :: bytesOf run.work.arg ++ [0xFF]
      | .readStop => [byte0 .cmd12, 0, 0, 0, 0, 0xFF]
      | .writePrefix => [byte0 .cmd55, 0, 0, 0, 0, 0xFF]
      | .writeErase => byte0 .acmd23 :: bytesOf run.work.nsec ++ [0xFF]
      | .writeStart => byte0 .cmd25 :: bytesOf run.work.arg ++ [0xFF]
    execTimes i 6 s = .next { s with
      units := s.units.set u { U with
        inbound := U.inbound.drop 6
        agent := .running ⟨run.req, .call site .resp, { run.work with i := some 0 }⟩ }
      trace := s.trace ++ sent.mapIdx fun k out => .x u out (U.answerAt s.draws k)
      draws := s.draws + 6 }

/-- The pre-command wait of the nine commands other than CMD0: a poll that returns `0xFF` raises `WAIT_CMD` and
starts the frame, any other byte is polled again up to the bound, then `TIMEOUT WAIT_CMD` is emitted and the
frame is sent anyway. CMD0 starts with its frame (R131). -/
def Obligations.PreCommandWait : Prop :=
  (∀ w, enterCall .reset w = (.call .reset (.frame 0), w)) ∧
  ∀ (i : Instr) (s : State) (u : Nat) (U : UnitState) (run : Running) (site : CallSite),
    site.operation run.work = some i → site ≠ .reset → s.Moves u U run →
    (∀ w, enterCall site w = (.call site .preWait, { w with i := some 0 })) ∧
    (∀ n, run.pos = .call site .preWait → run.work.i = some n →
      let b := U.answer s.draws
      let goOn := fun (d : Diag) (pos : Pos) (w : Work) => Host.Outcome.next (φ := Fault) (ρ := Refusal) { s with
        units := s.units.set u { U with inbound := U.inbound.tail, agent := .running ⟨run.req, pos, w⟩ }
        diag := d
        trace := s.trace ++ [.x u 0xFF b]
        draws := s.draws + 1 }
      (b = 0xFF → exec i s = goOn (s.diag.raise .waitCmd n) (.call site (.frame 0))
        { run.work with b := some b, ok := some true }) ∧
      (b ≠ 0xFF → n.toNat + 1 < s.cfg.bWaitCmd → exec i s = goOn s.diag (.call site .preWait)
        { run.work with b := some b, i := some (n + 1) }) ∧
      (b ≠ 0xFF → s.cfg.bWaitCmd ≤ n.toNat + 1 → exec i s = goOn s.diag (.call site .preTimeout)
        { run.work with b := some b, ok := some false })) ∧
    (run.pos = .call site .preTimeout → exec i s = .next { s with
      units := s.units.set u { U with agent := .running ⟨run.req, .call site (.frame 0), run.work⟩ }
      trace := s.trace ++ [.timeout u .waitCmd] })

/-- The response poll of a command: the first byte with bit 7 clear is the status and raises `CMD`; any other is
polled again up to the bound; then `r` is the last byte, after `TIMEOUT CMD`, which CMD0 does not emit (R134,
R135). Where the caller goes with a status, valid or not, is `StatusInInit` and `StatusInTransfer`. -/
def Obligations.ResponsePoll : Prop :=
  ∀ (i : Instr) (s : State) (u : Nat) (U : UnitState) (run : Running) (site : CallSite),
    s.Inv → site.operation run.work = some i → s.Moves u U run →
    let b := U.answer s.draws
    let polled := fun (t : State) (run' : Running) =>
      t.units = s.units.set u { U with inbound := U.inbound.tail, agent := .running run' } ∧
      t.trace = s.trace ++ [.x u 0xFF b]
    (∀ n, run.pos = .call site .resp → run.work.i = some n →
      ∃ t run', exec i s = .next t ∧ polled t run' ∧
        (b.toNat < 0x80 → t.diag = s.diag.raise .cmd n ∧ run'.work.r = some b) ∧
        (0x80 ≤ b.toNat → n.toNat + 1 < s.cfg.bCmd →
          t.diag = s.diag ∧ run' = { run with work := { run.work with b := some b, i := some (n + 1) } }) ∧
        (0x80 ≤ b.toNat → s.cfg.bCmd ≤ n.toNat + 1 → t.diag = s.diag ∧
          (site = .reset → run'.work.r = some b) ∧
          (site ≠ .reset → run' = ⟨run.req, .call site .respTimeout,
            { run.work with b := some b, ok := some false }⟩))) ∧
    (∀ last, run.pos = .call site .respTimeout → run.work.b = some last →
      ∃ t run', exec i s = .next t ∧ t.units = s.units.set u { U with agent := .running run' } ∧ t.diag = s.diag ∧
        t.trace = s.trace ++ [.timeout u .cmd] ∧ run'.work.r = some last ∧ 0x80 ≤ last.toNat)

/-- `SendCommand` from its first poll to its status: `p` busy polls and a `0xFF`, six frame bytes, `q` polls with
bit 7 set and a status `r` (R133). -/
def Obligations.SendCommand : Prop :=
  ∀ (i : Instr) (s : State) (u : Nat) (U : UnitState) (run : Running) (site : CallSite)
    (busy polls ignored rest : List Byte) (r : Byte),
    s.Inv → site.operation run.work = some i → s.Moves u U run → run.pos = .call site .preWait →
    run.work.i = some 0 →
    U.inbound = busy ++ [0xFF] ++ ignored ++ polls ++ [r] ++ rest →
    (∀ b ∈ busy, b ≠ 0xFF) → busy.length < s.cfg.bWaitCmd → ignored.length = 6 →
    (∀ b ∈ polls, 0x80 ≤ b.toNat) → polls.length < s.cfg.bCmd → r.toNat < 0x80 →
    ∃ t run', execTimes i (busy.length + 1 + 6 + polls.length + 1) s = .next t ∧
      t.units = s.units.set u { U with inbound := rest, agent := .running run' } ∧
      run'.work.r = some r ∧
      t.diag = (s.diag.raise .waitCmd (BitVec.ofNat 32 busy.length)).raise .cmd (BitVec.ofNat 32 polls.length) ∧
      t.trace = s.trace ++ busy.map (.x u 0xFF) ++ [.x u 0xFF 0xFF] ++
        List.zipWith (.x u) (encode s.cfg.commands i) ignored ++ polls.map (.x u 0xFF) ++ [.x u 0xFF r]

/-! ### What the callers do with a status: R1_STATUS (41_init.md, 42_capacity.md, 43_transfer.md) -/

/-- A status in INIT. Valid: CMD0 is retried until it is exactly `0x01` or four attempts are made (R173); the
probe branches on bit 2 (R176, R177); CMD55's status is not tested (R179); CMD58 and CMD9 need `0x00`, else the
request fails (R182, R210). Timed out, so `last` with bit 7 set (40_exchanger.md R135): CMD0 counts a failed attempt
(R173, R174), the probe still branches on bit 2 alone (R176, 93 N2), CMD55 goes on to ACMD41 and ACMD41 to its
iteration's end, CMD58 and CMD9 fail. -/
def Obligations.StatusInInit : Prop :=
  (∀ (s : State) (u : Nat) (U : UnitState) (run : Running) (flags : BitVec 7) (n : Word),
    s.Moves u U run → run.work.i = some n →
    let w := run.work
    let result := fun (pos : Pos) (w : Work) =>
      exec (.r1Status flags) s = .next (s.statusReceived u U run flags n pos w)
    (∀ j, run.pos = .call .reset .resp → w.j = some j → j.toNat < 4 →
      (flags = 0b0000001 ∨ j.toNat = 3 → result .desReset { w with j := some (j + 1) }) ∧
      (flags ≠ 0b0000001 → j.toNat < 3 →
        result (.call .reset (.frame 0)) { w with j := some (j + 1) })) ∧
    (run.pos = .call .probe .resp →
      (flags.getLsbD 2 = true → result .desProbe { w with c := some .mmcSdv1 }) ∧
      (flags.getLsbD 2 = false → result (.echo 0) w)) ∧
    (run.pos = .call .negPrefix .resp → result (.call .negCond .preWait) { w with i := some 0 }) ∧
    (run.pos = .call .negCond .resp → result .desNeg w) ∧
    (run.pos = .call .ocr .resp →
      (flags = 0 → result (.ocr 0) w) ∧ (flags ≠ 0 → result (.desFail .commandRejected) w)) ∧
    (run.pos = .call .capacity .resp →
      (flags = 0 → result (.wait .csd) { w with i := some 0 }) ∧
      (flags ≠ 0 → result (.desFail .capacityQueryFailed) w))) ∧
  ∀ (s : State) (u : Nat) (U : UnitState) (run : Running) (last : Byte), s.Moves u U run → 0x80 ≤ last.toNat →
    (∀ n j, run.pos = .call .reset .resp → run.work.i = some n → run.work.j = some j → U.answer s.draws = last →
      s.cfg.bCmd ≤ n.toNat + 1 → j.toNat < 4 →
      exec .cmd0 s = .next { s with
        units := s.units.set u { U with
          inbound := U.inbound.tail
          agent := .running ⟨run.req, if j.toNat = 3 then .desReset else .call .reset (.frame 0),
            { run.work with b := some last, ok := some false, r := some last, j := some (j + 1) }⟩ }
        trace := s.trace ++ [.x u 0xFF last]
        draws := s.draws + 1 }) ∧
    (run.work.b = some last →
      let w := { run.work with r := some last }
      let result := fun (i : Instr) (pos : Pos) (w : Work) => exec i s = .next (s.statusTimedOut u U run pos w)
      (run.pos = .call .probe .respTimeout →
        (last.getLsbD 2 = true → result .cmd8 .desProbe { w with c := some .mmcSdv1 }) ∧
        (last.getLsbD 2 = false → result .cmd8 (.echo 0) w)) ∧
      (run.pos = .call .negPrefix .respTimeout → result .cmd55 (.call .negCond .preWait) { w with i := some 0 }) ∧
      (∀ c, run.pos = .call .negCond .respTimeout → w.c = some c →
        result (.acmd41 (decide (c = .sdv2))) .desNeg w) ∧
      (run.pos = .call .ocr .respTimeout → result .cmd58 (.desFail .commandRejected) w) ∧
      (run.pos = .call .capacity .respTimeout → result .cmd9 (.desFail .capacityQueryFailed) w))

/-- A status in READ and WRITE. Valid: CMD18, ACMD23 and CMD25 need `0x00`, else `CommandRejected` (R233, R242);
the statuses of CMD12 and CMD55 are not tested (R237, R242). Timed out, so `last` with bit 7 set (40_exchanger.md
R135): CMD18, ACMD23 and CMD25 are rejected, CMD55 goes on to ACMD23, and READ goes on past CMD12. -/
def Obligations.StatusInTransfer : Prop :=
  (∀ (s : State) (u : Nat) (U : UnitState) (run : Running) (flags : BitVec 7) (n : Word),
    s.Moves u U run → run.work.i = some n →
    let w := run.work
    let result := fun (pos : Pos) (w : Work) =>
      exec (.r1Status flags) s = .next (s.statusReceived u U run flags n pos w)
    (run.pos = .call .readStart .resp →
      (flags = 0 → result (.wait .readStart) { w with rem := some run.req.count, p := some 0, i := some 0 }) ∧
      (flags ≠ 0 → result (.desFail .commandRejected) w)) ∧
    (run.pos = .call .readStop .resp → result .desDone w) ∧
    (run.pos = .call .writePrefix .resp → result (.call .writeErase .preWait) { w with i := some 0 }) ∧
    (run.pos = .call .writeErase .resp →
      (flags = 0 → result (.call .writeStart .preWait) { w with i := some 0 }) ∧
      (flags ≠ 0 → result (.desFail .commandRejected) w)) ∧
    (run.pos = .call .writeStart .resp →
      (flags = 0 → result .desSetup w) ∧ (flags ≠ 0 → result (.desFail .commandRejected) w))) ∧
  ∀ (s : State) (u : Nat) (U : UnitState) (run : Running) (last : Byte), s.Moves u U run → 0x80 ≤ last.toNat →
    run.work.b = some last →
    let w := { run.work with r := some last }
    let result := fun (i : Instr) (pos : Pos) (w : Work) => exec i s = .next (s.statusTimedOut u U run pos w)
    (∀ arg, run.pos = .call .readStart .respTimeout → w.arg = some arg →
      result (.cmd18 arg) (.desFail .commandRejected) w) ∧
    (run.pos = .call .readStop .respTimeout → result .cmd12 .desDone w) ∧
    (run.pos = .call .writePrefix .respTimeout → result .cmd55 (.call .writeErase .preWait) { w with i := some 0 }) ∧
    (∀ nsec, run.pos = .call .writeErase .respTimeout → w.nsec = some nsec →
      result (.acmd23 nsec) (.desFail .commandRejected) w) ∧
    (∀ arg, run.pos = .call .writeStart .respTimeout → w.arg = some arg →
      result (.cmd25 arg) (.desFail .commandRejected) w)

/-! ### Bounded waits outside `SendCommand` (40_exchanger.md R130, 10_state.md R40) -/

/-- TOKEN_START: the poll that returns `0xFE` raises the wait's counter and ends it; before a READ sector,
`m` becomes `min(rem, 512)` (42_capacity.md R210, 43_transfer.md R234, R235). -/
def Obligations.TokenStart : Prop :=
  ∀ (s : State) (u : Nat) (U : UnitState) (run : Running) (n : Word), s.Moves u U run → run.work.i = some n →
    let received := fun (k : Phase) (pos : Pos) (w : Work) => exec .tokenStart s = .next { s with
      units := s.units.set u { U with
        inbound := U.inbound.tail
        agent := .running ⟨run.req, pos, { w with b := some 0xFE, ok := some true }⟩ }
      diag := s.diag.raise k n
      trace := s.trace ++ [.x u 0xFF 0xFE]
      draws := s.draws + 1 }
    (run.pos = .wait .csd → received .csd (.csd 0) run.work) ∧
    (∀ rem, run.pos = .wait .readStart → run.work.rem = some rem →
      received .readStart (.readPayload 0)
        { run.work with m := some (BitVec.ofNat 10 (min rem.toNat 512)) })

/-- A wait that succeeds at poll index `n` emits `n + 1` exchanges of `0xFF`, raises its counter to at least `n`,
and ends: the six waits of INIT, READ and WRITE, each for its byte, `0xFE` or `0xFF`, and with its counter (R130;
10_state.md R40, 30_encoding.md R102). -/
def Obligations.WaitSucceeds : Prop :=
  ∀ (i : Instr) (s : State) (U : UnitState) (run : Running) (site : WaitSite) (polls rest : List Byte) (b : Byte),
    s.Inv → run.IsOf i → s.Runs run.req.unit.toNat U run → run.pos = .wait site → run.work.i = some 0 →
    let wanted : Byte × Phase := match site with
      | .csd => (0xFE, .csd)
      | .readStart => (0xFE, .readStart)
      | .wdata => (0xFF, .wdata)
      | .wdone => (0xFF, .wdone)
      | .wstop => (0xFF, .wstop)
      | .widle => (0xFF, .widle)
    U.inbound = polls ++ [b] ++ rest → (∀ x ∈ polls, x ≠ wanted.1) → b = wanted.1 →
    polls.length < s.cfg.bound wanted.2 →
    ∃ t run', execTimes i (polls.length + 1) s = .next t ∧
      t.units = s.units.set run.req.unit.toNat { U with inbound := rest, agent := .running run' } ∧
      t.diag = s.diag.raise wanted.2 (BitVec.ofNat 32 polls.length) ∧
      t.trace = s.trace ++ (polls ++ [b]).map (.x run.req.unit.toNat 0xFF) ∧
      run'.work.b = some b ∧
      run'.pos = match site with
        | .csd => .csd 0
        | .readStart => .readPayload 0
        | .wdata => .wstartToken
        | .wdone => .desSector
        | .wstop => .wstopToken
        | .widle => .desDone

/-- A wait whose `B` polls all fail emits exactly `B` exchanges, then `TIMEOUT`, then `Deselect`, and the request
ends with the wait's outcome and no further exchange; no counter and no class changes (R130; 60_exceptions.md
R302, R308). -/
def Obligations.WaitTimesOut : Prop :=
  ∀ (i : Instr) (s : State) (U : UnitState) (run : Running) (site : WaitSite) (polls rest : List Byte),
    s.Inv → run.IsOf i → s.Runs run.req.unit.toNat U run → run.pos = .wait site → run.work.i = some 0 →
    let wanted : Byte × Phase := match site with
      | .csd => (0xFE, .csd)
      | .readStart => (0xFE, .readStart)
      | .wdata => (0xFF, .wdata)
      | .wdone => (0xFF, .wdone)
      | .wstop => (0xFF, .wstop)
      | .widle => (0xFF, .widle)
    let outcome : OutcomeCode := match site with
      | .csd => .capacityQueryFailed
      | .readStart => .dataTimeout
      | .wdata => .timingWindowExceeded
      | .wdone => .timingWindowExceeded
      | .wstop => .timingWindowExceeded
      | .widle => .timingWindowExceeded
    U.inbound = polls ++ rest → (∀ x ∈ polls, x ≠ wanted.1) → polls.length = s.cfg.bound wanted.2 →
    let u := run.req.unit.toNat
    execTimes i (polls.length + 3) s = .next { s with
      units := s.units.set u { U with inbound := rest, agent := .idle }
      resp := ⟨outcome, .word 0⟩
      trace := s.trace ++ polls.map (.x u 0xFF) ++
        [.timeout u wanted.2, .des u, .respond (some u) ⟨outcome, .word 0⟩]
      draws := s.draws + polls.length }

/-- A failing phase ends the request: `Deselect`, then `Respond(E, 0)`. The unit is idle, and its class, its buffer
and the counters are as they were (60_exceptions.md R301, R302, R310, R311). -/
def Obligations.FailureEndsTheRequest : Prop :=
  ∀ (i : Instr) (s : State) (U : UnitState) (run : Running) (e : OutcomeCode),
    run.IsOf i → s.Runs run.req.unit.toNat U run → run.pos = .desFail e →
    let u := run.req.unit.toNat
    execTimes i 2 s = .next { s with
      units := s.units.set u { U with agent := .idle }
      resp := ⟨e, .word 0⟩
      trace := s.trace ++ [.des u, .respond (some u) ⟨e, .word 0⟩] }

/-! ### INIT (41_init.md, 42_capacity.md) -/

/-- Power-up: `Deselect`, then exactly ten exchanges of `0xFF` whatever they return, then the reset phase
(R172). -/
def Obligations.PowerUpClocks : Prop :=
  ∀ (s : State) (U : UnitState) (run : Running), run.IsOf (.init run.req.unit) →
    s.Runs run.req.unit.toNat U run → run.pos = .desPower →
    let u := run.req.unit.toNat
    execTimes (.init run.req.unit) 11 s = .next { s with
      units := s.units.set u { U with
        inbound := U.inbound.drop 10, agent := .running ⟨run.req, .selReset, run.work⟩ }
      trace := s.trace ++ [.des u] ++ (List.range 10).map fun k => .x u 0xFF (U.answerAt s.draws k)
      draws := s.draws + 10 }

/-- INIT outside `SendCommand`, but for its start, the CSD block and the commit: the `Select` of each transaction
and the call it enters (R173, R175, R179, R182, R210), the trailing bytes kept in order (R177, R182), the
decisions after the reset attempts (R173, R174), after the echo (R177), after each negotiation iteration (R180,
R184), after the OCR (R183), and the fast clock (R185). -/
def Obligations.InitDecisions : Prop :=
  ∀ (s : State) (U : UnitState) (run : Running), run.IsOf (.init run.req.unit) →
    s.Runs run.req.unit.toNat U run →
    let u := run.req.unit.toNat
    let w := run.work
    let does := fun (e : Event) (d : Diag) (pos : Pos) (w : Work) => exec (.init run.req.unit) s = .next { s with
      units := s.units.set u { U with agent := .running ⟨run.req, pos, w⟩ }
      diag := d
      trace := s.trace ++ [e] }
    let receives := fun (pos : Pos) (w : Work) => exec (.init run.req.unit) s = .next { s with
      units := s.units.set u { U with inbound := U.inbound.tail, agent := .running ⟨run.req, pos, w⟩ }
      trace := s.trace ++ [.x u 0xFF (U.answer s.draws)]
      draws := s.draws + 1 }
    (run.pos = .selReset → does (.sel u) s.diag (.call .reset (.frame 0)) { w with j := some 0 }) ∧
    (run.pos = .selProbe → does (.sel u) s.diag (.call .probe .preWait) { w with i := some 0 }) ∧
    (run.pos = .selNeg → does (.sel u) s.diag (.call .negPrefix .preWait) { w with i := some 0 }) ∧
    (run.pos = .selOcr → does (.sel u) s.diag (.call .ocr .preWait) { w with i := some 0 }) ∧
    (run.pos = .selCap → does (.sel u) s.diag (.call .capacity .preWait) { w with i := some 0 }) ∧
    (∀ n (h : n < 3), run.pos = .echo n →
      receives (.echo (n + 1)) { w with t := w.t.set n (some (U.answer s.draws)) }) ∧
    (∀ n (h : n < 4), run.pos = .ocr n →
      receives (if n < 3 then .ocr (n + 1) else .desOcr) { w with t := w.t.set n (some (U.answer s.draws)) }) ∧
    (∀ r, run.pos = .desReset → w.r = some r →
      (r = 0x01 → does (.des u) s.diag .selProbe w) ∧
      (r ≠ 0x01 → does (.des u) s.diag (.respond .noCardPresent 0) w)) ∧
    (run.pos = .echo 3 →
      let b := U.answer s.draws
      let w' := { w with t := w.t.set 3 (some b) }
      (b = 0xAA → receives .desProbe { w' with c := some .sdv2 }) ∧
      (b ≠ 0xAA → receives (.desFail .unsupportedCard) w')) ∧
    (run.pos = .desProbe → does (.des u) s.diag .selNeg { w with j := some 0 }) ∧
    (∀ r j c, run.pos = .desNeg → w.r = some r → w.j = some j → w.c = some c →
      (r.getLsbD 0 = false → c = .sdv2 → does (.des u) (s.diag.raise .sendOp j) .selOcr w) ∧
      (r.getLsbD 0 = false → c ≠ .sdv2 → does (.des u) (s.diag.raise .sendOp j) .rateFast w) ∧
      (r.getLsbD 0 = true → j.toNat + 1 < s.cfg.bSendOp →
        does (.des u) s.diag .selNeg { w with j := some (j + 1) }) ∧
      (r.getLsbD 0 = true → s.cfg.bSendOp ≤ j.toNat + 1 → does (.des u) s.diag .negTimeout w)) ∧
    (run.pos = .negTimeout → does (.timeout u .sendOp) s.diag (.respond .negotiationTimeout 0) w) ∧
    (∀ t0, run.pos = .desOcr → w.t[0] = some t0 →
      (0xC0 ≤ t0.toNat → does (.des u) s.diag .rateFast { w with c := some .sdv2Block }) ∧
      (t0.toNat < 0xC0 → does (.des u) s.diag .rateFast w)) ∧
    (run.pos = .rateFast → does (.rate u s.cfg.fastKhz) s.diag .selCap w)

/-- The CSD block: eighteen exchanges of `0xFF`; byte `k` is kept as `csd[k]`, the two checksum bytes nowhere
(42_capacity.md R211). -/
def Obligations.CsdIsRead : Prop :=
  ∀ (s : State) (U : UnitState) (run : Running) (csd sums rest : List Byte), run.IsOf (.init run.req.unit) →
    s.Runs run.req.unit.toNat U run → run.pos = .csd 0 →
    U.inbound = csd ++ sums ++ rest → csd.length = 16 → sums.length = 2 →
    let u := run.req.unit.toNat
    ∃ kept : Vector (Option Byte) 16, (∀ (k : Nat) (h : k < 16), kept[k] = csd[k]?) ∧
      execTimes (.init run.req.unit) 18 s = .next { s with
        units := s.units.set u { U with
          inbound := rest, agent := .running ⟨run.req, .desCap, { run.work with csd := kept }⟩ }
        trace := s.trace ++ (csd ++ sums).map (.x u 0xFF)
        draws := s.draws + 18 }

/-- The commit of INIT: with the sixteen CSD bytes read, a decoded count of 0 fails with `CapacityQueryFailed`
and leaves the class `UNKNOWN`, any other count `n` writes the class and responds `(OK, n)` (41_init.md R186,
42_capacity.md R217). The drawn count of R215 is the free value at the present draw (log 3). -/
def Obligations.InitCommit : Prop :=
  ∀ (s : State) (U : UnitState) (run : Running) (csd : Vector Byte 16) (c : CardClass),
    run.IsOf (.init run.req.unit) → s.Runs run.req.unit.toNat U run → run.pos = .desCap →
    (∀ (k : Nat) (h : k < 16), run.work.csd[k] = some csd[k]) → run.work.c = some c →
    let u := run.req.unit.toNat
    let n := decodeCsd csd (Config.freeSectors s.draws)
    (n = 0 → execTimes (.init run.req.unit) 2 s = .next { s with
      units := s.units.set u { U with agent := .idle }
      resp := ⟨.capacityQueryFailed, .word 0⟩
      trace := s.trace ++ [.des u, .respond (some u) ⟨.capacityQueryFailed, .word 0⟩] }) ∧
    (n ≠ 0 → execTimes (.init run.req.unit) 2 s = .next { s with
      units := s.units.set u { U with cls := c, agent := .idle }
      resp := ⟨.ok, .word n⟩
      trace := s.trace ++ [.des u, .respond (some u) ⟨.ok, .word n⟩] })

/-- The capacity decoder on naturals: the layout by the top two bits of byte 0, layout A, layout B with its
exponent and multiplier, the halving and the ranges (42_capacity.md R212 to R214, R216). Below exponent 9 the
drawn value is the count, not halved: the model's reading, after 93 U1 (log 3). -/
def Obligations.DecodeCsd : Prop :=
  ∀ (csd : Vector Byte 16) (free : Word),
    let b := fun (k : Fin 16) => csd[k].toNat
    let e := b 5 % 16 + b 10 / 128 + b 9 % 4 * 2 + 2
    let mult := b 8 / 64 + b 7 * 4 + b 6 % 4 * 1024 + 1
    let n := (decodeCsd csd free).toNat
    (b 0 / 64 = 1 → n = (b 9 + b 8 * 256 + 1) * 1024 / 2 ∧ 512 ≤ n ∧ n ≤ 2 ^ 25) ∧
    (b 0 / 64 = 0 → 9 ≤ e → n = mult * 2 ^ (e - 9) / 2 ∧ n ≤ 2 ^ 26) ∧
    (b 0 / 64 = 0 → e < 9 → n = free.toNat) ∧
    (2 ≤ b 0 / 64 → n = 0)

/-- INIT of a prompt SDHC card, from its first line to its response: whatever the card returns where its answer is
not tested, 84 exchanges lead to `(OK, n)`, `n` the decoded count, and class `SDV2_BLOCK` (41_init.md R170;
95_test_vectors.md V4 row 1). -/
def Obligations.InitOfPromptSdhcCard : Prop :=
  ∀ (s : State) (unit : BitVec 8) (V : UnitState) (fill f0 f8 f55 f41 f58 f9 csd rest : List Byte)
    (r8 t0 t1 t2 s55 s41 o0 o1 o2 o3 k0 k1 : Byte),
    s.Inv → s.units[unit.toNat]? = some V → V.agent = .idle →
    V.inbound = fill ++ f0 ++ [0x01] ++ [0xFF] ++ f8 ++ [r8, t0, t1, t2, 0xAA] ++ [0xFF] ++ f55 ++ [s55] ++
      [0xFF] ++ f41 ++ [s41] ++ [0xFF] ++ f58 ++ [0x00, o0, o1, o2, o3] ++ [0xFF] ++ f9 ++ [0x00, 0xFE] ++
      csd ++ [k0, k1] ++ rest →
    fill.length = 10 → f0.length = 6 → f8.length = 6 → f55.length = 6 → f41.length = 6 → f58.length = 6 →
    f9.length = 6 → csd.length = 16 →
    r8.toNat < 0x80 → r8.getLsbD 2 = false → s55.toNat < 0x80 → s41.toNat < 0x80 → s41.getLsbD 0 = false →
    0xC0 ≤ o0.toNat → (csd.getD 0 0).toNat / 64 = 1 →
    ∃ t T n evs, execTimes (.init unit) 98 s = .next t ∧ t.units[unit.toNat]? = some T ∧
      T.cls = .sdv2Block ∧ T.agent = .idle ∧ T.inbound = rest ∧ t.resp = ⟨.ok, .word n⟩ ∧
      n.toNat = ((csd.getD 9 0).toNat + (csd.getD 8 0).toNat * 256 + 1) * 512 ∧
      t.trace = s.trace ++ evs ++ [.respond (some unit.toNat) ⟨.ok, .word n⟩] ∧
      evs.countP (Event.isExchangeOf unit.toNat) = 84

/-- INIT reads nothing of the engine's own state: two INITs of idle units of two states that meet the same bytes,
whatever the class, the counters, the buffer and everything else were before, emit the same events and leave the
same class (41_init.md R188). -/
def Obligations.InitIsAFunctionOfTheBytes : Prop :=
  ∀ (n : Nat) (s s' t t' : State) (unit : BitVec 8) (V V' : UnitState),
    s.Inv → s'.Inv → s.cfg = s'.cfg → s.draws = s'.draws →
    s.units[unit.toNat]? = some V → s'.units[unit.toNat]? = some V' → V.agent = .idle → V'.agent = .idle →
    V.inbound = V'.inbound →
    execTimes (.init unit) (n + 1) s = .next t → execTimes (.init unit) (n + 1) s' = .next t' →
    ∃ evs T T', t.trace = s.trace ++ evs ∧ t'.trace = s'.trace ++ evs ∧
      t.units[unit.toNat]? = some T ∧ t'.units[unit.toNat]? = some T' ∧
      T.cls = T'.cls ∧ T.agent = T'.agent ∧ T.inbound = T'.inbound

/-! ### READ and WRITE (43_transfer.md) -/

/-- One sector of READ, from the exchange after its start token to the one after its checksum: 514 exchanges of
`0xFF`; the first `m = min(rem, 512)` payload bytes are buffer bytes `p .. p + m - 1` and no other byte changes;
then the next sector's wait with `rem - 512` and `p + m`, or CMD12 (R233, R235, R236). -/
def Obligations.ReadSector : Prop :=
  ∀ (s : State) (unit : BitVec 8) (offset count : Word) (U : UnitState) (run : Running)
    (payload sums rest : List Byte) (rem p : Word),
    s.Inv → run.IsOf (.read unit offset count) → s.Runs unit.toNat U run → run.pos = .readPayload 0 →
    run.work.rem = some rem → run.work.p = some p →
    U.inbound = payload ++ sums ++ rest → payload.length = 512 → sums.length = 2 →
    let m := min rem.toNat 512
    ∃ t T run', execTimes (.read unit offset count) 514 s = .next t ∧ t.units = s.units.set unit.toNat T ∧
      T.agent = .running run' ∧ T.cls = U.cls ∧ T.inbound = rest ∧ t.diag = s.diag ∧
      t.trace = s.trace ++ (payload ++ sums).map (.x unit.toNat 0xFF) ∧
      T.buf.size = U.buf.size ∧
      (∀ k, k < m → T.buf.load (p.toNat + k) = payload[k]?) ∧
      (∀ a, a < p.toNat ∨ p.toNat + m ≤ a → T.buf.load a = U.buf.load a) ∧
      run'.work.p = some (BitVec.ofNat 32 (p.toNat + m)) ∧
      (512 < rem.toNat → run'.pos = .wait .readStart ∧ run'.work.i = some 0 ∧
        run'.work.rem = some (BitVec.ofNat 32 (rem.toNat - 512))) ∧
      (rem.toNat ≤ 512 → run'.pos = .call .readStop .preWait ∧ run'.work.i = some 0)

/-- TOKEN_WSTART: the engine sends `0xFC`, and `m` becomes `min(rem, 512)` (R245). -/
def Obligations.TokenWstart : Prop :=
  ∀ (s : State) (u : Nat) (U : UnitState) (run : Running) (rem : Word), s.Moves u U run →
    run.pos = .wstartToken → run.work.rem = some rem →
    exec .tokenWstart s = .next { s with
      units := s.units.set u { U with
        inbound := U.inbound.tail
        agent := .running ⟨run.req, .writePayload 0,
          { run.work with m := some (BitVec.ofNat 10 (min rem.toNat 512)) }⟩ }
      trace := s.trace ++ [.x u 0xFC (U.answer s.draws)]
      draws := s.draws + 1 }

/-- One sector of WRITE, from the exchange after its start token to its checksum: buffer bytes `p .. p + m - 1` in
order, `512 - m` bytes `0xFF`, two bytes `0xFF`, whatever the card returns; the data-response comes next. The
buffer is only read (R245, R246). -/
def Obligations.WriteSector : Prop :=
  ∀ (s : State) (unit : BitVec 8) (offset count : Word) (U : UnitState) (run : Running) (rem p : Word),
    s.Inv → run.IsOf (.write unit offset count) → s.Runs unit.toNat U run → run.pos = .writePayload 0 →
    run.work.rem = some rem → run.work.p = some p →
    let m := min rem.toNat 512
    ∃ data : List Byte, data.length = 514 ∧
      (∀ k, k < m → data[k]? = U.buf.load (p.toNat + k)) ∧
      (∀ k, m ≤ k → k < 514 → data[k]? = some 0xFF) ∧
      execTimes (.write unit offset count) 514 s = .next { s with
        units := s.units.set unit.toNat { U with
          inbound := U.inbound.drop 514, agent := .running ⟨run.req, .dataResp, run.work⟩ }
        trace := s.trace ++ data.mapIdx fun k out => .x unit.toNat out (U.answerAt s.draws k)
        draws := s.draws + 514 }

/-- DATA_RESP_ACCEPT: an accepted data-response, bits 7..5 whatever they are, leads to the completion wait
(R246, R247). -/
def Obligations.DataRespAccept : Prop :=
  ∀ (s : State) (u : Nat) (U : UnitState) (run : Running) (ignored : BitVec 3), s.Moves u U run →
    run.pos = .dataResp →
    exec (.dataRespAccept ignored) s = .next { s with
      units := s.units.set u { U with
        inbound := U.inbound.tail
        agent := .running ⟨run.req, .wait .wdone,
          { run.work with d := some (ignored ++ 0b00101#5), i := some 0 }⟩ }
      trace := s.trace ++ [.x u 0xFF (ignored ++ 0b00101#5)]
      draws := s.draws + 1 }

/-- A data-response whose low five bits are not `0b00101` is a rejection: `Deselect`, then `DataRejected`, with no
retry (R246). -/
def Obligations.DataRejected : Prop :=
  ∀ (s : State) (unit : BitVec 8) (offset count : Word) (U : UnitState) (run : Running),
    run.IsOf (.write unit offset count) → s.Runs unit.toNat U run → run.pos = .dataResp →
    (U.answer s.draws).toNat % 32 ≠ 5 →
    execTimes (.write unit offset count) 3 s = .next { s with
      units := s.units.set unit.toNat { U with inbound := U.inbound.tail, agent := .idle }
      resp := ⟨.dataRejected, .word 0⟩
      trace := s.trace ++ [.x unit.toNat 0xFF (U.answer s.draws), .des unit.toNat,
        .respond (some unit.toNat) ⟨.dataRejected, .word 0⟩]
      draws := s.draws + 1 }

/-- Before the first WRITE sector: `Deselect`, `rem` the count and `p` 0, then `Select` and the data-wait (R242,
R243, R244). Between sectors: `Deselect`, `p + m`; then `Select` and the data-wait of the next sector with
`rem - 512`, or `Select` and the wait before the stop token (R243, R244, R248, R249). -/
def Obligations.WriteNextSector : Prop :=
  ∀ (s : State) (unit : BitVec 8) (offset count : Word) (U : UnitState) (run : Running),
    s.Inv → run.IsOf (.write unit offset count) → s.Runs unit.toNat U run →
    let goOn := fun (site : WaitSite) (w : Work) => execTimes (.write unit offset count) 2 s = .next { s with
      units := s.units.set unit.toNat { U with
        agent := .running ⟨run.req, .wait site, { w with i := some 0 }⟩ }
      trace := s.trace ++ [.des unit.toNat, .sel unit.toNat] }
    (run.pos = .desSetup → goOn .wdata { run.work with rem := some count, p := some 0 }) ∧
    ∀ rem p, run.pos = .desSector → run.work.rem = some rem → run.work.p = some p →
      let w := { run.work with p := some (BitVec.ofNat 32 (p.toNat + min rem.toNat 512)) }
      (512 < rem.toNat → goOn .wdata { w with rem := some (BitVec.ofNat 32 (rem.toNat - 512)) }) ∧
      (rem.toNat ≤ 512 → goOn .wstop w)

/-- TOKEN_WSTOP: the engine sends `0xFD`, and the idle wait starts (R249). -/
def Obligations.TokenWstop : Prop :=
  ∀ (s : State) (u : Nat) (U : UnitState) (run : Running), s.Moves u U run → run.pos = .wstopToken →
    exec .tokenWstop s = .next { s with
      units := s.units.set u { U with
        inbound := U.inbound.tail
        agent := .running ⟨run.req, .wait .widle, { run.work with i := some 0 }⟩ }
      trace := s.trace ++ [.x u 0xFD (U.answer s.draws)]
      draws := s.draws + 1 }

/-- A transfer that has run to its end: `Deselect`, then `Respond(OK, 0)` (R237, R249). -/
def Obligations.TransferCompletes : Prop :=
  ∀ (i : Instr) (s : State) (U : UnitState) (run : Running), run.IsOf i → s.Runs run.req.unit.toNat U run →
    run.pos = .desDone →
    let u := run.req.unit.toNat
    execTimes i 2 s = .next { s with
      units := s.units.set u { U with agent := .idle }
      resp := ⟨.ok, .word 0⟩
      trace := s.trace ++ [.des u, .respond (some u) ⟨.ok, .word 0⟩] }

/-! ### Frames -/

/-- A step of one of the ten commands, or of R1_STATUS: only the agent of the unit that moves, `diag[WAIT_CMD]`
and `diag[CMD]`, and one event, an exchange or a `TIMEOUT` of that unit; no `SEL`, `DES`, `RATE` or response, no
class and no buffer byte; of the working registers none but `r`, `b`, `i`, `ok` and those the caller assigns from
the status, `j`, `c`, `rem`, `p` (40_exchanger.md R133, R136). -/
def Obligations.CommandFrame : Prop :=
  ∀ (i : Instr) (s t : State), (i.commandOf.isSome = true ∨ ∃ flags, i = .r1Status flags) →
    exec i s = .next t →
    ∃ u U run T run' e, s.Moves u U run ∧ t.units = s.units.set u T ∧
      T.cls = U.cls ∧ T.buf = U.buf ∧ T.agent = .running run' ∧ run'.req = run.req ∧
      run'.work.t = run.work.t ∧ run'.work.csd = run.work.csd ∧ run'.work.arg = run.work.arg ∧
      run'.work.nsec = run.work.nsec ∧ run'.work.m = run.work.m ∧ run'.work.d = run.work.d ∧
      (∀ k, k ≠ .waitCmd → k ≠ .cmd → t.diag.get k = s.diag.get k) ∧
      t.trace = s.trace ++ [e] ∧
      ((∃ out inn, e = .x u out inn) ∨ e = .timeout u .waitCmd ∨ e = .timeout u .cmd) ∧
      t.cfg = s.cfg ∧ t.port = s.port ∧ t.resp = s.resp ∧ t.hostQueue = s.hostQueue ∧
      t.diagRead = s.diagRead ∧ t.turn = s.turn ∧ t.choices = s.choices

/-- A step of a token or of DATA_RESP_ACCEPT: only the agent of the unit that moves, the counter of a start-token
wait that ended, and one exchange; no class, no buffer byte, no response; of the working registers none but `b`,
`i`, `ok`, `m`, `d`. -/
def Obligations.TokenFrame : Prop :=
  ∀ (i : Instr) (s t : State),
    (i = .tokenStart ∨ i = .tokenWstart ∨ i = .tokenWstop ∨ ∃ x, i = .dataRespAccept x) →
    exec i s = .next t →
    ∃ u U run T run' out inn, s.Moves u U run ∧ t.units = s.units.set u T ∧
      T.cls = U.cls ∧ T.buf = U.buf ∧ T.inbound = U.inbound.tail ∧ T.agent = .running run' ∧
      run'.req = run.req ∧ run'.work.r = run.work.r ∧ run'.work.j = run.work.j ∧ run'.work.c = run.work.c ∧
      run'.work.t = run.work.t ∧ run'.work.csd = run.work.csd ∧ run'.work.arg = run.work.arg ∧
      run'.work.nsec = run.work.nsec ∧ run'.work.rem = run.work.rem ∧ run'.work.p = run.work.p ∧
      (∀ k, t.diag.get k = s.diag.get k ∨ i = .tokenStart ∧ run.pos = .wait .csd ∧ k = .csd ∨
        i = .tokenStart ∧ run.pos = .wait .readStart ∧ k = .readStart) ∧
      t.trace = s.trace ++ [.x u out inn] ∧
      t.cfg = s.cfg ∧ t.port = s.port ∧ t.resp = s.resp ∧ t.hostQueue = s.hostQueue ∧
      t.diagRead = s.diagRead ∧ t.turn = s.turn ∧ t.choices = s.choices

/-- A step of INIT: only the unit's own record, and of it not the buffer; only `diag[WAIT_CMD]`, `diag[CMD]`,
`diag[SEND_OP]`, `diag[CSD]`; one event (44_host.md R282). -/
def Obligations.InitFrame : Prop :=
  ∀ (s t : State) (unit : BitVec 8), s.Inv → exec (.init unit) s = .next t →
    (∀ v, v ≠ unit.toNat → t.units[v]? = s.units[v]?) ∧ t.units.length = s.units.length ∧
    (∀ U T, s.units[unit.toNat]? = some U → t.units[unit.toNat]? = some T → T.buf = U.buf) ∧
    (∀ k, k ∉ [Phase.waitCmd, .cmd, .sendOp, .csd] → t.diag.get k = s.diag.get k) ∧
    (∃ e, t.trace = s.trace ++ [e] ∧ ((∀ v r, e ≠ .respond v r) → t.resp = s.resp)) ∧
    t.cfg = s.cfg ∧ t.port = s.port ∧ t.hostQueue = s.hostQueue ∧ t.diagRead = s.diagRead ∧ t.turn = s.turn ∧
    t.choices = s.choices

/-- A step of READ: only the unit's own record, and of it not the class; only `diag[WAIT_CMD]`, `diag[CMD]`,
`diag[READ_START]`; a payload exchange with `k < m` stores to buffer byte `p + k` alone, every other step of a
running READ stores nothing, and a READ that starts takes the request's buffer as it is (44_host.md R283,
20_memory.md R72, R79). -/
def Obligations.ReadFrame : Prop :=
  ∀ (s t : State) (unit : BitVec 8) (offset count : Word), s.Inv → exec (.read unit offset count) s = .next t →
    (∀ v, v ≠ unit.toNat → t.units[v]? = s.units[v]?) ∧ t.units.length = s.units.length ∧
    (∀ U T, s.units[unit.toNat]? = some U → t.units[unit.toNat]? = some T →
      T.cls = U.cls ∧
      (U.agent = .idle → T.buf = U.buf ∨ T.buf = s.port.buf) ∧
      ∀ run, U.agent = .running run →
        (∀ k p m, run.pos = .readPayload k → run.work.p = some p → run.work.m = some m → k < m.toNat →
          T.buf.size = U.buf.size ∧ ∀ a, a ≠ p.toNat + k → T.buf.load a = U.buf.load a) ∧
        ((∀ k p m, run.pos = .readPayload k → run.work.p = some p → run.work.m = some m → m.toNat ≤ k) →
          T.buf = U.buf)) ∧
    (∀ k, k ∉ [Phase.waitCmd, .cmd, .readStart] → t.diag.get k = s.diag.get k) ∧
    (∃ e, t.trace = s.trace ++ [e] ∧ ((∀ v r, e ≠ .respond v r) → t.resp = s.resp)) ∧
    t.cfg = s.cfg ∧ t.port = s.port ∧ t.hostQueue = s.hostQueue ∧ t.diagRead = s.diagRead ∧ t.turn = s.turn ∧
    t.choices = s.choices

/-- A step of WRITE: only the unit's own record, and of it neither the class nor, once running, the buffer; only
the six counters of its waits; one event (44_host.md R284). -/
def Obligations.WriteFrame : Prop :=
  ∀ (s t : State) (unit : BitVec 8) (offset count : Word), s.Inv → exec (.write unit offset count) s = .next t →
    (∀ v, v ≠ unit.toNat → t.units[v]? = s.units[v]?) ∧ t.units.length = s.units.length ∧
    (∀ U T, s.units[unit.toNat]? = some U → t.units[unit.toNat]? = some T →
      T.cls = U.cls ∧
      (U.agent = .idle → T.buf = U.buf ∨ T.buf = s.port.buf) ∧
      (∀ run, U.agent = .running run → T.buf = U.buf)) ∧
    (∀ k, k ∉ [Phase.waitCmd, .cmd, .wdata, .wdone, .wstop, .widle] → t.diag.get k = s.diag.get k) ∧
    (∃ e, t.trace = s.trace ++ [e] ∧ ((∀ v r, e ≠ .respond v r) → t.resp = s.resp)) ∧
    t.cfg = s.cfg ∧ t.port = s.port ∧ t.hostQueue = s.hostQueue ∧ t.diagRead = s.diagRead ∧ t.turn = s.turn ∧
    t.choices = s.choices

/-- A step of SHUTDOWN or DIAG: no agent, no buffer, no counter, no transport event; SHUTDOWN changes no class but
the unit's, DIAG none (44_host.md R285, R286; 60_exceptions.md R317). -/
def Obligations.ShutdownDiagFrame : Prop :=
  ∀ (s t : State) (i : Instr), (i = .diag ∨ ∃ unit, i = .shutdown unit) → exec i s = .next t →
    t.diag = s.diag ∧ t.cfg = s.cfg ∧ t.port = s.port ∧ t.hostQueue = s.hostQueue ∧ t.turn = s.turn ∧
    t.units.length = s.units.length ∧
    (∀ v U T, s.units[v]? = some U → t.units[v]? = some T →
      T.agent = U.agent ∧ T.buf = U.buf ∧ T.inbound = U.inbound ∧
      ((∀ unit : BitVec 8, i = .shutdown unit → v ≠ unit.toNat) → T.cls = U.cls)) ∧
    (t.trace = s.trace ∨ ∃ v r, t.trace = s.trace ++ [.respond v r])

/-! ### Whole-machine rules -/

/-- A unit's class changes only in a step of an INIT or a SHUTDOWN of that unit; so never in a READ or WRITE
(10_state.md R32). -/
def Obligations.ClassChangesOnlyInInitOrShutdown : Prop :=
  ∀ (s t : State) (u : Nat) (U T : UnitState), s.Inv → step s = .next t →
    s.units[u]? = some U → t.units[u]? = some T → T.cls ≠ U.cls →
    (∃ q rest, s.turn = .host ∧ s.hostQueue = q :: rest ∧ q.req.unit.toNat = u ∧
      (q.req.op = opInit ∨ q.req.op = opShutdown)) ∨
    (∃ run, s.Moves u U run ∧ run.req.op = opInit)

/-- In a step no counter falls and at most one changes. It becomes the larger of its value and the index of the
wait of its phase that succeeds in this step, at the unit that moves: the byte received, or for SEND_OP the status
kept, meets the phase's condition (10_state.md R40, R41). -/
def Obligations.CountersOnlyRise : Prop :=
  ∀ (s t : State), s.Inv → step s = .next t →
    t.diag = s.diag ∨
    ∃ u U run k n, s.Moves u U run ∧ t.diag = s.diag.raise k n ∧ n.toNat < s.cfg.bound k ∧
      (t.diag.get k).toNat = max (s.diag.get k).toNat n.toNat ∧
      (∀ k', k' ≠ k → t.diag.get k' = s.diag.get k') ∧
      ((k = .waitCmd ∧ (∃ site, run.pos = .call site .preWait) ∧ run.work.i = some n ∧ U.answer s.draws = 0xFF) ∨
       (k = .cmd ∧ (∃ site, run.pos = .call site .resp) ∧ run.work.i = some n ∧
         (U.answer s.draws).getLsbD 7 = false) ∨
       (k = .sendOp ∧ run.pos = .desNeg ∧ run.work.j = some n ∧
         ∃ r, run.work.r = some r ∧ r.getLsbD 0 = false) ∨
       (run.work.i = some n ∧
         ((k = .csd ∧ run.pos = .wait .csd ∧ U.answer s.draws = 0xFE) ∨
          (k = .readStart ∧ run.pos = .wait .readStart ∧ U.answer s.draws = 0xFE) ∨
          (k = .wdata ∧ run.pos = .wait .wdata ∧ U.answer s.draws = 0xFF) ∨
          (k = .wdone ∧ run.pos = .wait .wdone ∧ U.answer s.draws = 0xFF) ∨
          (k = .wstop ∧ run.pos = .wait .wstop ∧ U.answer s.draws = 0xFF) ∨
          (k = .widle ∧ run.pos = .wait .widle ∧ U.answer s.draws = 0xFF))))

/-- A step of one unit reads nothing of any other unit, of the counters, of the responses or of the trace: two
states that agree on the unit's record, the configuration and the draw counter give the same record and the same
event (20_memory.md R82, 10_state.md R42). -/
def Obligations.UnitsAreIndependent : Prop :=
  ∀ (s s' : State) (u : Nat) (U : UnitState) (run : Running), s.Inv → s'.Inv →
    s.Moves u U run → s'.Moves u U run → s.cfg = s'.cfg → s.draws = s'.draws →
    ∃ t t' T e, step s = .next t ∧ step s' = .next t' ∧
      t.units = s.units.set u T ∧ t'.units = s'.units.set u T ∧
      t.trace = s.trace ++ [e] ∧ t'.trace = s'.trace ++ [e]
end

