-- ==== Sys2Proof/Laws/State.lean ====
section
/-! SUPPORT. One lemma per field per update of the state, so that no later proof unfolds a record update. -/

namespace Sys2Proof.Machine

section commit
variable (s : State) (u : Nat) (U : UnitState) (b : Byte) (a : Action)

@[simp] theorem State.commit_cfg : (s.commit u U b a).cfg = s.cfg := rfl
@[simp] theorem State.commit_units : (s.commit u U b a).units = s.units.set u (U.after a) := rfl
@[simp] theorem State.commit_diag : (s.commit u U b a).diag = s.diag.raiseOpt a.diag := rfl
@[simp] theorem State.commit_port : (s.commit u U b a).port = s.port := rfl
@[simp] theorem State.commit_resp : (s.commit u U b a).resp = s.resp.after a.prim := rfl
@[simp] theorem State.commit_trace : (s.commit u U b a).trace = s.trace ++ [a.prim.event u b] := rfl
@[simp] theorem State.commit_hostQueue : (s.commit u U b a).hostQueue = s.hostQueue := rfl
@[simp] theorem State.commit_diagRead : (s.commit u U b a).diagRead = s.diagRead := rfl
@[simp] theorem State.commit_turn : (s.commit u U b a).turn = s.turn := rfl
@[simp] theorem State.commit_choices : (s.commit u U b a).choices = s.choices := rfl
@[simp] theorem State.commit_draws :
    (s.commit u U b a).draws = if a.prim.isExchange then s.draws + 1 else s.draws := rfl

end commit

section respond
variable (s : State) (u : Option Nat) (r : Response)

@[simp] theorem State.respond_cfg : (s.respond u r).cfg = s.cfg := rfl
@[simp] theorem State.respond_units : (s.respond u r).units = s.units := rfl
@[simp] theorem State.respond_diag : (s.respond u r).diag = s.diag := rfl
@[simp] theorem State.respond_port : (s.respond u r).port = s.port := rfl
@[simp] theorem State.respond_resp : (s.respond u r).resp = r := rfl
@[simp] theorem State.respond_trace : (s.respond u r).trace = s.trace ++ [.respond u r] := rfl
@[simp] theorem State.respond_hostQueue : (s.respond u r).hostQueue = s.hostQueue := rfl
@[simp] theorem State.respond_diagRead : (s.respond u r).diagRead = s.diagRead := rfl
@[simp] theorem State.respond_turn : (s.respond u r).turn = s.turn := rfl
@[simp] theorem State.respond_choices : (s.respond u r).choices = s.choices := rfl
@[simp] theorem State.respond_draws : (s.respond u r).draws = s.draws := rfl

end respond

section setUnit
variable (s : State) (u : Nat) (U : UnitState)

@[simp] theorem State.setUnit_cfg : (s.setUnit u U).cfg = s.cfg := rfl
@[simp] theorem State.setUnit_units : (s.setUnit u U).units = s.units.set u U := rfl
@[simp] theorem State.setUnit_diag : (s.setUnit u U).diag = s.diag := rfl
@[simp] theorem State.setUnit_port : (s.setUnit u U).port = s.port := rfl
@[simp] theorem State.setUnit_resp : (s.setUnit u U).resp = s.resp := rfl
@[simp] theorem State.setUnit_trace : (s.setUnit u U).trace = s.trace := rfl
@[simp] theorem State.setUnit_hostQueue : (s.setUnit u U).hostQueue = s.hostQueue := rfl
@[simp] theorem State.setUnit_diagRead : (s.setUnit u U).diagRead = s.diagRead := rfl
@[simp] theorem State.setUnit_turn : (s.setUnit u U).turn = s.turn := rfl
@[simp] theorem State.setUnit_choices : (s.setUnit u U).choices = s.choices := rfl
@[simp] theorem State.setUnit_draws : (s.setUnit u U).draws = s.draws := rfl

end setUnit

section respondDiag
variable (s : State) (d : Diag)

@[simp] theorem State.respondDiag_cfg : (s.respondDiag d).cfg = s.cfg := rfl
@[simp] theorem State.respondDiag_units : (s.respondDiag d).units = s.units := rfl
@[simp] theorem State.respondDiag_diag : (s.respondDiag d).diag = s.diag := rfl
@[simp] theorem State.respondDiag_port : (s.respondDiag d).port = s.port := rfl
@[simp] theorem State.respondDiag_resp : (s.respondDiag d).resp = ⟨.ok, .counters d⟩ := rfl
@[simp] theorem State.respondDiag_trace :
    (s.respondDiag d).trace = s.trace ++ [.respond none ⟨.ok, .counters d⟩] := rfl
@[simp] theorem State.respondDiag_hostQueue : (s.respondDiag d).hostQueue = s.hostQueue := rfl
@[simp] theorem State.respondDiag_diagRead : (s.respondDiag d).diagRead = none := rfl
@[simp] theorem State.respondDiag_turn : (s.respondDiag d).turn = s.turn := rfl

end respondDiag

section dropChoice
variable (s : State)

@[simp] theorem State.dropChoice_cfg : s.dropChoice.cfg = s.cfg := rfl
@[simp] theorem State.dropChoice_units : s.dropChoice.units = s.units := rfl
@[simp] theorem State.dropChoice_diag : s.dropChoice.diag = s.diag := rfl
@[simp] theorem State.dropChoice_port : s.dropChoice.port = s.port := rfl
@[simp] theorem State.dropChoice_resp : s.dropChoice.resp = s.resp := rfl
@[simp] theorem State.dropChoice_trace : s.dropChoice.trace = s.trace := rfl
@[simp] theorem State.dropChoice_hostQueue : s.dropChoice.hostQueue = s.hostQueue := rfl
@[simp] theorem State.dropChoice_diagRead : s.dropChoice.diagRead = s.diagRead := rfl
@[simp] theorem State.dropChoice_turn : s.dropChoice.turn = s.turn := rfl

end dropChoice

section reschedule
variable (s : State)

/-- Choosing the next turn changes the turn, the choices and the draw counter only (log 4). -/
theorem State.reschedule_cases :
    ∃ t c d, s.reschedule = { s with turn := t, choices := c, draws := d } := by
  unfold State.reschedule
  split
  · exact ⟨_, s.choices, s.draws, rfl⟩
  · exact ⟨_, s.choices, s.draws, rfl⟩
  · exact ⟨_, _, _, rfl⟩

@[simp] theorem State.reschedule_cfg : s.reschedule.cfg = s.cfg := by
  obtain ⟨t, c, d, h⟩ := s.reschedule_cases; rw [h]
@[simp] theorem State.reschedule_units : s.reschedule.units = s.units := by
  obtain ⟨t, c, d, h⟩ := s.reschedule_cases; rw [h]
@[simp] theorem State.reschedule_diag : s.reschedule.diag = s.diag := by
  obtain ⟨t, c, d, h⟩ := s.reschedule_cases; rw [h]
@[simp] theorem State.reschedule_port : s.reschedule.port = s.port := by
  obtain ⟨t, c, d, h⟩ := s.reschedule_cases; rw [h]
@[simp] theorem State.reschedule_resp : s.reschedule.resp = s.resp := by
  obtain ⟨t, c, d, h⟩ := s.reschedule_cases; rw [h]
@[simp] theorem State.reschedule_trace : s.reschedule.trace = s.trace := by
  obtain ⟨t, c, d, h⟩ := s.reschedule_cases; rw [h]
@[simp] theorem State.reschedule_hostQueue : s.reschedule.hostQueue = s.hostQueue := by
  obtain ⟨t, c, d, h⟩ := s.reschedule_cases; rw [h]
@[simp] theorem State.reschedule_diagRead : s.reschedule.diagRead = s.diagRead := by
  obtain ⟨t, c, d, h⟩ := s.reschedule_cases; rw [h]

end reschedule

section after
variable (U : UnitState) (a : Action)

@[simp] theorem UnitState.after_cls : (U.after a).cls = a.cls.getD U.cls := rfl
@[simp] theorem UnitState.after_agent : (U.after a).agent = a.agent := rfl
@[simp] theorem UnitState.after_buf : (U.after a).buf = U.buf.storeOpt a.store := rfl
@[simp] theorem UnitState.after_inbound :
    (U.after a).inbound = if a.prim.isExchange then U.inbound.tail else U.inbound := rfl

end after

section go
variable (run : Running) (prim : Prim) (next : Pos × Work)

@[simp] theorem Running.go_prim : (run.go prim next).prim = prim := rfl
@[simp] theorem Running.go_agent : (run.go prim next).agent = .running ⟨run.req, next.1, next.2⟩ := rfl
@[simp] theorem Running.go_diag : (run.go prim next).diag = none := rfl
@[simp] theorem Running.go_cls : (run.go prim next).cls = none := rfl
@[simp] theorem Running.go_store : (run.go prim next).store = none := rfl
@[simp] theorem Running.at_eq : run.at next = .running ⟨run.req, next.1, next.2⟩ := rfl

end go

@[simp] theorem Diag.raiseOpt_none (d : Diag) : d.raiseOpt none = d := rfl
@[simp] theorem Diag.raiseOpt_some (d : Diag) (k : Phase) (i : Word) : d.raiseOpt (some (k, i)) = d.raise k i := rfl
@[simp] theorem HostBuf.storeOpt_none (buf : HostBuf) : buf.storeOpt none = buf := rfl
@[simp] theorem HostBuf.storeOpt_some (buf : HostBuf) (k : Nat) (v : Byte) :
    buf.storeOpt (some (k, v)) = buf.store k v := rfl
@[simp] theorem HostBuf.store_size (buf : HostBuf) (k : Nat) (v : Byte) : (buf.store k v).size = buf.size := rfl

@[simp] theorem need_some {α β : Type} (x : α) (k : α → Except Fault β) : need (some x) k = k x := rfl
@[simp] theorem need_none {α β : Type} (k : α → Except Fault β) :
    need none k = .error .workingRegisterUnset := rfl

/-- Reading a register succeeds only where it holds a value. -/
theorem need_ok {α β : Type} {reg : Option α} {k : α → Except Fault β} {y : β} (h : need reg k = .ok y) :
    ∃ x, reg = some x ∧ k x = .ok y := by
  cases reg with
  | none => simp at h
  | some x => exact ⟨x, rfl, h⟩

@[simp] theorem thenReschedule_next (s : State) : thenReschedule (.next s) = .next s.reschedule := rfl

theorem thenReschedule_eq_next {o : StepOutcome} {t : State} (h : thenReschedule o = .next t) :
    ∃ s, o = .next s ∧ t = s.reschedule := by
  cases o with
  | next s => exact ⟨s, rfl, by simpa [thenReschedule] using h.symm⟩
  | fault f => simp [thenReschedule] at h
  | refused r => simp [thenReschedule] at h

end Sys2Proof.Machine
end

