-- ==== Sys2Proof/Laws/Exec.lean ====
section
/-! SUPPORT. What the shared operations of a step can do, said once: the agent that moves, one primitive,
the commands, the tokens, the host requests, and `exec` as a whole. -/

namespace Sys2Proof.Machine

/-! ### The agent that moves -/

theorem State.runningAt_eq_some {s : State} {u : Nat} {U : UnitState} {run : Running} :
    s.runningAt u = some (U, run) ↔ s.units[u]? = some U ∧ U.agent = .running run := by
  unfold State.runningAt
  cases hu : s.units[u]? with
  | none => simp
  | some V =>
    cases ha : V.agent with
    | idle =>
      simp only [ha, Option.some.injEq]
      exact ⟨fun h => by simp at h, fun ⟨h1, h2⟩ => by subst h1; simp [ha] at h2⟩
    | running r =>
      simp only [ha, Option.some.injEq, Prod.mk.injEq]
      refine ⟨fun ⟨h1, h2⟩ => ?_, fun ⟨h1, h2⟩ => ?_⟩
      · subst h1; subst h2; exact ⟨rfl, ha⟩
      · subst h1; rw [ha] at h2; injection h2 with h2; exact ⟨rfl, h2⟩

theorem State.mover_eq_some {s : State} {u : Nat} {U : UnitState} {run : Running} :
    s.mover = some (u, U, run) ↔ s.turn = .unit u ∧ s.units[u]? = some U ∧ U.agent = .running run := by
  unfold State.mover
  cases ht : s.turn with
  | host => simp
  | diag => simp
  | unit v =>
    simp only [Option.map_eq_some_iff, Turn.unit.injEq, Prod.mk.injEq, ← State.runningAt_eq_some]
    constructor
    · rintro ⟨x, hx, rfl, rfl⟩; exact ⟨rfl, hx⟩
    · rintro ⟨rfl, hx⟩; exact ⟨_, hx, rfl, rfl⟩

/-! ### One primitive -/

/-- A running agent's step is its action, committed. -/
theorem performRun_eq_next {u : Nat} {U : UnitState} {run : Running} {b : Byte} {s t : State} :
    performRun u U run b s = .next t ↔
      ∃ a, act s.cfg U.buf (Config.freeSectors s.draws) b run = .ok a ∧ t = s.commit u U b a := by
  unfold performRun
  split
  · rename_i a ha
    simp only [Host.Outcome.next.injEq]
    exact ⟨fun h => ⟨a, ha, h.symm⟩, fun ⟨a', h1, h2⟩ => by rw [ha] at h1; injection h1 with h1; rw [h1, h2]⟩
  · rename_i f hf
    simp [hf]

theorem performRun_of_act {u : Nat} {U : UnitState} {run : Running} {b : Byte} {s : State} {a : Action}
    (h : act s.cfg U.buf (Config.freeSectors s.draws) b run = .ok a) :
    performRun u U run b s = .next (s.commit u U b a) := performRun_eq_next.2 ⟨a, h, rfl⟩

theorem performRun_ne_refused {u : Nat} {U : UnitState} {run : Running} {b : Byte} {s : State} {r : Refusal} :
    performRun u U run b s ≠ .refused r := by
  unfold performRun; split <;> simp

/-- One poll of a bounded wait: success, another poll, or the bound (40_exchanger.md R130). -/
theorem pollStep_ok {cfg : Config} {run : Running} {k : Phase} {cond : Bool} {b : Byte}
    {onHit onExpired : Work → Except Fault (Pos × Work)} {a : Action}
    (h : pollStep cfg run k cond b onHit onExpired = .ok a) :
    ∃ i, run.work.i = some i ∧
      ((cond = true ∧ ∃ next, onHit { run.work with b := some b, ok := some true } = .ok next ∧
          a = ⟨.exchange filler, run.at next, some (k, i), none, none⟩) ∨
       (cond = false ∧ i.toNat + 1 < cfg.bound k ∧
          a = run.go (.exchange filler) (run.pos, { run.work with b := some b, i := some (i + 1) })) ∨
       (cond = false ∧ cfg.bound k ≤ i.toNat + 1 ∧
          ∃ next, onExpired { run.work with b := some b, ok := some false } = .ok next ∧
            a = run.go (.exchange filler) next)) := by
  obtain ⟨i, hi, h⟩ := need_ok h
  refine ⟨i, hi, ?_⟩
  cases cond with
  | true =>
    simp only [if_true] at h
    split at h
    · rename_i next hn; injection h with h; exact .inl ⟨rfl, next, hn, h.symm⟩
    · cases h
  | false =>
    simp only [Bool.false_eq_true, if_false] at h
    split at h
    · rename_i hlt; injection h with h; exact .inr (.inl ⟨rfl, hlt, h.symm⟩)
    · rename_i hlt
      split at h
      · rename_i next hn; injection h with h; exact .inr (.inr ⟨rfl, by omega, next, hn, h.symm⟩)
      · cases h

/-- A successful poll (40_exchanger.md R130). -/
theorem pollStep_hit {cfg : Config} {run : Running} {k : Phase} {b : Byte} {i : Word}
    {onHit onExpired : Work → Except Fault (Pos × Work)} {next : Pos × Work} (hi : run.work.i = some i)
    (h : onHit { run.work with b := some b, ok := some true } = .ok next) :
    pollStep cfg run k true b onHit onExpired =
      .ok ⟨.exchange filler, run.at next, some (k, i), none, none⟩ := by
  simp only [pollStep, hi, need_some, if_true]
  rw [← hi, h]

/-- A poll that does not meet its condition, below the bound (40_exchanger.md R130). -/
theorem pollStep_again {cfg : Config} {run : Running} {k : Phase} {b : Byte} {i : Word}
    {onHit onExpired : Work → Except Fault (Pos × Work)} (hi : run.work.i = some i)
    (h : i.toNat + 1 < cfg.bound k) :
    pollStep cfg run k false b onHit onExpired =
      .ok (run.go (.exchange filler) (run.pos, { run.work with b := some b, i := some (i + 1) })) := by
  simp [pollStep, hi, h]

/-- The last poll of the bound (40_exchanger.md R130). -/
theorem pollStep_expired {cfg : Config} {run : Running} {k : Phase} {b : Byte} {i : Word}
    {onHit onExpired : Work → Except Fault (Pos × Work)} {next : Pos × Work} (hi : run.work.i = some i)
    (hb : cfg.bound k ≤ i.toNat + 1) (h : onExpired { run.work with b := some b, ok := some false } = .ok next) :
    pollStep cfg run k false b onHit onExpired = .ok (run.go (.exchange filler) next) := by
  have : ¬ i.toNat + 1 < cfg.bound k := by omega
  simp only [pollStep, hi, need_some, Bool.false_eq_true, if_false, this]
  rw [← hi, h]

/-! ### The meanings -/

/-- A command's step is its agent's next primitive, at a call site of that command. -/
theorem execCommand_next {cmd : Command} {arg : Word} {s t : State} (h : execCommand cmd arg s = .next t) :
    ∃ u U run, s.mover = some (u, U, run) ∧ run.calls cmd arg = true ∧
      performRun u U run (U.answer s.draws) s = .next t := by
  unfold execCommand at h
  split at h
  · rename_i u U run hm
    split at h
    · rename_i hc; exact ⟨u, U, run, hm, hc, h⟩
    · cases h
  · cases h

theorem execCommand_of {cmd : Command} {arg : Word} {s : State} {u : Nat} {U : UnitState} {run : Running}
    (hm : s.mover = some (u, U, run)) (hc : run.calls cmd arg = true) :
    execCommand cmd arg s = performRun u U run (U.answer s.draws) s := by
  simp [execCommand, hm, hc]

theorem Running.calls_eq_true {run : Running} {cmd : Command} {arg : Word} :
    run.calls cmd arg = true ↔
      ∃ site x, run.pos = .call site x ∧ site.command = cmd ∧ site.argument run.work = some arg := by
  unfold Running.calls
  split
  · rename_i site x hp; simp [hp]
  · rename_i hp
    simp only [Bool.false_eq_true, false_iff, not_exists, not_and]
    exact fun site x h => absurd h (hp site x)

/-- A call site's operation is its command with its argument (30_encoding.md R103). -/
theorem CallSite.commandOf_operation {site : CallSite} {w : Work} {i : Instr} (h : site.operation w = some i) :
    ∃ arg, i.commandOf = some (site.command, arg) ∧ site.argument w = some arg := by
  have hcs : ∀ c : CardClass, hcsArgument (c == .sdv2) = hcsArgument (decide (c = .sdv2)) := by
    intro c; cases c <;> rfl
  cases site <;> simp only [CallSite.operation, Option.map_eq_some_iff, Option.some.injEq] at h
  all_goals first
    | (subst h; exact ⟨_, rfl, rfl⟩)
    | (obtain ⟨x, hx, rfl⟩ := h
       exact ⟨_, rfl, by simp only [CallSite.argument, hx, Option.map_some, hcs]⟩)

/-- The step of the operation of a call site, at that call site (40_exchanger.md R133). -/
theorem exec_operation {s : State} {u : Nat} {U : UnitState} {run : Running} {site : CallSite} {x : XPos} {i : Instr}
    (h : site.operation run.work = some i) (hm : s.mover = some (u, U, run)) (hp : run.pos = .call site x) :
    exec i s = performRun u U run (U.answer s.draws) s := by
  obtain ⟨arg, hc, ha⟩ := CallSite.commandOf_operation h
  have he : exec i s = execCommand site.command arg s := by
    cases i <;> simp only [Instr.commandOf, Option.some.injEq, Prod.mk.injEq, reduceCtorEq] at hc <;>
      (obtain ⟨h1, rfl⟩ := hc; rw [← h1]; rfl)
  rw [he, execCommand_of hm (Running.calls_eq_true.2 ⟨site, x, hp, rfl, ha⟩)]

/-- A token's or inbound byte's step is its agent's next primitive, at a place that fits. -/
theorem execAt_next {fits : Pos → Bool} {b : Option Byte} {s t : State} (h : execAt fits b s = .next t) :
    ∃ u U run, s.mover = some (u, U, run) ∧ fits run.pos = true ∧
      performRun u U run (b.getD (U.answer s.draws)) s = .next t := by
  unfold execAt at h
  split at h
  · rename_i u U run hm
    split at h
    · rename_i hc; exact ⟨u, U, run, hm, hc, h⟩
    · cases h
  · cases h

theorem execAt_of {fits : Pos → Bool} {b : Option Byte} {s : State} {u : Nat} {U : UnitState} {run : Running}
    (hm : s.mover = some (u, U, run)) (hf : fits run.pos = true) :
    execAt fits b s = performRun u U run (b.getD (U.answer s.draws)) s := by
  simp [execAt, hm, hf]

theorem transferDuty_eq_none {count : Word} {buf : HostBuf} :
    transferDuty count buf = none ↔ count ≠ 0 ∧ count.toNat ≤ buf.size := by
  unfold transferDuty
  split
  · rename_i h; simp [h]
  · rename_i h
    split
    · rename_i hb; simp; omega
    · rename_i hb; simp only [true_iff]; exact ⟨h, by omega⟩

theorem ifDutiful_next {broken : Option Refusal} {o : StepOutcome} {t : State} (h : ifDutiful broken o = .next t) :
    broken = none ∧ o = .next t := by
  unfold ifDutiful at h
  split at h
  · cases h
  · exact ⟨rfl, h⟩

/-- What a request to a unit can do: no such unit, the next primitive of the same request, or its start; a new
request breaks no duty. -/
theorem hostRequest_next {req : Request} {broken : Option Refusal} {start : UnitState → StepOutcome} {s t : State}
    (h : hostRequest req broken start s = .next t) :
    (broken = none ∧ s.units[req.unit.toNat]? = none ∧ t = s.respond (some req.unit.toNat) ⟨.badUnit, .word 0⟩) ∨
    (∃ U run, s.units[req.unit.toNat]? = some U ∧ U.agent = .running run ∧ run.req = req ∧
      performRun req.unit.toNat U run (U.answer s.draws) s = .next t) ∨
    (broken = none ∧ ∃ U, s.units[req.unit.toNat]? = some U ∧ U.agent = .idle ∧ start U = .next t) := by
  simp only [hostRequest] at h
  split at h
  · rename_i hu
    obtain ⟨hb, h⟩ := ifDutiful_next h
    injection h with h; exact .inl ⟨hb, hu, h.symm⟩
  · rename_i U hu
    split at h
    · rename_i run hr
      split at h
      · rename_i hq; exact .inr (.inl ⟨U, run, hu, hr, hq, h⟩)
      · cases h
    · rename_i hi
      obtain ⟨hb, h⟩ := ifDutiful_next h
      exact .inr (.inr ⟨hb, U, hu, hi, h⟩)

theorem hostRequest_running {req : Request} {broken : Option Refusal} {start : UnitState → StepOutcome} {s : State} {U : UnitState}
    {run : Running} (hu : s.units[req.unit.toNat]? = some U) (hr : U.agent = .running run) (hq : run.req = req) :
    hostRequest req broken start s = performRun req.unit.toNat U run (U.answer s.draws) s := by
  simp [hostRequest, hu, hr, hq]

theorem hostRequest_idle {req : Request} {start : UnitState → StepOutcome} {s : State} {U : UnitState}
    (hu : s.units[req.unit.toNat]? = some U) (hi : U.agent = .idle) : hostRequest req none start s = start U := by
  simp [hostRequest, hu, hi, ifDutiful]

/-- The start of READ or WRITE: `NotReady`, or the first primitive (43_transfer.md R230). -/
theorem startTransfer_next {req : Request} {pos : Pos} {w : Work} {s t : State} {U : UnitState}
    (h : startTransfer req pos w s U = .next t) :
    (U.cls = .unknown ∧ t = s.respond (some req.unit.toNat) ⟨.notReady, .word 0⟩) ∨
    (U.cls ≠ .unknown ∧
      startRequest req { U with buf := s.port.buf } pos w s = .next t) := by
  unfold startTransfer at h
  split at h
  · rename_i hc; injection h with h; exact .inl ⟨hc, h.symm⟩
  · rename_i hc; exact .inr ⟨hc, h⟩

/-! ### `exec` as a whole -/

/-- How INIT, READ and WRITE start on an idle unit `V`: the record, position and registers the agent starts
with (41_init.md R187, 43_transfer.md R231, R232; 44_host.md R287). -/
inductive Starts (s : State) (V : UnitState) : Request → UnitState → Pos → Work → Prop
  | init (unit : BitVec 8) : Starts s V (initRequest unit) { V with cls := .unknown } .rateSlow Work.empty
  | read (unit : BitVec 8) (offset count : Word) (hc : V.cls ≠ .unknown) (h0 : count ≠ 0)
      (hb : count.toNat ≤ s.port.buf.size) :
      Starts s V (readRequest unit offset count) { V with buf := s.port.buf } .selRead
        { Work.empty with arg := some (cardAddress V.cls offset) }
  | write (unit : BitVec 8) (offset count : Word) (hc : V.cls ≠ .unknown) (h0 : count ≠ 0)
      (hb : count.toNat ≤ s.port.buf.size) :
      Starts s V (writeRequest unit offset count) { V with buf := s.port.buf } .selWrite
        { Work.empty with arg := some (cardAddress V.cls offset), nsec := some (sectorCount count) }

/-- Everything `exec` can do when it answers a next state: a response without a running agent (`BadUnit`,
`NotReady`), a SHUTDOWN, a primitive of a running agent, the first primitive of a request, or DIAG. -/
theorem exec_next_cases {i : Instr} {s t : State} (h : exec i s = .next t) :
    (∃ u r, t = s.respond (some u) r) ∨
    (∃ u V, s.units[u]? = some V ∧ V.agent = .idle ∧
      t = (s.setUnit u { V with cls := .unknown }).respond (some u) ⟨.ok, .word 0⟩) ∨
    (∃ u U run b, s.units[u]? = some U ∧ U.agent = .running run ∧ performRun u U run b s = .next t) ∨
    (∃ req V U pos w, s.units[req.unit.toNat]? = some V ∧ V.agent = .idle ∧ Starts s V req U pos w ∧
      startRequest req U pos w s = .next t) ∨
    (t = s.respondDiag s.diag ∧ s.diagRead = none) ∨
    (∃ taken, (s.diagRead = some taken ∨ s.diagRead = none ∧ taken = []) ∧ t = sampleCounter taken s) := by
  have cmd : ∀ {c a}, execCommand c a s = .next t →
      ∃ u U run b, s.units[u]? = some U ∧ U.agent = .running run ∧ performRun u U run b s = .next t := by
    intro c a h
    obtain ⟨u, U, run, hm, -, hp⟩ := execCommand_next h
    exact ⟨u, U, run, _, (State.mover_eq_some.1 hm).2.1, (State.mover_eq_some.1 hm).2.2, hp⟩
  have tok : ∀ {f b}, execAt f b s = .next t →
      ∃ u U run b, s.units[u]? = some U ∧ U.agent = .running run ∧ performRun u U run b s = .next t := by
    intro f b h
    obtain ⟨u, U, run, hm, -, hp⟩ := execAt_next h
    exact ⟨u, U, run, _, (State.mover_eq_some.1 hm).2.1, (State.mover_eq_some.1 hm).2.2, hp⟩
  cases i with
  | cmd0 => exact .inr (.inr (.inl (cmd h)))
  | cmd8 => exact .inr (.inr (.inl (cmd h)))
  | cmd9 => exact .inr (.inr (.inl (cmd h)))
  | cmd12 => exact .inr (.inr (.inl (cmd h)))
  | cmd18 arg => exact .inr (.inr (.inl (cmd h)))
  | cmd25 arg => exact .inr (.inr (.inl (cmd h)))
  | cmd55 => exact .inr (.inr (.inl (cmd h)))
  | cmd58 => exact .inr (.inr (.inl (cmd h)))
  | acmd23 nsec => exact .inr (.inr (.inl (cmd h)))
  | acmd41 hcs => exact .inr (.inr (.inl (cmd h)))
  | tokenStart => exact .inr (.inr (.inl (tok h)))
  | tokenWstart => rw [exec, execTokenWstart] at h; exact .inr (.inr (.inl (tok h)))
  | tokenWstop => rw [exec, execTokenWstop] at h; exact .inr (.inr (.inl (tok h)))
  | r1Status flags => exact .inr (.inr (.inl (tok h)))
  | dataRespAccept ignored => rw [exec, execDataRespAccept] at h; exact .inr (.inr (.inl (tok h)))
  | init unit =>
    obtain ⟨hd, hu, rfl⟩ | ⟨U, run, hu, hr, -, hp⟩ | ⟨hd, V, hu, hi, hs⟩ := hostRequest_next h
    · exact .inl ⟨_, _, rfl⟩
    · exact .inr (.inr (.inl ⟨_, U, run, _, hu, hr, hp⟩))
    · exact .inr (.inr (.inr (.inl ⟨_, V, _, _, _, hu, hi, .init unit, hs⟩)))
  | read unit offset count =>
    obtain ⟨hd, hu, rfl⟩ | ⟨U, run, hu, hr, -, hp⟩ | ⟨hd, V, hu, hi, hs⟩ := hostRequest_next h
    · exact .inl ⟨_, _, rfl⟩
    · exact .inr (.inr (.inl ⟨_, U, run, _, hu, hr, hp⟩))
    · obtain ⟨h0, hb⟩ := transferDuty_eq_none.1 hd
      obtain ⟨-, rfl⟩ | ⟨hc, hs⟩ := startTransfer_next hs
      · exact .inl ⟨_, _, rfl⟩
      · exact .inr (.inr (.inr (.inl ⟨_, V, _, _, _, hu, hi, .read unit offset count hc h0 hb, hs⟩)))
  | write unit offset count =>
    obtain ⟨hd, hu, rfl⟩ | ⟨U, run, hu, hr, -, hp⟩ | ⟨hd, V, hu, hi, hs⟩ := hostRequest_next h
    · exact .inl ⟨_, _, rfl⟩
    · exact .inr (.inr (.inl ⟨_, U, run, _, hu, hr, hp⟩))
    · obtain ⟨h0, hb⟩ := transferDuty_eq_none.1 hd
      obtain ⟨-, rfl⟩ | ⟨hc, hs⟩ := startTransfer_next hs
      · exact .inl ⟨_, _, rfl⟩
      · exact .inr (.inr (.inr (.inl ⟨_, V, _, _, _, hu, hi, .write unit offset count hc h0 hb, hs⟩)))
  | shutdown unit =>
    simp only [exec, execShutdown] at h
    split at h
    · injection h with h; exact .inl ⟨_, _, h.symm⟩
    · rename_i V hu
      split at h
      · cases h
      · rename_i hi; injection h with h; exact .inr (.inl ⟨_, V, hu, hi, h.symm⟩)
  | diag =>
    simp only [exec, execDiag] at h
    split at h
    · rename_i taken hd; injection h with h
      exact .inr (.inr (.inr (.inr (.inr ⟨taken, .inl hd, h.symm⟩))))
    · rename_i hd
      split at h
      · injection h with h; exact .inr (.inr (.inr (.inr (.inr ⟨[], .inr ⟨hd, rfl⟩, h.symm⟩))))
      · injection h with h; exact .inr (.inr (.inr (.inr (.inl ⟨h.symm, hd⟩))))

/-- Everything a step can do when it answers a next state. -/
theorem step_next_cases {s t : State} (h : step s = .next t) :
    s.configOk = true ∧
    ((s.fetch = .waiting ∧ t = s.reschedule) ∨
     ∃ port bytes s' i t', s.fetch = .word port bytes s' ∧ decode s.cfg.commands port bytes = .ok i ∧
      exec i s' = .next t' ∧
       t = t'.reschedule) := by
  unfold step at h
  split at h
  · rename_i hc
    refine ⟨hc, ?_⟩
    split at h
    · rename_i hf; injection h with h; exact .inl ⟨hf, h.symm⟩
    · cases h
    · cases h
    · rename_i port bytes s' hf
      split at h
      · rename_i i hd
        obtain ⟨t', ht, rfl⟩ := thenReschedule_eq_next h
        exact .inr ⟨port, bytes, s', i, t', hf, hd, ht, rfl⟩
      · cases h
  · cases h

/-- The state an operation runs in: the present one, or the present one with the host's next request taken
into the port (44_host.md R280). -/
theorem State.fetch_word_cases {s s' : State} {port : Port} {bytes : List Byte}
    (h : s.fetch = .word port bytes s') :
    (∃ q rest, s.turn = .host ∧ s.hostQueue = q :: rest ∧ s.portFree q.req = true ∧ port = .host ∧
      bytes = q.req.bytes ∧ s' = { s with port := q, hostQueue := rest }) ∨
    (∃ u U run, s.mover = some (u, U, run) ∧ fetchRunning s.cfg.commands run (U.answer s.draws) = .ok (port, bytes) ∧
      s' = s) ∨
    (∃ taken, s.turn = .diag ∧ s.diagRead = some taken ∧ port = .host ∧ bytes = diagRequest.bytes ∧ s' = s) := by
  unfold State.fetch at h
  split at h
  · rename_i ht
    split at h
    · cases h
    · rename_i q rest hq
      split at h
      · rename_i hp
        injection h with h1 h2 h3
        exact .inl ⟨q, rest, ht, hq, hp, h1.symm, h2.symm, h3.symm⟩
      · cases h
  · rename_i u ht
    split at h
    · cases h
    · rename_i U run hr
      split at h
      · rename_i p bs hf
        injection h with h1 h2 h3
        subst h1 h2 h3
        exact .inr (.inl ⟨u, U, run, by simp [State.mover, ht, hr], hf, rfl⟩)
      · cases h
  · rename_i ht
    split at h
    · cases h
    · rename_i taken hd
      injection h with h1 h2 h3
      exact .inr (.inr ⟨taken, ht, hd, h1.symm, h2.symm, h3.symm⟩)

end Sys2Proof.Machine
end

