-- ==== Sys2Proof/Laws/Memory.lean ====
section
/-! SUPPORT. The laws of host-buffer memory: a write is read back, leaves every other byte alone, and keeps
the canonical form; memories in canonical form that read alike are equal. -/

namespace Sys2Proof.Machine

@[simp] theorem Memory.read_nil (a : Nat) : Memory.read [] a = Memory.unlisted := rfl

@[simp] theorem Memory.wf_nil : Memory.wf [] = true := rfl

/-- A bound below which nothing is listed can be lowered. -/
theorem Memory.wfFrom_mono {lo lo' : Nat} {m : Memory} (h : Memory.wfFrom lo m = true) (hle : lo' ≤ lo) :
    Memory.wfFrom lo' m = true := by
  cases m with
  | nil => rfl
  | cons c rest =>
    obtain ⟨k, v⟩ := c
    simp only [Memory.wfFrom, Bool.and_eq_true, decide_eq_true_eq] at h ⊢
    exact ⟨⟨by omega, h.1.2⟩, h.2⟩

/-- Nothing is listed below the bound. -/
theorem Memory.read_below {lo a : Nat} {m : Memory} (h : Memory.wfFrom lo m = true) (ha : a < lo) :
    Memory.read m a = Memory.unlisted := by
  induction m generalizing lo with
  | nil => rfl
  | cons c rest ih =>
    obtain ⟨k, v⟩ := c
    simp only [Memory.wfFrom, Bool.and_eq_true, decide_eq_true_eq] at h
    have hk : k ≠ a := by omega
    simp only [Memory.read, if_neg hk]
    exact ih h.2 (by omega)

/-- A write is read back, and every other byte reads as before. -/
theorem Memory.read_write {lo : Nat} {m : Memory} (h : Memory.wfFrom lo m = true) (a x : Nat) (v : Byte) :
    Memory.read (Memory.write m a v) x = if x = a then v else Memory.read m x := by
  induction m generalizing lo with
  | nil =>
    by_cases hv : v = Memory.unlisted
    · simp [Memory.write, hv]
    · by_cases hx : x = a
      · subst hx; simp [Memory.write, hv, Memory.read]
      · simp [Memory.write, hv, Memory.read, hx, Ne.symm hx]
  | cons c rest ih =>
    obtain ⟨k, w⟩ := c
    simp only [Memory.wfFrom, Bool.and_eq_true, decide_eq_true_eq] at h
    have hbelow : ∀ y, y ≤ k → Memory.read rest y = Memory.unlisted := fun y hy =>
      Memory.read_below h.2 (by omega)
    by_cases h1 : a < k
    · by_cases hv : v = Memory.unlisted
      · by_cases hx : x = a
        · subst hx
          have : k ≠ x := by omega
          simp [Memory.write, h1, hv, Memory.read, this, hbelow x (by omega)]
        · simp [Memory.write, h1, hv, hx]
      · by_cases hx : x = a
        · subst hx; simp [Memory.write, h1, hv, Memory.read]
        · simp [Memory.write, h1, hv, Memory.read, hx, Ne.symm hx]
    · by_cases h2 : a = k
      · subst h2
        by_cases hv : v = Memory.unlisted
        · by_cases hx : x = a
          · subst hx; simp [Memory.write, hv, hbelow x (le_refl _)]
          · simp [Memory.write, hv, Memory.read, hx, Ne.symm hx]
        · by_cases hx : x = a
          · subst hx; simp [Memory.write, hv, Memory.read]
          · simp [Memory.write, hv, Memory.read, hx, Ne.symm hx]
      · by_cases hk : k = x
        · subst hk
          have : k ≠ a := fun e => h2 e.symm
          simp [Memory.write, h1, h2, Memory.read, this]
        · simp only [Memory.write, if_neg h1, if_neg h2, Memory.read, if_neg hk]
          exact ih h.2

/-- A write keeps the canonical form. -/
theorem Memory.wfFrom_write {lo : Nat} {m : Memory} (h : Memory.wfFrom lo m = true) {a : Nat} (ha : lo ≤ a)
    (v : Byte) : Memory.wfFrom lo (Memory.write m a v) = true := by
  induction m generalizing lo with
  | nil => by_cases hv : v = Memory.unlisted <;> simp [Memory.write, Memory.wfFrom, hv, ha]
  | cons c rest ih =>
    obtain ⟨k, w⟩ := c
    have h0 := h
    simp only [Memory.wfFrom, Bool.and_eq_true, decide_eq_true_eq] at h
    by_cases h1 : a < k
    · by_cases hv : v = Memory.unlisted
      · simpa [Memory.write, h1, hv] using h0
      · simp only [Memory.write, if_pos h1, if_neg hv, Memory.wfFrom, Bool.and_eq_true, decide_eq_true_eq]
        refine ⟨⟨ha, by simpa using hv⟩, ⟨by omega, h.1.2⟩, h.2⟩
    · by_cases h2 : a = k
      · subst h2
        by_cases hv : v = Memory.unlisted
        · simp only [Memory.write, if_neg h1, if_true, if_pos hv]
          exact Memory.wfFrom_mono h.2 (by omega)
        · simp only [Memory.write, if_neg h1, if_true, if_neg hv, Memory.wfFrom, Bool.and_eq_true,
            decide_eq_true_eq]
          exact ⟨⟨ha, by simpa using hv⟩, h.2⟩
      · simp only [Memory.write, if_neg h1, if_neg h2, Memory.wfFrom, Bool.and_eq_true, decide_eq_true_eq]
        exact ⟨h.1, ih h.2 (by omega)⟩

theorem Memory.wf_write {m : Memory} (h : m.wf = true) (a : Nat) (v : Byte) : (m.write a v).wf = true :=
  Memory.wfFrom_write h (Nat.zero_le a) v

/-- A write lists no new byte but its own. -/
theorem Memory.mem_write {m : Memory} {a : Nat} {v : Byte} {c : Host.Cell} (h : c ∈ m.write a v) :
    c ∈ m ∨ c = (a, v) := by
  induction m with
  | nil =>
    by_cases hv : v = Memory.unlisted
    · simp [Memory.write, hv] at h
    · simp [Memory.write, hv] at h; exact .inr h
  | cons d rest ih =>
    obtain ⟨k, w⟩ := d
    simp only [Memory.write] at h
    split at h
    · split at h
      · exact .inl h
      · rcases List.mem_cons.1 h with h | h
        · exact .inr h
        · exact .inl h
    · split at h
      · rename_i hk
        split at h
        · exact .inl (List.mem_cons_of_mem _ h)
        · rcases List.mem_cons.1 h with h | h
          · exact .inr (by rw [h, hk])
          · exact .inl (List.mem_cons_of_mem _ h)
      · rcases List.mem_cons.1 h with h | h
        · exact .inl (by rw [h]; exact List.mem_cons_self)
        · rcases ih h with h | h
          · exact .inl (List.mem_cons_of_mem _ h)
          · exact .inr h

/-- Two memories in canonical form that read alike are the same list. -/
theorem Memory.ext_read {lo : Nat} {m m' : Memory} (h : Memory.wfFrom lo m = true)
    (h' : Memory.wfFrom lo m' = true) (heq : ∀ a, m.read a = m'.read a) : m = m' := by
  induction m generalizing lo m' with
  | nil =>
    cases m' with
    | nil => rfl
    | cons c rest =>
      obtain ⟨k, v⟩ := c
      simp only [Memory.wfFrom, Bool.and_eq_true, decide_eq_true_eq] at h'
      have := heq k
      simp [Memory.read] at this
      simp [this] at h'
  | cons c rest ih =>
    obtain ⟨k, v⟩ := c
    cases m' with
    | nil =>
      simp only [Memory.wfFrom, Bool.and_eq_true, decide_eq_true_eq] at h
      have := heq k
      simp [Memory.read] at this
      simp [this] at h
    | cons c' rest' =>
      obtain ⟨k', v'⟩ := c'
      simp only [Memory.wfFrom, Bool.and_eq_true, decide_eq_true_eq] at h h'
      have hkk : k = k' := by
        rcases Nat.lt_trichotomy k k' with hlt | he | hlt
        · have e := heq k
          have h1 : k' ≠ k := by omega
          simp [Memory.read, h1, Memory.read_below h'.2 (show k < k' + 1 by omega)] at e
          simp [e] at h
        · exact he
        · have e := heq k'
          have h1 : k ≠ k' := by omega
          simp [Memory.read, h1, Memory.read_below h.2 (show k' < k + 1 by omega)] at e
          simp [← e] at h'
      subst hkk
      have hv : v = v' := by simpa [Memory.read] using heq k
      subst hv
      have : rest = rest' := by
        refine ih h.2 h'.2 fun a => ?_
        by_cases ha : k = a
        · subst ha
          rw [Memory.read_below h.2 (by omega), Memory.read_below h'.2 (by omega)]
        · simpa [Memory.read, ha] using heq a
      rw [this]

/-! ### Host buffers -/

theorem HostBuf.wf_mem {buf : HostBuf} (h : buf.wf = true) : buf.mem.wf = true := by
  simp only [HostBuf.wf, Bool.and_eq_true] at h; exact h.1

/-- A store inside the buffer keeps its form. -/
theorem HostBuf.wf_store {buf : HostBuf} (h : buf.wf = true) {k : Nat} (hk : k < buf.size) (v : Byte) :
    (buf.store k v).wf = true := by
  simp only [HostBuf.wf, Bool.and_eq_true, List.all_eq_true, decide_eq_true_eq] at h ⊢
  refine ⟨Memory.wf_write h.1 k v, fun c hc => ?_⟩
  rcases Memory.mem_write hc with hc | hc
  · exact h.2 c hc
  · subst hc; exact hk

/-- A store is read back, and every other byte reads as before (20_memory.md R79). -/
theorem HostBuf.load_store {buf : HostBuf} (h : buf.wf = true) {k : Nat} (hk : k < buf.size) (v : Byte)
    (a : Nat) : (buf.store k v).load a = if a = k then some v else buf.load a := by
  have hm : Memory.wfFrom 0 buf.mem = true := HostBuf.wf_mem h
  simp only [HostBuf.load, HostBuf.store, Memory.read_write hm k a v]
  by_cases ha : a = k
  · subst ha; simp [hk]
  · simp [ha]

theorem HostBuf.empty_wf : HostBuf.empty.wf = true := rfl

/-- After reset every buffer is in canonical form (log 9). -/
theorem State.reset_bufs_wf (cfg : Config) (n : Nat) :
    (State.resetWith cfg n).port.buf.wf = true ∧ ∀ U ∈ (State.resetWith cfg n).units, U.buf.wf = true := by
  refine ⟨rfl, fun U hU => ?_⟩
  rw [(List.mem_replicate.1 hU).2]; rfl

end Sys2Proof.Machine
end

