-- ==== Sys2Proof/Laws/Invariant.lean ====
section
/-! SUPPORT. At a legal position (`Running.ok`) an agent always has a next action, and the action leads to a
legal position, inside the bounds and inside the buffer. -/

namespace Sys2Proof.Machine

theorem Config.bound_pos {c : Config} (h : c.wf = true) (k : Phase) : 1 ≤ c.bound k ∧ c.bound k < 2 ^ 32 := by
  simp only [Config.wf, Phase.all, List.all_cons, List.all_nil, Bool.and_true, Bool.and_eq_true, decide_eq_true_eq] at h
  obtain ⟨h, -⟩ := h
  cases k <;> simp only [Config.bound] at h ⊢ <;> omega

theorem Word.toNat_succ {i : Word} {n : Nat} (h : i.toNat + 1 < n) (hn : n < 2 ^ 32) :
    (i + 1).toNat = i.toNat + 1 := by
  rw [BitVec.toNat_add]; simp; omega

theorem Running.ok_congr {cfg : Config} {U V : UnitState} {run : Running} (hc : V.cls = U.cls)
    (hb : V.buf.size = U.buf.size) (h : run.ok cfg U) : run.ok cfg V := by
  have hf : ∀ f : Family, ∀ req, f.holdsFor V req ↔ f.holdsFor U req := by
    intro f req; cases f <;> simp [Family.holdsFor, hc, hb]
  have hs : ∀ site : CallSite, site.regsOk cfg V run ↔ site.regsOk cfg U run := by
    intro site; cases site <;> simp [CallSite.regsOk, hc]
  unfold Running.ok at h ⊢
  split at h <;> simp_all

/-- What holds of an action at a legal position. -/
structure ActOk (cfg : Config) (U : UnitState) (run : Running) (a : Action) : Prop where
  diag : ∀ k i, a.diag = some (k, i) → i.toNat < cfg.bound k
  store : ∀ k v, a.store = some (k, v) → k < U.buf.size
  next : ∀ run', a.agent = .running run' → run'.req = run.req ∧ run'.ok cfg (U.after a)

theorem UnitState.after_size (U : UnitState) (a : Action) : (U.after a).buf.size = U.buf.size := by
  simp only [UnitState.after_buf]; cases a.store with
  | none => rfl
  | some x => rfl

theorem ActOk.of {cfg U run} {a : Action} {next : Pos × Work} (ha : a.agent = run.at next) (hc : a.cls = none)
    (hd : ∀ k i, a.diag = some (k, i) → i.toNat < cfg.bound k) (hs : ∀ k v, a.store = some (k, v) → k < U.buf.size)
    (h : Running.ok cfg U ⟨run.req, next.1, next.2⟩) : ActOk cfg U run a := by
  refine ⟨hd, hs, fun run' hr => ?_⟩
  rw [ha, Running.at_eq] at hr
  injection hr with hr
  subst hr
  exact ⟨rfl, Running.ok_congr (by simp [hc]) (U.after_size a) h⟩

theorem ActOk.go {cfg U run} {prim : Prim} {next : Pos × Work}
    (h : Running.ok cfg U ⟨run.req, next.1, next.2⟩) : ActOk cfg U run (run.go prim next) :=
  .of rfl rfl (by simp) (by simp) h

variable {cfg : Config} {U : UnitState} {req : Request}

theorem enterCall_ok (hw : cfg.wf = true) (site : CallSite) (w : Work) (hf : site.family.holdsFor U req)
    (hr : ∀ pos w', w' = w ∨ w' = { w with i := some 0 } → site.regsOk cfg U ⟨req, pos, w'⟩) :
    Running.ok cfg U ⟨req, (enterCall site w).1, (enterCall site w).2⟩ := by
  have hb := (Config.bound_pos hw .waitCmd).1
  simp only [Config.bound] at hb
  unfold enterCall
  split
  · refine ⟨hf, hr _ _ (.inl rfl), ?_⟩
    simp [XPos.regsOk]
  · rename_i hc
    refine ⟨hf, hr _ _ (.inr rfl), hc, 0, rfl, ?_⟩
    simp; omega

theorem enterWait_ok (hw : cfg.wf = true) (site : WaitSite) (w : Work) (hf : site.family.holdsFor U req)
    (hr : site.regsOk ⟨req, .wait site, { w with i := some 0 }⟩) :
    Running.ok cfg U ⟨req, (enterWait site w).1, (enterWait site w).2⟩ := by
  have hb := (Config.bound_pos hw site.phase).1
  exact ⟨hf, hr, 0, rfl, by simp; omega⟩

theorem afterCall_ok (hw : cfg.wf = true) (site : CallSite) (x : XPos) (r : Byte) (w : Work)
    (hf : site.family.holdsFor U req) (hr : site.regsOk cfg U ⟨req, .call site x, w⟩) (hwr : w.r = some r) :
    ∃ next, afterCall req site r w = .ok next ∧ Running.ok cfg U ⟨req, next.1, next.2⟩ := by
  cases site with
  | reset =>
    obtain ⟨j, hj, hlt⟩ := hr
    simp only at hj
    simp only [afterCall, hj, need_some]
    have hj1 : (j + 1).toNat = j.toNat + 1 := Word.toNat_succ (n := 10) (by simp [resetAttempts] at hlt; omega) (by omega)
    split
    · exact ⟨_, rfl, hf, r, hwr⟩
    · rename_i hn
      refine ⟨_, rfl, enterCall_ok hw _ _ hf ?_⟩
      rintro pos w' (rfl | rfl)
      · refine ⟨j + 1, rfl, ?_⟩
        simp only [Bool.or_eq_true, decide_eq_true_eq, not_or] at hn; omega
      · refine ⟨j + 1, rfl, ?_⟩
        simp only [Bool.or_eq_true, decide_eq_true_eq, not_or] at hn; omega
  | probe =>
    simp only [afterCall]
    split
    · exact ⟨_, rfl, hf, .inl rfl⟩
    · exact ⟨_, rfl, hf, by simp [trailingBytes]⟩
  | negPrefix =>
    refine ⟨_, rfl, enterCall_ok hw _ _ hf ?_⟩
    rintro pos w' (rfl | rfl) <;> exact hr
  | negCond => exact ⟨_, rfl, hf, hr.1, ⟨r, hwr⟩, hr.2⟩
  | ocr =>
    simp only [afterCall]
    split
    · exact ⟨_, rfl, hf, hr, by simp [trailingBytes], by simp⟩
    · exact ⟨_, rfl, by simp, .init, hf, rfl⟩
  | capacity =>
    simp only [afterCall]
    split
    · exact ⟨_, rfl, enterWait_ok hw _ _ hf hr⟩
    · exact ⟨_, rfl, by simp, .init, hf, rfl⟩
  | readStart =>
    simp only [afterCall]
    split
    · refine ⟨_, rfl, enterWait_ok hw _ _ hf ⟨req.count, 0, rfl, rfl, hf.2.2.1, by simp⟩⟩
    · exact ⟨_, rfl, by simp, .read, hf, rfl⟩
  | readStop => exact ⟨_, rfl, .inl hf⟩
  | writePrefix =>
    refine ⟨_, rfl, enterCall_ok hw _ _ hf ?_⟩
    rintro pos w' (rfl | rfl) <;> exact hr
  | writeErase =>
    simp only [afterCall]
    split
    · refine ⟨_, rfl, enterCall_ok hw _ _ hf ?_⟩
      rintro pos w' (rfl | rfl) <;> exact hr.1
    · exact ⟨_, rfl, by simp, .write, hf, rfl⟩
  | writeStart =>
    simp only [afterCall]
    split
    · exact ⟨_, rfl, hf⟩
    · exact ⟨_, rfl, by simp, .write, hf, rfl⟩

theorem argument_isSome {site : CallSite} {run : Running} (hr : site.regsOk cfg U run) :
    ∃ arg, site.argument run.work = some arg := by
  cases site <;> simp only [CallSite.argument, CallSite.regsOk] at hr ⊢ <;> try exact ⟨_, rfl⟩
  · obtain ⟨h | h, -⟩ := hr <;> simp [h]
  · exact ⟨_, hr⟩
  · exact ⟨_, hr.2⟩
  · exact ⟨_, hr⟩

theorem regsOk_of_work {site : CallSite} {pos pos' : Pos} {w : Work} {b i : _} {ok : _} {r : _}
    (h : site.regsOk cfg U ⟨req, pos, w⟩) :
    site.regsOk cfg U ⟨req, pos', { w with b := b, i := i, ok := ok, r := r }⟩ := by
  cases site <;> exact h

theorem sectorShare_toNat (rem : Word) : (sectorShare rem).toNat = min rem.toNat 512 := by
  simp only [sectorShare, sectorBytes, BitVec.toNat_ofNat]; omega

theorem pollStep_okay {run : Running} {k : Phase} {cond : Bool} {b : Byte}
    {onHit onExpired : Work → Except Fault (Pos × Work)} (hw : cfg.wf = true)
    (hi : ∃ i, run.work.i = some i ∧ i.toNat < cfg.bound k)
    (hhit : cond = true → ∃ next, onHit { run.work with b := some b, ok := some true } = .ok next ∧
      Running.ok cfg U ⟨run.req, next.1, next.2⟩)
    (hagain : ∀ i : Word, i.toNat < cfg.bound k → 
      Running.ok cfg U ⟨run.req, run.pos, { run.work with b := some b, i := some i }⟩)
    (hexp : cond = false → ∃ next, onExpired { run.work with b := some b, ok := some false } = .ok next ∧
      Running.ok cfg U ⟨run.req, next.1, next.2⟩) :
    ∃ a, pollStep cfg run k cond b onHit onExpired = .ok a ∧ ActOk cfg U run a := by
  obtain ⟨i, hi, hlt⟩ := hi
  cases hc : cond with
  | true =>
    obtain ⟨next, hn, hok⟩ := hhit hc
    refine ⟨_, pollStep_hit hi hn, .of rfl rfl (fun k' i' h => ?_) (by simp) hok⟩
    simp only [Option.some.injEq, Prod.mk.injEq] at h
    obtain ⟨rfl, rfl⟩ := h; exact hlt
  | false =>
    by_cases hb : i.toNat + 1 < cfg.bound k
    · refine ⟨_, pollStep_again hi hb, .go (hagain _ ?_)⟩
      rw [Word.toNat_succ hb (Config.bound_pos hw k).2]; exact hb
    · obtain ⟨next, hn, hok⟩ := hexp hc
      exact ⟨_, pollStep_expired hi (by omega) hn, .go hok⟩

theorem csdFilled_set {w : Work} {n : Nat} {b : Byte} (h : w.csdFilled n) :
    Work.csdFilled { w with csd := w.csd.setIfInBounds n (some b) } (n + 1) := by
  intro k hk hlt
  simp only [Vector.getElem_setIfInBounds]
  split
  · rfl
  · exact h k hk (by omega)

theorem nextBufferIndex_toNat {p : Word} {m : BitVec 10} (h : p.toNat + m.toNat < 2 ^ 32) :
    (nextBufferIndex p m).toNat = p.toNat + m.toNat := by
  simp only [nextBufferIndex, BitVec.toNat_add, BitVec.toNat_setWidth]
  have := m.isLt
  omega

theorem lessOneSector_toNat {rem : Word} (h : 512 < rem.toNat) : (lessOneSector rem).toNat = rem.toNat - 512 := by
  simp only [lessOneSector, sectorBytes, BitVec.toNat_sub, BitVec.toNat_ofNat]; omega

/-- Sixteen CSD registers that hold values are a CSD (42_capacity.md R211). -/
theorem allCsd_of {v : Vector (Option Byte) 16} {csd : Csd} (h : ∀ (k : Nat) (hk : k < 16), v[k] = some csd[k]) :
    allCsd v = some csd := by
  unfold allCsd
  rw [if_pos]
  · congr 1
    ext k hk
    interval_cases k <;> simp [h]
  · rw [List.all_eq_true]
    intro x hx
    obtain ⟨k, hk, rfl⟩ := List.mem_iff_getElem.1 hx
    simp only [Vector.length_toList] at hk
    simp [h k hk]

/-- Every register a legal position reads holds a value, and the next position is legal (10_state.md R38,
R41; 20_memory.md R72). -/
theorem act_ok (hw : cfg.wf = true) {run : Running} (h : run.ok cfg U) (free : Word) (b : Byte) :
    ∃ a, act cfg U.buf free b run = .ok a ∧ ActOk cfg U run a := by
  obtain ⟨req, pos, w⟩ := run
  cases pos with
  | rateSlow => exact ⟨_, rfl, .go h⟩
  | desPower => exact ⟨_, rfl, .go ⟨h, by simp [resetFiller]⟩⟩
  | powerFiller n =>
    refine ⟨_, rfl, .go ?_⟩
    split
    · exact ⟨h.1, by assumption⟩
    · exact h.1
  | selReset =>
    refine ⟨_, rfl, .go (enterCall_ok hw _ _ h ?_)⟩
    rintro pos w' (rfl | rfl) <;> exact ⟨0, rfl, by simp [resetAttempts]⟩
  | desReset =>
    obtain ⟨hf, r, hr⟩ := h
    simp only at hr
    simp only [act, actDesReset, hr, need_some]
    refine ⟨_, rfl, .go ?_⟩
    split
    · exact hf
    · exact .inr ⟨rfl, .init, hf, rfl, by simp⟩
  | selProbe =>
    refine ⟨_, rfl, .go (enterCall_ok hw _ _ h ?_)⟩
    rintro pos w' (rfl | rfl) <;> trivial
  | echo n =>
    refine ⟨_, rfl, .go ?_⟩
    split
    · exact ⟨h.1, by assumption⟩
    · split
      · exact ⟨h.1, .inr rfl⟩
      · exact ⟨by simp, .init, h.1, rfl⟩
  | desProbe => 
    refine ⟨_, rfl, .go ⟨h.1, h.2, 0, rfl, ?_⟩⟩
    have := (Config.bound_pos hw .sendOp).1
    simp only [Config.bound] at this; simp; omega
  | selNeg =>
    refine ⟨_, rfl, .go (enterCall_ok hw _ _ h.1 ?_)⟩
    rintro pos w' (rfl | rfl) <;> exact h.2
  | desNeg =>
    obtain ⟨hf, hp, ⟨r, hr⟩, j, hj, hlt⟩ := h
    have hb := Config.bound_pos hw .sendOp
    simp only [Config.bound] at hb
    obtain ⟨c, hc, hcu⟩ : ∃ c, w.c = some c ∧ (c = .mmcSdv1 ∨ c = .sdv2) := by
      rcases hp with hp | hp
      · exact ⟨_, hp, .inl rfl⟩
      · exact ⟨_, hp, .inr rfl⟩
    simp only at hr hj
    simp only [act, actDesNeg, hr, hj, hc, need_some]
    split
    · refine ⟨_, rfl, .of rfl rfl (fun k' i' h => ?_) (by simp) ?_⟩
      · simp only [Option.some.injEq, Prod.mk.injEq] at h
        obtain ⟨rfl, rfl⟩ := h; exact hlt
      rcases hcu with rfl | rfl
      · exact ⟨hf, _, hc, by simp⟩
      · exact ⟨hf, hc⟩
    · split
      · rename_i hlt'
        refine ⟨_, rfl, .go ⟨hf, by rcases hcu with rfl | rfl; exacts [.inl rfl, .inr rfl], j + 1, rfl, ?_⟩⟩
        rw [Word.toNat_succ hlt' hb.2]; exact hlt'
      · exact ⟨_, rfl, .go hf⟩
  | negTimeout => exact ⟨_, rfl, .go (.inr ⟨rfl, .init, h, rfl, by simp⟩)⟩
  | selOcr =>
    refine ⟨_, rfl, .go (enterCall_ok hw _ _ h.1 ?_)⟩
    rintro pos w' (rfl | rfl) <;> exact h.2
  | ocr n =>
    obtain ⟨hf, hc, hn, ht⟩ := h
    refine ⟨_, rfl, .go ?_⟩
    have h0 : ((w.t.setIfInBounds n (some b))[0]).isSome = true := by
      rw [Vector.getElem_setIfInBounds]
      split
      · rfl
      · exact ht (by simp only at *; omega)
    split
    · exact ⟨hf, hc, by assumption, fun _ => h0⟩
    · exact ⟨hf, hc, h0⟩
  | desOcr =>
    obtain ⟨hf, hc, ht⟩ := h
    obtain ⟨t0, ht0⟩ := Option.isSome_iff_exists.1 ht
    simp only at ht0
    simp only [act, actDesOcr, ht0, need_some]
    refine ⟨_, rfl, .go ⟨hf, ?_⟩⟩
    split
    · exact ⟨_, rfl, by simp⟩
    · exact ⟨_, hc, by simp⟩
  | rateFast => exact ⟨_, rfl, .go h⟩
  | selCap =>
    refine ⟨_, rfl, .go (enterCall_ok hw _ _ h.1 ?_)⟩
    rintro pos w' (rfl | rfl) <;> exact h.2
  | csd n =>
    obtain ⟨hf, hc, hn, hfl⟩ := h
    refine ⟨_, rfl, .go ?_⟩
    split
    · exact ⟨hf, hc, by assumption, csdFilled_set hfl⟩
    · refine ⟨hf, hc, by simp [checksumBytes], fun k hk hlt => csdFilled_set hfl k hk (by simp [csdBytes] at *; omega)⟩
  | csdSum n =>
    refine ⟨_, rfl, .go ?_⟩
    split
    · exact ⟨h.1, h.2.1, by assumption, h.2.2.2⟩
    · exact ⟨h.1, h.2.1, h.2.2.2⟩
  | desCap =>
    obtain ⟨hf, hc, hfl⟩ := h
    have hall : allCsd w.csd = some (w.csd.map fun b => b.getD 0) := by
      refine allCsd_of fun k hk => ?_
      obtain ⟨x, hx⟩ := Option.isSome_iff_exists.1 (hfl k hk hk)
      simp only at hx
      simp [hx]
    simp only [act, actDesCap, hall, need_some]
    split
    · exact ⟨_, rfl, .go (.inr ⟨rfl, .init, hf, rfl, by simp⟩)⟩
    · rename_i hn
      obtain ⟨c, hc, hcu⟩ := hc
      simp only at hc
      simp only [hc, need_some]
      refine ⟨_, rfl, by simp, by simp, fun run' hr => ?_⟩
      rw [Running.at_eq] at hr
      injection hr with hr
      subst hr
      exact ⟨rfl, .inl ⟨hf.1, rfl, hcu, hn⟩⟩
  | selRead =>
    refine ⟨_, rfl, .go (enterCall_ok hw _ _ h.1 ?_)⟩
    rintro pos w' (rfl | rfl) <;> exact h.2
  | readPayload k =>
    obtain ⟨hf, ⟨rem, p, hrem, hp, h1, hsum⟩, ⟨rem', hrem', hm⟩, hk⟩ := h
    simp only at hrem hp hrem' hm hk hsum
    rw [hrem] at hrem'; injection hrem' with hrem'; subst hrem'
    have hnext : Running.ok cfg U ⟨req, if k + 1 < sectorBytes then .readPayload (k + 1) else .readSum 0, w⟩ := by
      split
      · exact ⟨hf, ⟨rem, p, hrem, hp, h1, hsum⟩, ⟨rem, hrem, hm⟩, by assumption⟩
      · exact ⟨hf, ⟨rem, p, hrem, hp, h1, hsum⟩, ⟨rem, hrem, hm⟩, by simp [checksumBytes]⟩
    simp only [act, actReadPayload, hp, hm, need_some]
    split
    · rename_i hkm
      have hsz : req.count.toNat ≤ U.buf.size := hf.2.2.2
      rw [sectorShare_toNat] at hkm
      rw [if_pos (by omega)]
      refine ⟨_, rfl, .of rfl rfl (by simp) (fun k' v hkv => ?_) hnext⟩
      simp only [Option.some.injEq, Prod.mk.injEq] at hkv
      obtain ⟨rfl, -⟩ := hkv; omega
    · exact ⟨_, rfl, .of rfl rfl (by simp) (by simp) hnext⟩
  | readSum n =>
    obtain ⟨hf, ⟨rem, p, hrem, hp, h1, hsum⟩, ⟨rem', hrem', hm⟩, hn⟩ := h
    simp only at hrem hp hrem' hm hsum
    rw [hrem] at hrem'; injection hrem' with hrem'; subst hrem'
    simp only [act, actReadSum]
    split
    · exact ⟨_, rfl, .go ⟨hf, ⟨rem, p, hrem, hp, h1, hsum⟩, ⟨rem, hrem, hm⟩, by assumption⟩⟩
    · simp only [hp, hm, hrem, need_some]
      refine ⟨_, rfl, .go ?_⟩
      have hcount := req.count.isLt
      split
      · rename_i hmore
        replace hmore : 512 < rem.toNat := of_decide_eq_true hmore
        refine enterWait_ok hw _ _ hf ⟨lessOneSector rem, _, rfl, rfl, ?_, ?_⟩
        · rw [lessOneSector_toNat hmore]; omega
        · rw [lessOneSector_toNat hmore, nextBufferIndex_toNat (by rw [sectorShare_toNat]; omega), sectorShare_toNat]
          simp only; omega
      · refine enterCall_ok hw _ _ hf ?_
        rintro pos w' (rfl | rfl) <;> trivial
  | selWrite =>
    refine ⟨_, rfl, .go (enterCall_ok hw _ _ h.1 ?_)⟩
    rintro pos w' (rfl | rfl) <;> exact h.2
  | desSetup => exact ⟨_, rfl, .go ⟨h, req.count, 0, rfl, rfl, h.2.2.1, by simp⟩⟩
  | selSector => exact ⟨_, rfl, .go (enterWait_ok hw _ _ h.1 h.2)⟩
  | wstartToken =>
    obtain ⟨hf, rem, p, hrem, hp, h1, hsum⟩ := h
    simp only at hrem hp
    simp only [act, actWstart, hrem, need_some]
    exact ⟨_, rfl, .go ⟨hf, ⟨rem, p, rfl, hp, h1, hsum⟩, ⟨rem, rfl, rfl⟩, by simp [sectorBytes]⟩⟩
  | writePayload k =>
    obtain ⟨hf, ⟨rem, p, hrem, hp, h1, hsum⟩, ⟨rem', hrem', hm⟩, hk⟩ := h
    simp only at hrem hp hrem' hm hk hsum
    rw [hrem] at hrem'; injection hrem' with hrem'; subst hrem'
    have hnext : Running.ok cfg U ⟨req, if k + 1 < sectorBytes then .writePayload (k + 1) else .writeSum 0, w⟩ := by
      split
      · exact ⟨hf, ⟨rem, p, hrem, hp, h1, hsum⟩, ⟨rem, hrem, hm⟩, by assumption⟩
      · exact ⟨hf, ⟨rem, p, hrem, hp, h1, hsum⟩, ⟨rem, hrem, hm⟩, by simp [checksumBytes]⟩
    simp only [act, actWritePayload, hp, hm, need_some]
    split
    · rename_i hkm
      have hsz : req.count.toNat ≤ U.buf.size := hf.2.2.2
      rw [sectorShare_toNat] at hkm
      have hld : U.buf.load (p.toNat + k) = some (U.buf.mem.read (p.toNat + k)) := by
        unfold HostBuf.load; rw [if_pos (by omega)]
      rw [hld]
      exact ⟨_, rfl, .go hnext⟩
    · exact ⟨_, rfl, .go hnext⟩
  | writeSum n =>
    refine ⟨_, rfl, .go ?_⟩
    split
    · exact ⟨h.1, h.2.1, h.2.2.1, by assumption⟩
    · exact ⟨h.1, h.2.1, h.2.2.1⟩
  | dataResp =>
    refine ⟨_, rfl, .go ?_⟩
    split
    · exact enterWait_ok hw _ _ h.1 h.2
    · exact ⟨by simp, .write, h.1, rfl⟩
  | desSector =>
    obtain ⟨hf, ⟨rem, p, hrem, hp, h1, hsum⟩, ⟨rem', hrem', hm⟩⟩ := h
    simp only at hrem hp hrem' hm hsum
    rw [hrem] at hrem'; injection hrem' with hrem'; subst hrem'
    simp only [act, actDesSector, hp, hm, hrem, need_some]
    refine ⟨_, rfl, .go ?_⟩
    have hcount := req.count.isLt
    split
    · rename_i hmore
      replace hmore : 512 < rem.toNat := of_decide_eq_true hmore
      refine ⟨hf, lessOneSector rem, _, rfl, rfl, ?_, ?_⟩
      · rw [lessOneSector_toNat hmore]; omega
      · rw [lessOneSector_toNat hmore, nextBufferIndex_toNat (by rw [sectorShare_toNat]; omega), sectorShare_toNat]
        simp only; omega
    · exact hf
  | selStop => exact ⟨_, rfl, .go (enterWait_ok hw _ _ h trivial)⟩
  | wstopToken => exact ⟨_, rfl, .go (enterWait_ok hw _ _ h trivial)⟩
  | desDone =>
    refine ⟨_, rfl, .go (.inr ⟨rfl, ?_⟩)⟩
    rcases h with h | h
    · exact ⟨.read, h, rfl, by simp⟩
    · exact ⟨.write, h, rfl, by simp⟩
  | desFail e =>
    obtain ⟨he, f, hf, hal⟩ := h
    exact ⟨_, rfl, .go (.inr ⟨rfl, f, hf, hal, fun _ => he⟩)⟩
  | call site x =>
    obtain ⟨hf, hr, hx⟩ := h
    have ret : ∀ w', (∀ x', site.regsOk cfg U ⟨req, .call site x', w'⟩) → w'.b.isSome = true →
        ∃ next, returnStatus req site w' = .ok next ∧ Running.ok cfg U ⟨req, next.1, next.2⟩ := by
      intro w' hr' hb'
      obtain ⟨b', hb'⟩ := Option.isSome_iff_exists.1 hb'
      simp only [returnStatus, hb', need_some]
      refine afterCall_ok hw site .resp b' _ hf ?_ rfl
      have := hr' .resp
      cases site <;> exact this
    cases x with
    | preWait =>
      simp only [act, actCall]
      refine pollStep_okay (run := ⟨req, .call site .preWait, w⟩) hw hx.2 (fun _ => ⟨_, rfl, hf, regsOk_of_work hr, by simp [XPos.regsOk]⟩)
        (fun i hi => ⟨hf, regsOk_of_work hr, hx.1, i, rfl, hi⟩)
        (fun _ => ⟨_, rfl, hf, regsOk_of_work hr, hx.1⟩)
    | preTimeout => exact ⟨_, rfl, .go ⟨hf, regsOk_of_work hr, by simp [XPos.regsOk]⟩⟩
    | frame k =>
      obtain ⟨arg, harg⟩ := argument_isSome hr
      simp only at harg
      simp only [act, actCall, harg, need_some]
      refine ⟨_, rfl, .go ?_⟩
      split
      · rename_i hk; exact ⟨hf, regsOk_of_work hr, show k + 1 < 6 by omega⟩
      · refine ⟨hf, regsOk_of_work hr, 0, rfl, ?_⟩
        have := (Config.bound_pos hw .cmd).1
        simp only [Config.bound] at this; simp; omega
    | resp =>
      simp only [act, actCall]
      refine pollStep_okay (run := ⟨req, .call site .resp, w⟩) hw hx (fun _ => ret _ (fun _ => regsOk_of_work hr) rfl)
        (fun i hi => ⟨hf, regsOk_of_work hr, i, rfl, hi⟩) (fun hc => ?_)
      split
      · exact ret _ (fun _ => regsOk_of_work hr) rfl
      · rename_i hne
        refine ⟨_, rfl, hf, regsOk_of_work hr, hne, b, rfl, ?_⟩
        simpa [isStatus] using hc
    | respTimeout =>
      obtain ⟨hne, b', hb', -⟩ := hx
      obtain ⟨next, hn, hok⟩ := ret w (fun _ => regsOk_of_work hr) (by simp only at hb'; simp [hb'])
      simp only [act, actCall, hn]
      exact ⟨_, rfl, .go hok⟩
  | wait site =>
    obtain ⟨hf, hr, hi⟩ := h
    have hr' : ∀ pos b i o, site.regsOk ⟨req, pos, { w with b := b, i := i, ok := o }⟩ := by
      intro pos b i o; cases site <;> exact hr
    simp only [act, actWait]
    refine pollStep_okay (run := ⟨req, .wait site, w⟩) hw hi (fun _ => ?_) (fun i hi => ⟨hf, hr' _ _ _ _, i, rfl, hi⟩) (fun _ => ⟨_, rfl, hf⟩)
    cases site with
    | csd => exact ⟨_, rfl, hf, hr, by simp [csdBytes], fun k hk hlt => by omega⟩
    | readStart =>
      obtain ⟨rem, p, hrem, hp, h1, hsum⟩ := hr
      simp only at hrem hp
      simp only [afterWait, hrem, need_some]
      exact ⟨_, rfl, hf, ⟨rem, p, rfl, hp, h1, hsum⟩, ⟨rem, rfl, rfl⟩, by simp [sectorBytes]⟩
    | wdata => exact ⟨_, rfl, hf, hr⟩
    | wdone => exact ⟨_, rfl, hf, hr⟩
    | wstop => exact ⟨_, rfl, hf⟩
    | widle => exact ⟨_, rfl, .inr hf⟩
  | waitTimeout site =>
    refine ⟨_, rfl, .go ⟨by cases site <;> simp [WaitSite.failure], site.family, h, ?_⟩⟩
    cases site <;> rfl
  | respond status value =>
    exact ⟨_, rfl, by simp [actRespond], by simp [actRespond], by simp [actRespond]⟩

end Sys2Proof.Machine
end

