-- ==== Sys2Proof/Laws/Cost.lean ====
section
/-! SUPPORT. A primitive's cost and the cost to come after it are at most the cost before it
(70_reset_and_hazards.md R340, R341), at every legal position. -/

namespace Sys2Proof.Machine

theorem sub_mul_step {m n x : Nat} (h : n < m) : (m - n) * x = x + (m - (n + 1)) * x := by
  obtain ⟨d, rfl⟩ : ∃ d, m = n + 1 + d := ⟨m - (n+1), by omega⟩
  have h1 : n + 1 + d - n = d + 1 := by omega
  have h2 : n + 1 + d - (n + 1) = d := by omega
  rw [h1, h2, Nat.add_mul, Nat.one_mul, Nat.add_comm]

variable (wt : Weights) {cfg : Config} {U : UnitState} {req : Request}

theorem enterCall_cost (site : CallSite) (w : Work) :
    Running.cost wt cfg ⟨req, (enterCall site w).1, (enterCall site w).2⟩ = sendCost wt cfg site.command + site.afterCost wt cfg (sectorsLeft req.count.toNat) (w.j.getD 0).toNat := by
  unfold enterCall
  split
  · rename_i h
    simp only [Running.cost, sendCost, callCost, h, if_true]
  · rename_i h
    simp only [Running.cost, sendCost, callCost, h, if_false, Option.getD_some]
    congr 1

theorem sectorsLeft_pos {n : Nat} (h : 1 ≤ n) : 1 ≤ sectorsLeft n := by
  unfold sectorsLeft sectorBytes; omega
theorem sectorsLeft_more {n : Nat} (h : 512 < n) : sectorsLeft n = sectorsLeft (n - 512) + 1 := by
  unfold sectorsLeft sectorBytes; omega

theorem afterCall_cost (site : CallSite) (r : Byte) (w : Work) {next : Pos × Work}
    (hr : site.regsOk cfg U ⟨req, .rateSlow, w⟩) 
    (hf : site.family.holdsFor U req)
    (h : afterCall req site r w = .ok next) :
    Running.cost wt cfg ⟨req, next.1, next.2⟩ ≤ site.afterCost wt cfg (sectorsLeft req.count.toNat) (w.j.getD 0).toNat := by
  cases site with
  | reset =>
    obtain ⟨j, hj, hlt⟩ := hr
    simp only at hj
    simp only [afterCall, hj, need_some] at h
    split at h
    · injection h with h; subst h
      simp only [Running.cost, CallSite.afterCost]; omega
    · rename_i hn
      injection h with h; subst h
      rw [enterCall_cost]
      simp only [CallSite.afterCost, CallSite.command, hj, Option.getD_some]
      have hj1 : (j + 1).toNat = j.toNat + 1 := Word.toNat_succ (n := 10) (by simp [resetAttempts] at hlt; omega) (by omega)
      rw [hj1]
      simp only [Bool.or_eq_true, decide_eq_true_eq, not_or] at hn
      have := sub_mul_step (m := resetAttempts) (n := j.toNat + 1) (x := sendCost wt cfg .cmd0) (by omega)
      omega
  | probe =>
    simp only [afterCall] at h
    split at h <;> (injection h with h; subst h; simp [Running.cost, CallSite.afterCost, trailingBytes])
  | negPrefix =>
    simp only [afterCall] at h
    injection h with h; subst h
    rw [enterCall_cost]
    simp only [CallSite.afterCost, CallSite.command]; omega
  | negCond =>
    simp only [afterCall] at h
    injection h with h; subst h
    simp [Running.cost, CallSite.afterCost]
  | ocr =>
    simp only [afterCall] at h
    split at h <;> (injection h with h; subst h; simp [Running.cost, CallSite.afterCost, trailingBytes, failSelected])
    unfold desOcrCost rateFastCost selCapCost csdWaitCost capTailCost; omega
  | capacity =>
    simp only [afterCall] at h
    split at h <;> (injection h with h; subst h; simp [Running.cost, CallSite.afterCost, enterWait, failSelected])
    unfold csdWaitCost capTailCost; omega
  | readStart =>
    simp only [afterCall] at h
    split at h <;> (injection h with h; subst h; simp only [Running.cost, CallSite.afterCost, enterWait, failSelected, Option.getD_some])
    · have := sectorsLeft_pos (n := req.count.toNat) hf.2.2.1
      unfold readAfterSector
      have h1 := sub_mul_step (m := sectorsLeft req.count.toNat) (n := 0) (x := readSectorCost wt cfg) (by omega)
      simp only [Nat.sub_zero, Nat.zero_add] at h1
      rw [h1]
      unfold readSectorCost
      simp; omega
    · unfold readTailCost; omega
  | readStop =>
    simp only [afterCall] at h
    injection h with h; subst h
    simp [Running.cost, CallSite.afterCost]
  | writePrefix =>
    simp only [afterCall] at h
    injection h with h; subst h
    rw [enterCall_cost]
    simp only [CallSite.afterCost, CallSite.command]; omega
  | writeErase =>
    simp only [afterCall] at h
    split at h
    · injection h with h; subst h
      rw [enterCall_cost]
      simp only [CallSite.afterCost, CallSite.command]; omega
    · injection h with h; subst h
      simp only [Running.cost, CallSite.afterCost, failSelected]
      unfold selStopCost writeStopCost; omega
  | writeStart =>
    simp only [afterCall] at h
    split at h <;> (injection h with h; subst h; simp only [Running.cost, CallSite.afterCost, failSelected])
    · omega
    · unfold selStopCost writeStopCost; omega

theorem regsOk_pos {site : CallSite} {pos pos' : Pos} {w : Work} (h : site.regsOk cfg U ⟨req, pos, w⟩) :
    site.regsOk cfg U ⟨req, pos', w⟩ := by cases site <;> exact h

theorem pollStep_cost {run : Running} {k : Phase} {cond : Bool} {b : Byte}
    {onHit onExpired : Work → Except Fault (Pos × Work)} {a : Action} (hw : cfg.wf = true)
    (hi : ∃ i, run.work.i = some i ∧ i.toNat < cfg.bound k) {C : Nat → Nat}
    (hcur : ∀ i, run.work.i = some i → run.cost wt cfg = C i.toNat)
    (hstep : ∀ n, n < cfg.bound k → wt.x + C (n+1) ≤ C n)
    (hagain : ∀ i : Word, Running.cost wt cfg ⟨run.req, run.pos, { run.work with b := some b, i := some i }⟩ = C i.toNat)
    (hhit : ∀ next n, n < cfg.bound k → onHit { run.work with b := some b, ok := some true } = .ok next →
      Running.cost wt cfg ⟨run.req, next.1, next.2⟩ ≤ C (n + 1))
    (hexp : cond = false → ∀ next n, n < cfg.bound k → onExpired { run.work with b := some b, ok := some false } = .ok next →
      Running.cost wt cfg ⟨run.req, next.1, next.2⟩ ≤ C (n + 1))
    (h : pollStep cfg run k cond b onHit onExpired = .ok a) :
    a.prim.cost wt + a.agent.cost wt cfg ≤ run.cost wt cfg := by
  obtain ⟨i, hi, hlt⟩ := hi
  rw [hcur i hi]
  obtain ⟨i', hi', ⟨hc, next, hn, rfl⟩ | ⟨hc, hb, rfl⟩ | ⟨hc, hb, next, hn, rfl⟩⟩ := pollStep_ok h
  all_goals (rw [hi] at hi'; injection hi' with hi'; subst hi')
  · have := hhit next _ hlt hn
    have := hstep _ hlt
    simp only [Prim.cost, Prim.isExchange, if_true, Agent.cost, Running.at]; omega
  · have h1 := hagain (i + 1)
    rw [Word.toNat_succ hb (Config.bound_pos hw k).2] at h1
    have := hstep _ hlt
    simp only [Prim.cost, Prim.isExchange, if_true, Agent.cost, Running.go, Running.at, h1]; exact this
  · have := hexp hc next _ hlt hn
    have := hstep _ hlt
    simp only [Prim.cost, Prim.isExchange, if_true, Agent.cost, Running.go, Running.at]; omega

/-- The cost of a request only falls, by at least the cost of the primitive performed. -/
theorem act_cost (hw : cfg.wf = true) {run : Running} (hok : run.ok cfg U) {free : Word} {b : Byte} {a : Action}
    (h : act cfg U.buf free b run = .ok a) : a.prim.cost wt + a.agent.cost wt cfg ≤ run.cost wt cfg := by
  obtain ⟨req, pos, w⟩ := run
  cases pos with
  | rateSlow => injection h with h; subst h; simp only [actRateSlow, Running.go, Running.at, Prim.cost, Prim.isExchange, Agent.cost, Bool.false_eq_true, if_false, Running.cost]; (try omega)
  | desPower => injection h with h; subst h; simp only [actDesPower, Running.go, Running.at, Prim.cost, Prim.isExchange, Agent.cost, Bool.false_eq_true, if_false, Running.cost]; (try simp); (try omega)
  | powerFiller n =>
    injection h with h; subst h
    have := sub_mul_step (x := wt.x) hok.2
    simp only [actPowerFiller, Running.go, Running.at, Prim.cost, Prim.isExchange, Agent.cost, if_true]
    split <;> simp only [Running.cost] <;> omega
  | selReset =>
    injection h with h; subst h
    simp only [actSelReset, Running.go, Running.at, Prim.cost, Prim.isExchange, Agent.cost, Bool.false_eq_true, if_false, enterCall_cost]
    simp only [Running.cost, CallSite.command, CallSite.afterCost, selResetCost]
    simp [resetAttempts]; omega
  | desReset =>
    obtain ⟨r, hr, h⟩ := need_ok h
    injection h with h; subst h
    simp only [Running.go, Running.at, Prim.cost, Prim.isExchange, Agent.cost, Bool.false_eq_true, if_false]
    split <;> try simp [Running.cost, desResetCost, failDeselected]
    · simp [selProbeCost, desProbeCost, negCost]; omega
  | selProbe =>
    injection h with h; subst h
    simp only [actSelProbe, Running.go, Running.at, Prim.cost, Prim.isExchange, Agent.cost, Bool.false_eq_true, if_false, enterCall_cost]
    simp only [Running.cost, CallSite.command, CallSite.afterCost, selProbeCost]
    (try omega)
  | echo n =>
    injection h with h; subst h
    have := sub_mul_step (x := wt.x) hok.2
    simp only [actEcho, Running.go, Running.at, Prim.cost, Prim.isExchange, Agent.cost, if_true]
    split
    · simp only [Running.cost]; omega
    · split <;> simp only [Running.cost, failSelected]
      · omega
      · have : 2 * wt.o ≤ desProbeCost wt cfg := by unfold desProbeCost negCost; omega
        omega
  | desProbe =>
    injection h with h; subst h
    simp only [actDesProbe, Running.go, Running.at, Prim.cost, Prim.isExchange, Agent.cost, Bool.false_eq_true, if_false, Running.cost, desProbeCost]; try simp
  | selNeg =>
    injection h with h; subst h
    obtain ⟨-, -, j, hj, hlt⟩ := hok
    simp only at hj
    simp only [actSelNeg, Running.go, Running.at, Prim.cost, Prim.isExchange, Agent.cost, Bool.false_eq_true, if_false, enterCall_cost]
    simp only [Running.cost, CallSite.command, CallSite.afterCost, hj, Option.getD_some, negCost]
    have := sub_mul_step (x := 2 * wt.o + sendCost wt cfg .cmd55 + sendCost wt cfg .acmd41) hlt
    (try simp)
    (try omega)
  | desNeg =>
    obtain ⟨r, hr, h⟩ := need_ok h
    obtain ⟨j, hj, h⟩ := need_ok h
    obtain ⟨c, hc, h⟩ := need_ok h
    obtain ⟨-, -, -, j', hj', hlt⟩ := hok
    simp only at hj' hj
    rw [hj] at hj'; injection hj' with hj'; subst hj'
    split at h
    · injection h with h; subst h
      simp only [Running.at, Prim.cost, Prim.isExchange, Agent.cost, Bool.false_eq_true, if_false, afterNegotiation]
      split <;> simp only [Running.cost, hj, Option.getD_some, negCost] <;> try simp
      unfold selOcrCost desOcrCost; omega
    · split at h
      · rename_i hlt'
        injection h with h; subst h
        simp only [Running.go, Running.at, Prim.cost, Prim.isExchange, Agent.cost, Bool.false_eq_true, if_false, Running.cost, hj, Option.getD_some]
        have hw' := Config.bound_pos hw .sendOp
        rw [Word.toNat_succ hlt' hw'.2]; try simp
      · injection h with h; subst h
        simp only [Running.go, Running.at, Prim.cost, Prim.isExchange, Agent.cost, Bool.false_eq_true, if_false, Running.cost, negCost, selOcrCost, desOcrCost]; (try simp); (try omega)
  | negTimeout =>
    injection h with h; subst h
    simp only [actNegTimeout, Running.go, Running.at, Prim.cost, Prim.isExchange, Agent.cost, Bool.false_eq_true, if_false, Running.cost, failDeselected]; (try omega)
  | selOcr =>
    injection h with h; subst h
    simp only [actSelOcr, Running.go, Running.at, Prim.cost, Prim.isExchange, Agent.cost, Bool.false_eq_true, if_false, enterCall_cost]
    simp only [Running.cost, CallSite.command, CallSite.afterCost, selOcrCost]
    (try omega)
  | ocr n =>
    injection h with h; subst h
    have := sub_mul_step (x := wt.x) hok.2.2.1
    simp only [actOcr, Running.go, Running.at, Prim.cost, Prim.isExchange, Agent.cost, if_true]
    split <;> simp only [Running.cost] <;> omega
  | desOcr =>
    obtain ⟨r, hr, h⟩ := need_ok h
    injection h with h; subst h
    simp only [Running.go, Running.at, Prim.cost, Prim.isExchange, Agent.cost, Bool.false_eq_true, if_false, Running.cost, desOcrCost]; try simp
  | rateFast =>
    injection h with h; subst h
    simp only [actRateFast, Running.go, Running.at, Prim.cost, Prim.isExchange, Agent.cost, Bool.false_eq_true, if_false, Running.cost, rateFastCost]; try simp
  | selCap =>
    injection h with h; subst h
    simp only [actSelCap, Running.go, Running.at, Prim.cost, Prim.isExchange, Agent.cost, Bool.false_eq_true, if_false, enterCall_cost]
    simp only [Running.cost, CallSite.command, CallSite.afterCost, selCapCost]
    (try omega)
  | csd n =>
    injection h with h; subst h
    have := sub_mul_step (x := wt.x) hok.2.2.1
    simp only [actCsd, Running.go, Running.at, Prim.cost, Prim.isExchange, Agent.cost, if_true]
    split <;> simp only [Running.cost, checksumBytes] <;> omega
  | csdSum n =>
    injection h with h; subst h
    have := sub_mul_step (x := wt.x) hok.2.2.1
    simp only [actCsdSum, Running.go, Running.at, Prim.cost, Prim.isExchange, Agent.cost, if_true]
    split <;> simp only [Running.cost] <;> omega
  | desCap =>
    obtain ⟨r, hr, h⟩ := need_ok h
    simp only at h
    split at h
    · injection h with h; subst h
      simp only [Running.go, Running.at, Prim.cost, Prim.isExchange, Agent.cost, Bool.false_eq_true, if_false, Running.cost, failDeselected]; (try omega)
    · obtain ⟨c, hc, h⟩ := need_ok h
      injection h with h; subst h
      simp only [Running.at, Prim.cost, Prim.isExchange, Agent.cost, Bool.false_eq_true, if_false, Running.cost]; (try omega)
  | selRead =>
    injection h with h; subst h
    simp only [actSelRead, Running.go, Running.at, Prim.cost, Prim.isExchange, Agent.cost, Bool.false_eq_true, if_false, enterCall_cost]
    simp only [Running.cost, CallSite.command, CallSite.afterCost]
    (try omega)
  | readPayload k =>
    obtain ⟨p, hp, h⟩ := need_ok h
    obtain ⟨m, hm, h⟩ := need_ok h
    have hk := hok.2.2.2
    have := sub_mul_step (m := 514) (n := k) (x := wt.x) (by simp [sectorBytes] at hk; omega)
    have key : wt.x + Running.cost wt cfg ⟨req, if k + 1 < sectorBytes then .readPayload (k + 1) else .readSum 0, w⟩ ≤ Running.cost wt cfg ⟨req, .readPayload k, w⟩ := by
      split <;> simp only [Running.cost, checksumBytes]
      · omega
      · rename_i hk'
        have : k = 511 := by simp only [sectorBytes] at hk hk'; omega
        subst this; omega
    simp only at h
    split at h
    · split at h
      · injection h with h; subst h
        simpa [Running.at, Prim.cost, Prim.isExchange, Agent.cost, if_true, Bool.false_eq_true, if_false] using key
      · cases h
    · injection h with h; subst h
      simpa [Running.at, Prim.cost, Prim.isExchange, Agent.cost, if_true, Bool.false_eq_true, if_false] using key
  | readSum n =>
    obtain ⟨hf, ⟨rem, p, hrem, hp, h1, hsum⟩, ⟨rem', hrem', hm⟩, hn⟩ := hok
    simp only at hrem hp hrem' hm
    have hs := sub_mul_step (x := wt.x) hn
    simp only [act, actReadSum, hp, hm, hrem, need_some] at h
    split at h
    · injection h with h; subst h
      simp only [Running.go, Running.at, Prim.cost, Prim.isExchange, Agent.cost, if_true, Running.cost, if_true]; omega
    · injection h with h; subst h
      simp only [Running.go, Running.at, Prim.cost, Prim.isExchange, Agent.cost, if_true, if_true]
      split
      · rename_i hmore
        replace hmore : 512 < rem.toNat := of_decide_eq_true hmore
        have h2 := sectorsLeft_more hmore
        simp only [Running.cost, enterWait, Option.getD_some, hrem, readAfterSector, lessOneSector_toNat hmore, h2]
        have h3 := sectorsLeft_pos (n := rem.toNat - 512) (by omega)
        have h4 := sub_mul_step (m := sectorsLeft (rem.toNat - 512)) (n := 0) (x := readSectorCost wt cfg) (by omega)
        simp only [Nat.sub_zero, Nat.zero_add] at h4
        rw [Nat.add_sub_cancel, h4]
        have : readSectorCost wt cfg = (cfg.bRead - (0 : Word).toNat + 514) * wt.x := by simp [readSectorCost]
        omega
      · rw [enterCall_cost]
        simp only [Running.cost, CallSite.command, CallSite.afterCost, readAfterSector, readTailCost]
        omega
  | selWrite =>
    injection h with h; subst h
    simp only [actSelWrite, Running.go, Running.at, Prim.cost, Prim.isExchange, Agent.cost, Bool.false_eq_true, if_false, enterCall_cost]
    simp only [Running.cost, CallSite.command, CallSite.afterCost]
    (try omega)
  | desSetup =>
    injection h with h; subst h
    simp only [actDesSetup, Running.go, Running.at, Prim.cost, Prim.isExchange, Agent.cost, Bool.false_eq_true, if_false, Running.cost, Option.getD_some]; (try omega)
  | selSector =>
    injection h with h; subst h
    obtain ⟨hf, rem, p, hrem, hp, h1, hsum⟩ := hok
    simp only at hrem hp
    have h3 := sectorsLeft_pos h1
    have h4 := sub_mul_step (m := sectorsLeft rem.toNat) (n := 0) (x := writeSectorCost wt cfg) (by omega)
    simp only [Nat.sub_zero, Nat.zero_add] at h4
    simp only [actSelSector, Running.go, Running.at, Prim.cost, Prim.isExchange, Agent.cost, Bool.false_eq_true, if_false, Running.cost, enterWait, hrem, Option.getD_some, writeAfterSector, h4]
    simp only [writeSectorCost]
    (try simp)
    (try omega)
  | wstartToken =>
    obtain ⟨rem, hrem, h⟩ := need_ok h
    injection h with h; subst h
    simp only [Running.go, Running.at, Prim.cost, Prim.isExchange, Agent.cost, if_true, Running.cost, if_true]
    have := sub_mul_step (m := 516 + cfg.bWdone) (n := 0) (x := wt.x) (by omega)
    simp only [Nat.zero_add, Nat.sub_zero] at this
    have e : 516 + cfg.bWdone - 1 = 515 + cfg.bWdone := by omega
    rw [e] at this; (try simp); (try omega)
  | writePayload k =>
    obtain ⟨p, hp, h⟩ := need_ok h
    obtain ⟨m, hm, h⟩ := need_ok h
    have hk : k < 512 := hok.2.2.2
    have := sub_mul_step (m := 515 + cfg.bWdone) (n := k) (x := wt.x) (by omega)
    have key : wt.x + Running.cost wt cfg ⟨req, if k + 1 < sectorBytes then .writePayload (k + 1) else .writeSum 0, w⟩ ≤ Running.cost wt cfg ⟨req, .writePayload k, w⟩ := by
      have e1 : 515 - k + cfg.bWdone = 515 + cfg.bWdone - k := by omega
      have e2 : 515 - (k+1) + cfg.bWdone = 515 + cfg.bWdone - (k+1) := by omega
      split <;> simp only [Running.cost, e1, e2]
      · omega
      · rename_i hk'
        have : k = 511 := by simp only [sectorBytes] at hk'; omega
        subst this
        have e3 : 3 - 0 + cfg.bWdone = 515 + cfg.bWdone - (511 + 1) := by omega
        rw [e3]; omega
    simp only at h
    split at h
    · split at h
      · injection h with h; subst h
        simpa [Running.go, Running.at, Prim.cost, Prim.isExchange, Agent.cost, if_true, Bool.false_eq_true, if_false] using key
      · cases h
    · injection h with h; subst h
      simpa [Running.go, Running.at, Prim.cost, Prim.isExchange, Agent.cost, if_true, Bool.false_eq_true, if_false] using key
  | writeSum n =>
    injection h with h; subst h
    have hn : n < 2 := hok.2.2.2
    have hs := sub_mul_step (m := 3 + cfg.bWdone) (n := n) (x := wt.x) (by omega)
    have e1 : 3 - n + cfg.bWdone = 3 + cfg.bWdone - n := by omega
    have e2 : 3 - (n + 1) + cfg.bWdone = 3 + cfg.bWdone - (n+1) := by omega
    simp only [actWriteSum, Running.go, Running.at, Prim.cost, Prim.isExchange, Agent.cost, if_true, if_true]
    split <;> simp only [Running.cost, e1, e2]
    · omega
    · rename_i hk'
      have : n = 1 := by simp only [checksumBytes] at hk'; omega
      subst this
      have e3 : 1 + cfg.bWdone = 3 + cfg.bWdone - (1+1) := by omega
      rw [e3]; omega
  | dataResp =>
    injection h with h; subst h
    simp only [actDataResp, Running.go, Running.at, Prim.cost, Prim.isExchange, Agent.cost, if_true, if_true]
    have e : (1 + cfg.bWdone) * wt.x = wt.x + cfg.bWdone * wt.x := by rw [Nat.add_mul]; omega
    split <;> try simp [Running.cost, enterWait, failSelected, e]
    · omega
    · unfold writeAfterSector selStopCost; omega
  | desSector =>
    obtain ⟨hf, ⟨rem, p, hrem, hp, h1, hsum⟩, ⟨rem', hrem', hm⟩⟩ := hok
    simp only at hrem hp hrem' hm
    simp only [act, actDesSector, hp, hm, hrem, need_some] at h
    injection h with h; subst h
    simp only [Running.go, Running.at, Prim.cost, Prim.isExchange, Agent.cost, Bool.false_eq_true, if_false]
    split
    · rename_i hmore
      replace hmore : 512 < rem.toNat := of_decide_eq_true hmore
      have h2 := sectorsLeft_more hmore
      simp only [Running.cost, Option.getD_some, hrem, writeAfterSector, lessOneSector_toNat hmore, h2]
      simp
    · simp [Running.cost, writeAfterSector]
  | selStop =>
    injection h with h; subst h
    simp only [actSelStop, Running.go, Running.at, Prim.cost, Prim.isExchange, Agent.cost, Bool.false_eq_true, if_false, Running.cost, enterWait, Option.getD_some, selStopCost, writeStopCost]
    simp
  | wstopToken =>
    injection h with h; subst h
    simp only [actWstop, Running.go, Running.at, Prim.cost, Prim.isExchange, Agent.cost, if_true, Running.cost, enterWait, Option.getD_some]
    simp [Nat.add_mul]; omega
  | desDone =>
    injection h with h; subst h
    simp only [actDesDone, Running.go, Running.at, Prim.cost, Prim.isExchange, Agent.cost, Bool.false_eq_true, if_false, Running.cost]; (try omega)
  | desFail e =>
    injection h with h; subst h
    simp only [actDesFail, Running.go, Running.at, Prim.cost, Prim.isExchange, Agent.cost, Bool.false_eq_true, if_false, Running.cost, failDeselected]; (try omega)
  | call site x =>
    obtain ⟨hf, hr, hx⟩ := hok
    have ret : ∀ w' next, w'.j = w.j → site.regsOk cfg U ⟨req, .rateSlow, w'⟩ → returnStatus req site w' = .ok next →
        Running.cost wt cfg ⟨req, next.1, next.2⟩ ≤ site.afterCost wt cfg (sectorsLeft req.count.toNat) (w.j.getD 0).toNat := by
      intro w' next hj hr' hn
      obtain ⟨b', hb', hn⟩ := need_ok hn
      rw [← hj]
      refine afterCall_cost wt site b' { w' with r := some b' } ?_ hf hn
      cases site <;> exact hr'
    cases x with
    | preWait =>
      simp only [act, actCall] at h
      refine pollStep_cost wt (run := ⟨req, .call site .preWait, w⟩) (k := .waitCmd) (C := fun n => callCost wt cfg site.command .preWait n + site.afterCost wt cfg (sectorsLeft req.count.toNat) (w.j.getD 0).toNat) hw hx.2 ?_ ?_ ?_ ?_ ?_ h
      · intro i hi; simp only at hi; simp only [Running.cost, hi, Option.getD_some]
      · intro n hn
        have := sub_mul_step (x := wt.x) hn
        simp only [callCost, Config.bound] at this ⊢; omega
      · intro i; simp only [Running.cost, Option.getD_some]
      · intro next n hn he; injection he with he; subst he
        simp only [Running.cost]
        simp only [callCost, Nat.sub_zero]; split <;> omega
      · intro _ next n hn he; injection he with he; subst he
        simp only [Running.cost]
        simp only [callCost]; omega
    | preTimeout =>
      injection h with h; subst h
      simp only [Running.go, Running.at, Prim.cost, Prim.isExchange, Agent.cost, Bool.false_eq_true, if_false, Running.cost]
      simp only [callCost]; simp; split <;> omega
    | frame k =>
      obtain ⟨arg, ha, h⟩ := need_ok h
      injection h with h; subst h
      have hk : k < 6 := hx
      have hs := sub_mul_step (x := wt.x) hk
      simp only [Running.go, Running.at, Prim.cost, Prim.isExchange, Agent.cost, if_true, if_true]
      split
      · simp only [Running.cost]
        simp only [callCost]; split <;> omega
      · have : k = 5 := by omega
        subst this
        simp only [Running.cost]
        simp only [callCost]; simp; split <;> omega
    | resp =>
      have hr' : site.regsOk cfg U ⟨req, .rateSlow, w⟩ := regsOk_pos hr
      simp only [act, actCall] at h
      refine pollStep_cost wt (run := ⟨req, .call site .resp, w⟩) (k := .cmd) (C := fun n => callCost wt cfg site.command .resp n + site.afterCost wt cfg (sectorsLeft req.count.toNat) (w.j.getD 0).toNat) hw hx ?_ ?_ ?_ ?_ ?_ h
      · intro i hi; simp only at hi; simp only [Running.cost, hi, Option.getD_some]
      · intro n hn
        have := sub_mul_step (x := wt.x) hn
        simp only [callCost, Config.bound] at this ⊢; omega
      · intro i; simp only [Running.cost, Option.getD_some]
      · intro next n hn he
        have := ret { w with b := some b, ok := some true } next rfl (by cases site <;> exact hr') he
        simp only at this ⊢
        omega
      · intro _ next n hn he
        simp only at he
        split at he
        · have := ret { w with b := some b, ok := some false } next rfl (by cases site <;> exact hr') he
          simp only at this ⊢
          omega
        · rename_i hne
          injection he with he; subst he
          simp only [Running.cost]
          simp only [callCost, hne, if_false]; omega
    | respTimeout =>
      simp only [act, actCall] at h
      split at h
      · rename_i next hn
        injection h with h; subst h
        have := ret w next rfl (regsOk_pos hr) hn
        simp only [Running.go, Running.at, Prim.cost, Prim.isExchange, Agent.cost, Bool.false_eq_true, if_false]
        simp only [Running.cost, callCost] at this ⊢
        simp; omega
      · cases h
  | wait site =>
    obtain ⟨hf, hr, hi⟩ := hok
    cases site with
    | csd =>
      simp only [act, actWait] at h
      refine pollStep_cost wt (run := ⟨req, .wait .csd, w⟩) (k := WaitSite.phase .csd) (C := fun n => csdWaitCost wt cfg n) hw hi ?_ ?_ ?_ ?_ ?_ h
      · intro i hi; simp only at hi; simp only [Running.cost, hi, Option.getD_some]
      · intro n hn
        have := sub_mul_step (x := wt.x) hn
        simp only [csdWaitCost, WaitSite.phase, Config.bound] at this ⊢; omega
      · intro i; simp only [Running.cost, Option.getD_some]
      · intro next n hn he; injection he with he; subst he
        simp only [Running.cost, csdWaitCost, capTailCost, csdBytes]; omega
      · intro _ next n hn he; injection he with he; subst he
        simp only [Running.cost, csdWaitCost, capTailCost]; omega
    | readStart =>
      obtain ⟨rem, p, hrem, hp, h1, hsum⟩ := hr
      simp only at hrem
      simp only [act, actWait] at h
      refine pollStep_cost wt (run := ⟨req, .wait .readStart, w⟩) (k := WaitSite.phase .readStart) (C := fun n => (cfg.bRead - n + 514) * wt.x + readAfterSector wt cfg rem.toNat) hw hi ?_ ?_ ?_ ?_ ?_ h
      · intro i hi; simp only at hi; simp only [Running.cost, hi, hrem, Option.getD_some]
      · intro n hn
        simp only [WaitSite.phase, Config.bound] at hn
        have := sub_mul_step (x := wt.x) hn
        simp only [Nat.add_mul]; omega
      · intro i; simp only [Running.cost, Option.getD_some, hrem]
      · intro next n hn he
        simp only [afterWait, hrem, need_some] at he
        injection he with he; subst he
        simp only [Running.cost, Option.getD_some, Nat.add_mul, Nat.sub_zero]; omega
      · intro _ next n hn he; injection he with he; subst he
        simp only [Running.cost, readAfterSector, readTailCost]; omega
    | wdata =>
      simp only [act, actWait] at h
      refine pollStep_cost wt (run := ⟨req, .wait .wdata, w⟩) (k := WaitSite.phase .wdata) (C := fun n => (cfg.bWdata - n + 516 + cfg.bWdone) * wt.x + wt.o + writeAfterSector wt cfg (w.rem.getD 0).toNat) hw hi ?_ ?_ ?_ ?_ ?_ h
      · intro i hi; simp only at hi; simp only [Running.cost, hi, Option.getD_some]
      · intro n hn
        simp only [WaitSite.phase, Config.bound] at hn
        have := sub_mul_step (x := wt.x) hn
        simp only [Nat.add_mul]; omega
      · intro i; simp only [Running.cost, Option.getD_some]
      · intro next n hn he; injection he with he; subst he
        simp only [Running.cost, Nat.add_mul]; omega
      · intro _ next n hn he; injection he with he; subst he
        simp only [Running.cost, writeAfterSector, selStopCost, writeStopCost]; omega
    | wdone =>
      simp only [act, actWait] at h
      refine pollStep_cost wt (run := ⟨req, .wait .wdone, w⟩) (k := WaitSite.phase .wdone) (C := fun n => (cfg.bWdone - n) * wt.x + wt.o + writeAfterSector wt cfg (w.rem.getD 0).toNat) hw hi ?_ ?_ ?_ ?_ ?_ h
      · intro i hi; simp only at hi; simp only [Running.cost, hi, Option.getD_some]
      · intro n hn
        simp only [WaitSite.phase, Config.bound] at hn
        have := sub_mul_step (x := wt.x) hn
        omega
      · intro i; simp only [Running.cost, Option.getD_some]
      · intro next n hn he; injection he with he; subst he
        simp only [Running.cost]; omega
      · intro _ next n hn he; injection he with he; subst he
        simp only [Running.cost, writeAfterSector, selStopCost, writeStopCost]; omega
    | wstop =>
      simp only [act, actWait] at h
      refine pollStep_cost wt (run := ⟨req, .wait .wstop, w⟩) (k := WaitSite.phase .wstop) (C := fun n => (cfg.bWstop - n + 1 + cfg.bWidle) * wt.x + wt.o + 2 * wt.o) hw hi ?_ ?_ ?_ ?_ ?_ h
      · intro i hi; simp only at hi; simp only [Running.cost, hi, Option.getD_some]
      · intro n hn
        simp only [WaitSite.phase, Config.bound] at hn
        have := sub_mul_step (x := wt.x) hn
        simp only [Nat.add_mul]; omega
      · intro i; simp only [Running.cost, Option.getD_some]
      · intro next n hn he; injection he with he; subst he
        simp only [Running.cost, Nat.add_mul]; omega
      · intro _ next n hn he; injection he with he; subst he
        simp only [Running.cost]; omega
    | widle =>
      simp only [act, actWait] at h
      refine pollStep_cost wt (run := ⟨req, .wait .widle, w⟩) (k := WaitSite.phase .widle) (C := fun n => (cfg.bWidle - n) * wt.x + wt.o + 2 * wt.o) hw hi ?_ ?_ ?_ ?_ ?_ h
      · intro i hi; simp only at hi; simp only [Running.cost, hi, Option.getD_some]
      · intro n hn
        simp only [WaitSite.phase, Config.bound] at hn
        have := sub_mul_step (x := wt.x) hn
        omega
      · intro i; simp only [Running.cost, Option.getD_some]
      · intro next n hn he; injection he with he; subst he
        simp only [Running.cost]; omega
      · intro _ next n hn he; injection he with he; subst he
        simp only [Running.cost]; omega
  | waitTimeout site =>
    injection h with h; subst h
    simp only [actWaitTimeout, Running.go, Running.at, Prim.cost, Prim.isExchange, Agent.cost, Bool.false_eq_true, if_false, Running.cost, failSelected]; try simp
  | respond status value =>
    injection h with h; subst h
    simp only [actRespond, Prim.cost, Prim.isExchange, Agent.cost, Bool.false_eq_true, if_false, Running.cost]; try simp

end Sys2Proof.Machine
end

