-- ==== Sys2Proof/Laws/Encoding.lean ====
section
/-! SUPPORT. The decoder on what the encoder's parts build: frames, request records, inbound bytes. -/

namespace Sys2Proof

/-- The four bytes of a value, most significant first, give it back (30_encoding.md R91). -/
theorem ofBigEndian_bytes (v : Word) :
    ofBigEndian (v.extractLsb' 24 8) (v.extractLsb' 16 8) (v.extractLsb' 8 8) (v.extractLsb' 0 8) = v := by
  apply BitVec.eq_of_getLsbD_eq
  intro k hk
  simp only [ofBigEndian, BitVec.getLsbD_append, BitVec.getLsbD_extractLsb']
  split
  · rename_i h1; simp only [h1, decide_true, Bool.true_and, Nat.zero_add]
  · split
    · rename_i h1 h2
      simp only [h2, decide_true, Bool.true_and]; congr 1; omega
    · split
      · rename_i h1 h2 h3
        simp only [h3, decide_true, Bool.true_and]; congr 1; omega
      · rename_i h1 h2 h3
        rw [decide_eq_true (by omega), Bool.true_and]; congr 1; omega

theorem Command.mem_all (c : Command) : c ∈ Command.all := by cases c <;> decide

/-- In a table that tells the frames apart, an index belongs to one command of its kind (30_encoding.md R108). -/
theorem CommandTable.index_injective {t : CommandTable} (h : t.distinct = true) {c d : Command}
    (ha : c.isApplication = d.isApplication) (hi : t.index c = t.index d) : c = d := by
  simp only [CommandTable.distinct, List.all_eq_true, decide_eq_true_eq] at h
  exact h c c.mem_all d d.mem_all ha hi

theorem commandOfIndex_index {t : CommandTable} (h : t.distinct = true) (c : Command) :
    commandOfIndex t c.isApplication (t.index c) = some c := by
  have hs : (commandOfIndex t c.isApplication (t.index c)).isSome = true :=
    List.find?_isSome.2 ⟨c, c.mem_all, by simp⟩
  obtain ⟨d, hd⟩ := Option.isSome_iff_exists.1 hs
  have hp := List.find?_some hd
  simp only [Bool.and_eq_true, beq_iff_eq] at hp
  rw [hd, CommandTable.index_injective h hp.1 hp.2]

/-- The place of a command's frame (30_encoding.md R104). -/
def Command.port (c : Command) : Port := if c.isApplication then .appFrame else .frame

/-- A frame is decoded by its command's argument rule (30_encoding.md R90, R103). -/
theorem decode_frame {t : CommandTable} (h : t.distinct = true) (c : Command) (arg : Word) :
    decode t c.port (frame t c arg) = commandInstr c arg := by
  have hb : ∀ x : BitVec 6, ((0b01#2) ++ x).extractLsb' 6 2 = 0b01#2 ∧ ((0b01#2) ++ x).extractLsb' 0 6 = x := by
    decide
  obtain ⟨h0, h1⟩ := hb (t.index c)
  have hd : decode t c.port (frame t c arg) = decodeFrame t c.isApplication (frame t c arg) := by
    cases c <;> rfl
  rw [hd]
  simp only [frame, frameByte0, bigEndian, List.cons_append, List.nil_append, decodeFrame, h0, h1,
    commandOfIndex_index h, ne_eq, not_true_eq_false, if_false, ofBigEndian_bytes]

/-- The bits of byte 0 of a record are its `op`. -/
theorem decode_request (t : CommandTable) (q : Request) : decode t .host q.bytes = decodeRequest q := by
  have h : ∀ x : BitVec 3, ((0 : BitVec 5) ++ x).extractLsb' 3 5 = 0 ∧ ((0 : BitVec 5) ++ x).extractLsb' 0 3 = x := by
    decide
  obtain ⟨h0, h1⟩ := h q.op
  simp only [decode, Request.bytes, bigEndian, List.cons_append, List.nil_append, decodeHost, h0, h1, ne_eq,
    not_true_eq_false, if_false, ofBigEndian_bytes]

/-- A byte with bit 7 clear is the status byte of its low seven bits (30_encoding.md R96). -/
theorem statusByte_extract {b : Byte} (h : b.getLsbD 7 = false) : statusByte (b.extractLsb' 0 7) = b := by
  revert b; decide

/-- A byte whose low five bits are `0b00101` is the accepted data-response of its top three (R101). -/
theorem dataRespByte_extract {d : Byte} (h : d.extractLsb' 0 5 = 0b00101#5) :
    dataRespByte (d.extractLsb' 5 3) = d := by
  revert d; decide

theorem statusByte_bit7 (flags : BitVec 7) : (statusByte flags).getLsbD 7 = false := by
  revert flags; decide

theorem statusByte_flags (flags : BitVec 7) : (statusByte flags).extractLsb' 0 7 = flags := by
  revert flags; decide

theorem dataRespByte_low (x : BitVec 3) : (dataRespByte x).extractLsb' 0 5 = 0b00101#5 := by
  revert x; decide

theorem dataRespByte_high (x : BitVec 3) : (dataRespByte x).extractLsb' 5 3 = x := by
  revert x; decide

end Sys2Proof
end

