-- ==== Sys2Proof/Laws/PerInstr.lean ====
section
/-! SUPPORT. Statements made for every instruction, one lemma per constructor. -/

namespace Sys2Proof

/-- The number of bytes a format has: 6 for a command frame (30_encoding.md R90), 1 for a token or an inbound
byte (R95, R100, R101), 10 for a host-port record (log 12). -/
def Port.length : Port → Nat
  | .frame => 6
  | .appFrame => 6
  | .txToken => 1
  | .rxToken => 1
  | .rxStatus => 1
  | .rxDataResp => 1
  | .host => 10

namespace Laws.EncodedLength

/-- Whatever the command indices, the encoding has the length of its place's format. -/
def Statement (i : Instr) : Prop := ∀ t : CommandTable, (encode t i).length = i.port.length

theorem cmd0 : Statement .cmd0 := fun _ => rfl
theorem cmd8 : Statement .cmd8 := fun _ => rfl
theorem cmd9 : Statement .cmd9 := fun _ => rfl
theorem cmd12 : Statement .cmd12 := fun _ => rfl
theorem cmd18 (arg : Word) : Statement (.cmd18 arg) := fun _ => rfl
theorem cmd25 (arg : Word) : Statement (.cmd25 arg) := fun _ => rfl
theorem cmd55 : Statement .cmd55 := fun _ => rfl
theorem cmd58 : Statement .cmd58 := fun _ => rfl
theorem acmd23 (nsec : Word) : Statement (.acmd23 nsec) := fun _ => rfl
theorem acmd41 (hcs : Bool) : Statement (.acmd41 hcs) := fun _ => rfl
theorem tokenStart : Statement .tokenStart := fun _ => rfl
theorem tokenWstart : Statement .tokenWstart := fun _ => rfl
theorem tokenWstop : Statement .tokenWstop := fun _ => rfl
theorem r1Status (flags : BitVec 7) : Statement (.r1Status flags) := fun _ => rfl
theorem dataRespAccept (ignored : BitVec 3) : Statement (.dataRespAccept ignored) := fun _ => rfl
theorem init (unit : BitVec 8) : Statement (.init unit) := fun _ => rfl
theorem read (unit : BitVec 8) (offset count : Word) : Statement (.read unit offset count) := fun _ => rfl
theorem write (unit : BitVec 8) (offset count : Word) : Statement (.write unit offset count) := fun _ => rfl
theorem shutdown (unit : BitVec 8) : Statement (.shutdown unit) := fun _ => rfl
theorem diag : Statement .diag := fun _ => rfl

end Laws.EncodedLength

end Sys2Proof
end

