-- ==== Sys2Proof/Tests/Slice0.lean ====
section
/-! SUPPORT. Tests of the model, their expected values taken from the spec, and for every statement with
hypotheses a witness that meets them. -/

namespace Sys2Proof.Machine.Tests

/-! ### Small states -/

/-- Unit 0 running a request, its transport about to return `inb`; unit 1 as after reset. -/
def running (cls : CardClass) (req : Request) (pos : Pos) (w : Work) (inb : List Byte) (buf : HostBuf := HostBuf.empty) :
    UnitState := ⟨cls, .running ⟨req, pos, w⟩, buf, inb⟩

/-- After reset, with this unit 0, whose turn it is. -/
def withUnit (U : UnitState) (port : HostBuf := HostBuf.empty) : State :=
  { State.reset with units := [U, UnitState.reset], turn := .unit 0, port := ⟨⟨0, 0, 0, 0⟩, port⟩ }

/-- A unit of this class with nothing to do. -/
def idle (cls : CardClass) : UnitState := { UnitState.reset with cls := cls }

/-- A host buffer of `n` bytes, byte 0 being `0xA5` and the others 0. -/
def bufOf (n : Nat) : HostBuf := ⟨n, [(0, 0xA5)]⟩

def traceOf : StepOutcome → List Event
  | .next s => s.trace
  | .fault _ => []
  | .refused _ => []

def unitOf : StepOutcome → Option UnitState
  | .next s => s.units[0]?
  | .fault _ => none
  | .refused _ => none

def posOf (o : StepOutcome) : Option Pos := (unitOf o).bind fun U => match U.agent with
  | .running run => some run.pos
  | .idle => none

def respOf : StepOutcome → Option Response
  | .next s => some s.resp
  | .fault _ => none
  | .refused _ => none

def diagOf : StepOutcome → Option Diag
  | .next s => some s.diag
  | .fault _ => none
  | .refused _ => none

def refusalOf : StepOutcome → Option Refusal
  | .next _ => none
  | .fault _ => none
  | .refused r => some r

/-! ### Well-formedness refuses each ill-formed term -/

/-- 43_transfer.md R231: the argument is doubled, so even. -/
theorem test_wf_cmd18_odd : Instr.wellFormed (.cmd18 0x0000000B) = false := by decide
theorem test_wf_cmd25_odd : Instr.wellFormed (.cmd25 0x00000001) = false := by decide
/-- 43_transfer.md R232: `1 ≤ nsec ≤ 2^23`. -/
theorem test_wf_acmd23_zero : Instr.wellFormed (.acmd23 0) = false := by decide
theorem test_wf_acmd23_large : Instr.wellFormed (.acmd23 0x00800001) = false := by decide
theorem test_wf_acmd23_largest : Instr.wellFormed (.acmd23 0x00800000) = true := by decide
/-- 44_host.md R287: `count ≥ 1`. -/
theorem test_wf_read_zero : Instr.wellFormed (.read 0 0 0) = false := by decide
theorem test_wf_write_zero : Instr.wellFormed (.write 0 0 0) = false := by decide

/-! ### Decoding: words written out from 30_encoding.md R90 to R103, 44_host.md R280 and the opcode table -/

theorem test_dec_cmd0 : decodeTableWord 48 0x400000000095 = some .cmd0 := by decide
theorem test_dec_cmd8 : decodeTableWord 48 0x48000001AA87 = some .cmd8 := by decide
theorem test_dec_cmd9 : decodeTableWord 48 0x4900000000FF = some .cmd9 := by decide
theorem test_dec_cmd12 : decodeTableWord 48 0x4C00000000FF = some .cmd12 := by decide
theorem test_dec_cmd18 : decodeTableWord 48 0x5200000C00FF = some (.cmd18 0x00000C00) := by decide
theorem test_dec_cmd25 : decodeTableWord 48 0x5900001400FF = some (.cmd25 0x00001400) := by decide
theorem test_dec_cmd55 : decodeTableWord 48 0x7700000000FF = some .cmd55 := by decide
theorem test_dec_cmd58 : decodeTableWord 48 0x7A00000000FF = some .cmd58 := by decide
theorem test_dec_acmd23 : decodeTableWord 48 0x5700800000FF = some (.acmd23 0x00800000) := by decide
theorem test_dec_acmd41_hcs : decodeTableWord 48 0x6940000000FF = some (.acmd41 true) := by decide
theorem test_dec_acmd41 : decodeTableWord 48 0x6900000000FF = some (.acmd41 false) := by decide
theorem test_dec_tokenStart : decodeTableWord 8 0xFE = some .tokenStart := by decide
theorem test_dec_tokenWstart : decodeTableWord 8 0xFC = some .tokenWstart := by decide
theorem test_dec_tokenWstop : decodeTableWord 8 0xFD = some .tokenWstop := by decide
/-- R96: bit 6 is `PARAM_ERR`, bit 0 `IDLE`. -/
theorem test_dec_r1Status : decode .standard .rxStatus [0b01000001] = .ok (.r1Status 0b1000001) := by decide
/-- R101: bits 7..5 are ignored. -/
theorem test_dec_dataResp : decode .standard .rxDataResp [0b11100101] = .ok (.dataRespAccept 0b111) := by decide
theorem test_dec_init : decodeTableWord 3 0 = some (.init 0) := by decide
theorem test_dec_read :
    decode .standard .host [1, 1, 0, 0, 0, 5, 0, 0, 4, 0xB0] = .ok (.read 1 5 1200) := by decide
theorem test_dec_write :
    decode .standard .host [2, 0, 0, 0, 0, 2, 0, 0, 2, 0x58] = .ok (.write 0 2 600) := by decide
theorem test_dec_shutdown : decodeTableWord 3 3 = some (.shutdown 0) := by decide
theorem test_dec_diag : decodeTableWord 3 4 = some .diag := by decide

/-- Rejections by name: marker bits, an index not in R93, ACMD23's without its CMD55 (R104), a wrong CRC byte (the
true CRC of V1), an argument the command is never sent with, a reserved `op`, a set bit 7, a rejected data-response. -/
theorem test_dec_rejects :
    decode .standard .frame [0x80, 0, 0, 0, 0, 0x95] = .error .badMarker ∧
    decode .standard .frame [0x51, 0, 0, 0, 0, 0xFF] = .error .unknownIndex ∧
    decode .standard .frame [0x57, 0, 0, 0, 1, 0xFF] = .error .unknownIndex ∧
    decode .standard .frame [0x77, 0, 0, 0, 0, 0x65] = .error .badCrc ∧
    decode .standard .frame [0x48, 0, 0, 0x01, 0xAB, 0x87] = .error .badArgument ∧
    decode .standard .frame [0x40] = .error .badLength ∧
    decode .standard .rxStatus [0xFF] = .error .notStatus ∧
    decode .standard .rxDataResp [0x0E] = .error .notAccepted ∧
    decode .standard .rxToken [0x08] = .error .notStartToken ∧
    decode .standard .txToken [0xFE] = .error .notToken ∧
    decode .standard .host [5, 0, 0, 0, 0, 0, 0, 0, 0, 0] = .error .reservedOp ∧
    decode .standard .host [8, 0, 0, 0, 0, 0, 0, 0, 0, 0] = .error .badPadding := by decide

/-! ### One step of each operation -/

/-- R140: CMD0's first byte; V3 row 1. -/
theorem test_cmd0 :
    traceOf (exec .cmd0 (withUnit (running .unknown (initRequest 0) (.call .reset (.frame 0)) Work.empty [0xFF])))
      = [.x 0 0x40 0xFF] := by decide

/-- R134, V3 row 2: CMD0's last poll without a status: `r = 0xFF`, attempt 2, no `TIMEOUT`. -/
theorem test_cmd0_poll_expires :
    posOf (exec .cmd0 (withUnit (running .unknown (initRequest 0) (.call .reset .resp)
      { Work.empty with i := some 3, j := some 0 } [0xFF]))) = some (.call .reset (.frame 0)) := by decide

/-- R141: byte 4 of CMD8's frame is `0xAA`. -/
theorem test_cmd8 :
    traceOf (exec .cmd8 (withUnit (running .unknown (initRequest 0) (.call .probe (.frame 4)) Work.empty [0])))
      = [.x 0 0xAA 0] := by decide

/-- R142, R92: CMD9's CRC byte is `0xFF`. -/
theorem test_cmd9 :
    traceOf (exec .cmd9 (withUnit (running .unknown (initRequest 0) (.call .capacity (.frame 5)) Work.empty [0])))
      = [.x 0 0xFF 0] := by decide

/-- R93, D3: with another index configured for CMD9, byte 0 is `0x40` with that index. -/
theorem test_cmd9_configured :
    let s := withUnit (running .unknown (initRequest 0) (.call .capacity (.frame 0)) Work.empty [0])
    traceOf (exec .cmd9 { s with cfg := { s.cfg with commands := { CommandTable.standard with cmd9 := 10 } } })
      = [.x 0 0x4A 0] := by decide

/-- V3 row 5: CMD9's fourth poll without a status, then `TIMEOUT CMD`. -/
theorem test_cmd9_poll_expires :
    posOf (exec .cmd9 (withUnit (running .unknown (initRequest 0) (.call .capacity .resp)
      { Work.empty with i := some 3 } [0xFF]))) = some (.call .capacity .respTimeout) := by decide

/-- R143; V7 row 9: CMD12's `TIMEOUT`, and the READ still goes on to its end. -/
theorem test_cmd12_timeout :
    posOf (exec .cmd12 (withUnit (running .sdv2 (readRequest 0 0 1) (.call .readStop .respTimeout)
      { Work.empty with b := some 0xFF } []))) = some .desDone := by decide

/-- R144; P1 part 2: byte 4 of CMD18(10). -/
theorem test_cmd18 :
    traceOf (exec (.cmd18 10) (withUnit (running .sdv2Block (readRequest 0 5 1200) (.call .readStart (.frame 4))
      { Work.empty with arg := some 10 } [0xFF]))) = [.x 0 0x0A 0xFF] := by decide

/-- A frame sent from no call site of the pseudocode has no meaning (30_encoding.md R106). -/
theorem test_cmd18_outOfPlace :
    refusalOf (exec (.cmd18 12) (withUnit (running .sdv2Block (readRequest 0 5 1200) (.call .readStart (.frame 4))
      { Work.empty with arg := some 10 } [0xFF]))) = some .outOfPlace := by decide

/-- R145; P2 part 2: byte 3 of CMD25(0x800). -/
theorem test_cmd25 :
    traceOf (exec (.cmd25 0x800) (withUnit (running .mmcSdv1 (writeRequest 0 2 600) (.call .writeStart (.frame 3))
      { Work.empty with arg := some 0x800 } [0xFF]))) = [.x 0 0x08 0xFF] := by decide

/-- R131; V3 row 4: CMD55's fourth busy poll, then `TIMEOUT WAIT_CMD`. -/
theorem test_cmd55_busy :
    posOf (exec .cmd55 (withUnit (running .unknown (initRequest 0) (.call .negPrefix .preWait)
      { Work.empty with i := some 3 } [0x00]))) = some (.call .negPrefix .preTimeout) := by decide

/-- ... and the frame is sent anyway. -/
theorem test_cmd55_sentAnyway :
    let o := exec .cmd55 (withUnit (running .unknown (initRequest 0) (.call .negPrefix .preTimeout) Work.empty []))
    traceOf o = [.timeout 0 .waitCmd] ∧ posOf o = some (.call .negPrefix (.frame 0)) := by decide

/-- R147: CMD58's first byte. -/
theorem test_cmd58 :
    traceOf (exec .cmd58 (withUnit (running .unknown (initRequest 0) (.call .ocr (.frame 0)) Work.empty [0xFF])))
      = [.x 0 0x7A 0xFF] := by decide

/-- R148; P2 part 2: byte 4 of ACMD23(2). -/
theorem test_acmd23 :
    traceOf (exec (.acmd23 2) (withUnit (running .mmcSdv1 (writeRequest 0 2 600) (.call .writeErase (.frame 4))
      { Work.empty with nsec := some 2 } [0xFF]))) = [.x 0 0x02 0xFF] := by decide

/-- R149, R103: byte 1 of ACMD41 of an SD v2 card. -/
theorem test_acmd41 :
    traceOf (exec (.acmd41 true) (withUnit (running .unknown (initRequest 0) (.call .negCond (.frame 1))
      { Work.empty with c := some .sdv2 } [0xFF]))) = [.x 0 0x40 0xFF] := by decide

/-- R234; V7 row 6: the token at the fourth poll raises `READ_START` to 3. -/
theorem test_tokenStart :
    let o := exec .tokenStart (withUnit (running .sdv2 (readRequest 0 0 1) (.wait .readStart)
      { Work.empty with i := some 3, rem := some 1 } [0xFE]))
    diagOf o = some { Diag.zero with readStart := 3 } ∧ posOf o = some (.readPayload 0) := by decide

/-- R245. -/
theorem test_tokenWstart :
    traceOf (exec .tokenWstart (withUnit (running .sdv2 (writeRequest 0 0 1) .wstartToken
      { Work.empty with rem := some 1 } [0x12]))) = [.x 0 0xFC 0x12] := by decide

/-- R249. -/
theorem test_tokenWstop :
    let o := exec .tokenWstop (withUnit (running .sdv2 (writeRequest 0 0 1) .wstopToken Work.empty [0x12]))
    traceOf o = [.x 0 0xFD 0x12] ∧ posOf o = some (.wait .widle) := by decide

/-- R176; V4 row 6: CMD8 answered `0x05`, bit 2 set: no trailing byte. -/
theorem test_r1Status_illegal :
    posOf (exec (.r1Status 0x05) (withUnit (running .unknown (initRequest 0) (.call .probe .resp)
      { Work.empty with i := some 0 } [0x05]))) = some .desProbe := by decide

/-- R173; V4 row 5: CMD0 answered `0x00`: not "idle, no other flags", so another attempt. -/
theorem test_r1Status_notIdle :
    posOf (exec (.r1Status 0x00) (withUnit (running .unknown (initRequest 0) (.call .reset .resp)
      { Work.empty with i := some 0, j := some 0 } [0x00]))) = some (.call .reset (.frame 0)) := by decide

/-- R246; V8: `0xE5` is accepted. -/
theorem test_dataRespAccept :
    posOf (exec (.dataRespAccept 0b111) (withUnit (running .sdv2 (writeRequest 0 0 1) .dataResp Work.empty [0xE5])))
      = some (.wait .wdone) := by decide

/-- R171; P1: the first event of INIT is `RATE 0 250`. -/
theorem test_init : traceOf (exec (.init 0) (withUnit (idle .sdv2))) = [.rate 0 250] := by decide

/-- V10 and R281: an INIT of unit 2 of two. -/
theorem test_init_badUnit : respOf (exec (.init 2) State.reset) = some ⟨.badUnit, .word 0⟩ := by decide

/-- R235: payload byte 1 of a sector goes to buffer byte `p + 1`. -/
theorem test_read_payload :
    (unitOf (exec (.read 0 0 600) (withUnit (running .sdv2 (readRequest 0 0 600) (.readPayload 1)
      { Work.empty with p := some 512, m := some 88, rem := some 88 } [0x0F] (bufOf 600))))).bind
      (fun U => U.buf.load 513) = some 0x0F := by decide

/-- V7 row 1. -/
theorem test_read_notReady :
    respOf (exec (.read 0 0 1024) (withUnit (idle .unknown) (bufOf 1024))) = some ⟨.notReady, .word 0⟩ := by decide

/-- R70, 93 U3: the buffer is one byte short; refused also of an absent unit. -/
theorem test_read_short : ∀ unit ∈ [(0 : BitVec 8), 2],
    refusalOf (exec (.read unit 0 1024) (withUnit (idle .unknown) (bufOf 1023))) = some .bufferTooShort := by decide

/-- R245; P4 part 2: the first payload byte sent is buffer byte 0. -/
theorem test_write_payload :
    traceOf (exec (.write 0 3 512) (withUnit (running .sdv2 (writeRequest 0 3 512) (.writePayload 0)
      { Work.empty with p := some 0, m := some 512, rem := some 512 } [0xFF] (bufOf 512)))) = [.x 0 0xA5 0xFF] := by
  decide

/-- R246; V8: data-response `0x0E` is rejected. -/
theorem test_write_rejected :
    posOf (exec (.write 0 3 512) (withUnit (running .sdv2 (writeRequest 0 3 512) .dataResp
      { Work.empty with p := some 0, m := some 512, rem := some 512 } [0x0E] (bufOf 512))))
      = some (.desFail .dataRejected) := by decide

/-- V10. -/
theorem test_shutdown :
    let o := exec (.shutdown 0) (withUnit (idle .sdv2))
    (unitOf o).map UnitState.cls = some .unknown ∧ respOf o = some ⟨.ok, .word 0⟩ := by decide

/-- V10: nine zeros after reset. -/
theorem test_diag :
    respOf (exec .diag State.reset) = some ⟨.ok, .counters ⟨0, 0, 0, 0, 0, 0, 0, 0, 0⟩⟩ := by decide

/-! ### Operands (95_test_vectors.md V5, V6; 42_capacity.md R219) -/

def csdA : Csd := #v[0x40, 0, 0, 0, 0, 0, 0, 0, 0, 0x1F, 0, 0, 0, 0, 0, 0]
def csdB : Csd := #v[0, 0, 0, 0, 0, 0x0F, 0x03, 0xFF, 0xC0, 0x03, 0x80, 0, 0, 0, 0, 0]
def csdSmall : Csd := #v[0x01, 0xFF, 0xFF, 0xFF, 0xFF, 0x5A, 0, 0, 0x3F, 0xFC, 0x7F, 0xFF, 0xFF, 0xFF, 0xFF, 0xFF]

/-- Source §8 (E5). -/
theorem test_capacity_A : decodeCsd csdA 0 = 16384 := by decide
/-- V5: the maximum of layout B, and one whose unnamed bits are all 1. -/
theorem test_capacity_B : decodeCsd csdB 0 = 67108864 ∧ decodeCsd csdSmall 0 = 4 := by decide
/-- R215's example, `e = 8`: the count is the drawn value (93 U1). -/
theorem test_capacity_drawn : decodeCsd ((Vector.replicate 16 0).set 5 6) 0xFFFFFFFF = 0xFFFFFFFF := by decide
/-- V4 row 23: an unknown CSD version. -/
theorem test_capacity_unknown : decodeCsd (csdA.set 0 0x80) 0 = 0 := by decide

/-- V6, but for offset `0x003FFFFF`: V6 prints `0xFFFFF800`, R231 gives `0xFFFFFC00` (log 27). -/
theorem test_address :
    cardAddress .sdv2Block 5 = 0x0000000A ∧ cardAddress .sdv2Block 0x7FFFFFFF = 0xFFFFFFFE ∧
    cardAddress .sdv2Block 0x80000000 = 0 ∧ cardAddress .sdv2 1 = 0x00000400 ∧
    cardAddress .mmcSdv1 0x003FFFFF = 0xFFFFFC00 ∧ cardAddress .sdv2 0x00400000 = 0 := by decide

/-- V6. -/
theorem test_sectors :
    sectorCount 1 = 1 ∧ sectorCount 512 = 1 ∧ sectorCount 513 = 2 ∧ sectorCount 1200 = 3 ∧
    sectorCount 0xFFFFFFFF = 0x00800000 := by decide

/-! ### Memory -/

/-- Writing what an unlisted byte reads as removes its entry, so equal buffers are equal lists (log 6). -/
theorem test_memory_canonical :
    Memory.write (Memory.write (Memory.write [] 7 1) 3 2) 7 0 = [(3, 2)] := by decide

/-- A buffer byte outside the buffer stops WRITE (20_memory.md R70). -/
theorem test_write_outside :
    exec (.write 0 3 512) (withUnit (running .sdv2 (writeRequest 0 3 512) (.writePayload 0)
      { Work.empty with p := some 512, m := some 1, rem := some 1 } [0xFF] (bufOf 512)))
      = .fault .bufferIndexOutOfRange := rfl

/-- A register read before it is written is a fault (10_state.md R38). -/
theorem test_register_unset :
    exec (.init 0) (withUnit (running .unknown (initRequest 0) .desReset Work.empty [])) =
      .fault .workingRegisterUnset := rfl

/-! ### Witnesses: states that meet the hypotheses of the statements -/

/-- Unit 0 of `withUnit` running a request. -/
def at0 (cls : CardClass) (req : Request) (pos : Pos) (w : Work) (inb : List Byte) (buf : HostBuf := HostBuf.empty) :
    State := withUnit (running cls req pos w inb buf)

theorem at0_moves (cls : CardClass) (req : Request) (pos : Pos) (w : Work) (inb : List Byte) (buf : HostBuf) :
    (at0 cls req pos w inb buf).Moves 0 (running cls req pos w inb buf) ⟨req, pos, w⟩ := ⟨rfl, rfl, rfl⟩

theorem withUnit_inv {U : UnitState} {port : HostBuf} (h : U.ok State.exampleConfig 0) (hp : port.wf = true) :
    (withUnit U port).Inv where
  config := rfl
  units := by
    intro u V hV
    match u, hV with
    | 0, hV => injection hV with hV; subst hV; exact h
    | 1, hV => injection hV with hV; subst hV; exact ⟨rfl, fun run hr => by cases hr⟩
    | n + 2, hV => cases hV
  counters := fun k => show (Diag.zero.get k).toNat < State.exampleConfig.bound k by revert k; intro k; cases k <;> decide
  portBuf := hp
  queueBufs := by intro q hq; cases hq
  samples := by intro taken h; cases h

theorem at0_inv {cls : CardClass} {req : Request} {pos : Pos} {w : Work} {inb : List Byte} {buf : HostBuf}
    (hb : buf.wf = true) (hu : req.unit.toNat = 0)
    (h : Running.ok State.exampleConfig (running cls req pos w inb buf) ⟨req, pos, w⟩) :
    (at0 cls req pos w inb buf).Inv :=
  withUnit_inv ⟨hb, fun run hr => by injection hr with hr; subst hr; exact ⟨hu, h⟩⟩ rfl

theorem idle_inv (cls : CardClass) {port : HostBuf} (hp : port.wf = true) : (withUnit (idle cls) port).Inv :=
  withUnit_inv ⟨rfl, fun run hr => by cases hr⟩ hp

theorem witness_DecodeEncode : CommandTable.standard.distinct = true := by decide

theorem witness_EncodeDecode : Port.frame ≠ .host ∧ decode .standard .frame [0x40, 0, 0, 0, 0, 0x95] = .ok .cmd0 := by decide

theorem witness_FrameBytes :
    Instr.commandOf .cmd8 = some (.cmd8, 0x1AA) ∧ Instr.commandOf .cmd0 = some (.cmd0, 0) ∧
    Instr.commandOf (.cmd25 0xFFFFFFFE) = some (.cmd25, 0xFFFFFFFE) := by decide

/-- A DIAG waiting at the host port; the other two turns. -/
theorem witness_StepRunsTheDecodedOperation :
    (∃ (s : State) (i : Instr) (q : PortRecord) (rest : List PortRecord), s.configOk = true ∧ s.turn = .host ∧
      s.hostQueue = q :: rest ∧ s.portFree q.req = true ∧ decode s.cfg.commands .host q.req.bytes = .ok i) ∧
    (∃ (s : State) (i : Instr) (u : Nat) (U : UnitState) (run : Running) (port : Port) (bytes : List Byte),
      s.configOk = true ∧ s.Moves u U run ∧
      fetchRunning s.cfg.commands run (U.answer s.draws) = .ok (port, bytes) ∧
      decode s.cfg.commands port bytes = .ok i) ∧
    (∃ (s : State) (taken : List (Phase × Word)), s.configOk = true ∧ s.turn = .diag ∧ s.diagRead = some taken) :=
  ⟨⟨{ State.reset with hostQueue := [⟨diagRequest, HostBuf.empty⟩] }, .diag, _, _, rfl, rfl, rfl, rfl, by decide⟩,
   ⟨_, .init 0, _, _, _, _, _, rfl, at0_moves .unknown (initRequest 0) .desPower Work.empty [] HostBuf.empty, rfl,
     by decide⟩,
   ⟨{ State.reset with turn := .diag, diagRead := some [] }, [], rfl, rfl, rfl⟩⟩

def initState : State := at0 .unknown (initRequest 0) .desPower Work.empty []

theorem initState_inv : initState.Inv := at0_inv rfl rfl ⟨rfl, rfl⟩

theorem witness_StepIsTheAgentsNextPrimitive :
    initState.Inv ∧ initState.Moves 0 (running .unknown (initRequest 0) .desPower Work.empty [])
      ⟨initRequest 0, .desPower, Work.empty⟩ := ⟨initState_inv, at0_moves ..⟩

/-- Among the refused requests, the very one the unit is running, and a second DIAG. -/
theorem witness_StepRefusals :
    (∃ s : State, ∃ k, s.cfg.bound k = 0) ∧ (∃ s : State, s.units.length = 0) ∧
    (∃ s : State, 256 < s.units.length) ∧
    (∃ s : State, ∃ c d, c ≠ d ∧ Command.isApplication c = d.isApplication ∧
      s.cfg.commands.index c = s.cfg.commands.index d) ∧
    (∃ (s : State) (q : PortRecord) (rest : List PortRecord), s.configOk = true ∧ s.turn = .host ∧
      s.hostQueue = q :: rest ∧ 5 ≤ q.req.op.toNat ∧ s.portFree q.req = true) ∧
    (∃ (s : State) (q : PortRecord) (rest : List PortRecord) (V : UnitState) (run : Running), s.configOk = true ∧
      s.turn = .host ∧ s.hostQueue = q :: rest ∧ q.req.op ≠ 4 ∧ s.units[q.req.unit.toNat]? = some V ∧
      V.agent = .running run ∧ run.req = q.req) ∧
    (∃ (s : State) (q : PortRecord) (rest : List PortRecord), s.configOk = true ∧ s.turn = .host ∧
      s.hostQueue = q :: rest ∧ q.req.op = 4 ∧ s.diagRead ≠ none) :=
  ⟨⟨State.resetWith ⟨4, 4, 4, 4, 4, 4, 4, 4, 0, 1, .standard⟩ 2, .widle, rfl⟩,
   ⟨State.resetWith State.exampleConfig 0, rfl⟩, ⟨State.resetWith State.exampleConfig 257,
     Nat.lt_of_lt_of_eq (by omega : 256 < 257) List.length_replicate.symm⟩,
   ⟨State.resetWith ⟨4, 4, 4, 4, 4, 4, 4, 4, 4, 1, { CommandTable.standard with cmd9 := 8 }⟩ 2, .cmd8, .cmd9,
     by decide, rfl, rfl⟩,
   ⟨{ State.reset with hostQueue := [⟨⟨5, 0, 0, 0⟩, HostBuf.empty⟩] }, _, _, rfl, rfl, rfl, by decide, rfl⟩,
   ⟨{ at0 .unknown (initRequest 0) .desPower Work.empty [] with
      turn := .host, hostQueue := [⟨initRequest 0, HostBuf.empty⟩] }, _, _, _, _, rfl, rfl, rfl, by decide, rfl, rfl, rfl⟩,
   ⟨{ State.reset with diagRead := some [], hostQueue := [⟨diagRequest, HostBuf.empty⟩] }, _, _, rfl, rfl, rfl, rfl,
     by decide⟩⟩

/-- Bounds of 1 and of `2^32 - 1`; one unit and 256 units. -/
theorem witness_ResetWaits :
    Config.wf ⟨1, 1, 1, 1, 1, 1, 1, 1, 4294967295, 0, .standard⟩ = true ∧ 1 ≤ 1 ∧ 256 ≤ 256 := by decide

theorem witness_ResetMeetsInv :
    Config.wf ⟨1, 1, 1, 1, 1, 1, 1, 1, 4294967295, 0, .standard⟩ = true ∧ 1 ≤ 1 ∧ 256 ≤ 256 := by decide

theorem witness_StepKeepsInv : ∃ t, initState.Inv ∧ step initState = .next t := ⟨_, initState_inv, rfl⟩

theorem witness_StepNeverFaults :
    initState.Inv ∧ ∃ u U run, initState.Moves u U run := ⟨initState_inv, _, _, _, at0_moves ..⟩

theorem witness_StepKeepsSelectionMatches :
    ∃ t, initState.SelectionMatches ∧ step initState = .next t := by
  refine ⟨_, ?_, rfl⟩
  intro u U h
  match u, h with
  | 0, h => injection h with h; subst h; rfl
  | 1, h => injection h with h; subst h; rfl
  | n + 2, h => cases h

/-- The count equals the buffer's size. -/
theorem witness_EveryRequestEnds :
    ∃ (s : State) (unit : BitVec 8) (V : UnitState) (count : Word), s.Inv ∧ s.units[unit.toNat]? = some V ∧
      V.agent = .idle ∧ V.cls ≠ .unknown ∧ 1 ≤ count.toNat ∧ count.toNat ≤ s.port.buf.size :=
  ⟨withUnit (idle .sdv2) (bufOf 512), 0, _, 512, idle_inv _ rfl, rfl, rfl, by decide, by decide, by decide⟩

/-- The buffer is just long enough. -/
theorem witness_BadUnit : ∃ (s : State) (unit : BitVec 8) (count : Word), s.units.length ≤ unit.toNat ∧
    1 ≤ count.toNat ∧ count.toNat ≤ s.port.buf.size :=
  ⟨withUnit (idle .sdv2) (bufOf 1), 2, 1, by decide, by decide, by decide⟩

theorem witness_NotReady :
    (∃ (s : State) (unit : BitVec 8) (count : Word) (V : UnitState), s.units[unit.toNat]? = some V ∧
      V.agent = .idle ∧ V.cls = .unknown ∧ count ≠ 0 ∧ count.toNat ≤ s.port.buf.size) ∧
    (∀ cls, ∃ (s : State) (unit : BitVec 8) (count : Word) (V : UnitState), s.units[unit.toNat]? = some V ∧
      V.agent = .idle ∧ V.cls = cls ∧ count = 0) :=
  ⟨⟨withUnit (idle .unknown) (bufOf 1), 1, 1, _, rfl, rfl, rfl, by decide, by decide⟩,
   fun cls => ⟨withUnit (idle cls), 0, 0, _, rfl, rfl, rfl, rfl⟩⟩

/-- A buffer one byte short, and `count = 0`, of a usable unit, an `UNKNOWN` one and an absent one; a READ of a unit
that runs an INIT. -/
theorem witness_BrokenDutyIsRefused :
    (∀ cls, ∀ unit ∈ [(0 : BitVec 8), 2], ∀ count ∈ [(0 : Word), 512], ∃ s : State,
      s = withUnit (idle cls) (bufOf 511) ∧
      (∀ V, s.units[unit.toNat]? = some V → V.agent = .idle) ∧
      (count.toNat = 0 ∨ 1 ≤ count.toNat ∧ s.port.buf.size < count.toNat)) ∧
    (∃ (s : State) (unit : BitVec 8) (V : UnitState) (run : Running), s.units[unit.toNat]? = some V ∧
      V.agent = .running run ∧ ¬ run.IsOf (.read unit 0 1)) :=
  ⟨fun cls unit hu count hc => ⟨_, rfl, (by
     simp only [List.mem_cons, List.not_mem_nil, or_false] at hu
     rcases hu with rfl | rfl
     · intro V h; injection h with h; subst h; rfl
     · intro V h; cases h), by
     simp only [List.mem_cons, List.not_mem_nil, or_false] at hc
     rcases hc with rfl | rfl
     · exact .inl rfl
     · exact .inr ⟨by decide, by show 511 < _; decide⟩⟩,
   ⟨initState, 0, _, _, rfl, rfl, fun h => by simp [Running.IsOf, readRequest, initRequest, opInit, opRead] at h⟩⟩

theorem witness_InitStarts : ∃ (s : State) (unit : BitVec 8) (V : UnitState), s.units[unit.toNat]? = some V ∧
    V.agent = .idle := ⟨State.reset, 1, _, rfl, rfl⟩

theorem witness_ReadStarts :
    ∃ (s : State) (unit : BitVec 8) (count : Word) (V : UnitState), s.units[unit.toNat]? = some V ∧
      V.agent = .idle ∧ V.cls ≠ .unknown ∧ 1 ≤ count.toNat ∧ count.toNat ≤ s.port.buf.size :=
  ⟨withUnit (idle .sdv2Block) (bufOf 1), 0, 1, _, rfl, rfl, by decide, by decide, by decide⟩

theorem witness_WriteStarts :
    ∃ (s : State) (unit : BitVec 8) (count : Word) (V : UnitState), s.units[unit.toNat]? = some V ∧
      V.agent = .idle ∧ V.cls ≠ .unknown ∧ 1 ≤ count.toNat ∧ count.toNat ≤ s.port.buf.size :=
  ⟨withUnit (idle .mmcSdv1) (bufOf 1), 0, 1, _, rfl, rfl, by decide, by decide, by decide⟩

theorem witness_Shutdown :
    (∃ (s : State) (unit : BitVec 8), s.units.length ≤ unit.toNat) ∧
    (∃ (s : State) (unit : BitVec 8) (V : UnitState) (count : Word), s.units[unit.toNat]? = some V ∧
      V.agent = .idle ∧ V.cls = .sdv2 ∧ 1 ≤ count.toNat ∧ count.toNat ≤ s.port.buf.size) :=
  ⟨⟨State.reset, 2, by decide⟩, withUnit (idle .sdv2) (bufOf 512), 0, _, 512, rfl, rfl, rfl, by decide, by decide⟩

theorem witness_DiagQuiet : State.reset.diagRead = none ∧ ∀ U ∈ State.reset.units, U.agent = .idle := by decide

/-- Seven samples taken, and eight; a DIAG not yet in flight while a unit runs. -/
theorem witness_DiagSamples :
    (∃ s s' : State, ∃ taken taken' : List (Phase × Word), s.diagRead = some taken ∧ samplesOk s.diag taken ∧
      taken.length < 8 ∧ s'.diagRead = some taken' ∧ samplesOk s'.diag taken' ∧ taken'.length = 8) ∧
    ∃ s : State, s.diagRead = none ∧ (∃ V ∈ s.units, ∃ run, V.agent = .running run) ∧ samplesOk s.diag [] := by
  refine ⟨?_, initState, rfl, ⟨_, .head _, _, rfl⟩, by decide, by decide, by decide⟩
  refine ⟨{ State.reset with diagRead := some ((Phase.all.take 7).map fun k => (k, 0)) },
    { State.reset with diagRead := some ((Phase.all.take 8).map fun k => (k, 0)) }, _, _, rfl, ?_, by decide, rfl, ?_,
    by decide⟩ <;> exact ⟨by decide, by decide, by decide⟩

/-- Byte 0 and byte 5 of a frame. -/
theorem witness_CommandSendsItsNextByte : ∀ k ∈ [0, 5],
    ∃ (i : Instr) (s : State) (u : Nat) (U : UnitState) (run : Running) (site : CallSite),
      site.operation run.work = some i ∧ s.Moves u U run ∧ run.pos = .call site (.frame k) ∧ k < 6 := by
  intro k hk
  refine ⟨.acmd23 3, _, _, _, _, .writeErase, rfl, at0_moves .sdv2 (writeRequest 0 0 1200)
    (.call .writeErase (.frame k)) { Work.empty with nsec := some 3 } [] (bufOf 1200), rfl, ?_⟩
  simp only [List.mem_cons, List.not_mem_nil, or_false] at hk
  omega

/-- Each of the eleven call sites. -/
theorem witness_FrameIsSentInOrder : ∀ site : CallSite,
    ∃ (i : Instr) (s : State) (u : Nat) (U : UnitState) (run : Running),
      site.operation run.work = some i ∧ s.Moves u U run ∧ run.pos = .call site (.frame 0) := by
  intro site
  let w : Work := { Work.empty with c := some .sdv2, arg := some 10, nsec := some 3 }
  obtain ⟨i, hi⟩ := Option.isSome_iff_exists.1 (show (site.operation w).isSome = true by cases site <;> rfl)
  exact ⟨i, _, _, _, _, hi, at0_moves .sdv2 (writeRequest 0 0 1200) (.call site (.frame 0)) w [] HostBuf.empty, rfl⟩

/-- Polls at indices 2 and 3 of a bound of 4, idle and busy; the `TIMEOUT`. -/
theorem witness_PreCommandWait : ∀ x ∈ [(some (0xFF : Byte), (3 : Word)), (some 0xFE, 2), (some 0, 3), (none, 0)],
    ∃ (i : Instr) (s : State) (u : Nat) (U : UnitState) (run : Running) (site : CallSite),
      site.operation run.work = some i ∧ site ≠ .reset ∧ s.Moves u U run ∧ run.work.i = some x.2 ∧
      match x.1 with
      | some b => run.pos = .call site .preWait ∧ U.answer s.draws = b
      | none => run.pos = .call site .preTimeout := by
  intro x hx
  cases hb : x.1 with
  | none =>
    exact ⟨.cmd58, _, _, _, _, .ocr, rfl, by decide, at0_moves .unknown (initRequest 0)
      (.call .ocr .preTimeout) { Work.empty with i := some x.2 } [] HostBuf.empty, rfl, rfl⟩
  | some b =>
    exact ⟨.cmd58, _, _, _, _, .ocr, rfl, by decide, at0_moves .unknown (initRequest 0)
      (.call .ocr .preWait) { Work.empty with i := some x.2 } [b] HostBuf.empty, rfl, rfl, rfl⟩

/-- A status, an invalid byte at indices 2 and 3 of a bound of 4, for CMD0 and for CMD8; CMD8's `TIMEOUT`. -/
theorem witness_ResponsePoll :
    (∀ x ∈ [((0x7F : Byte), (3 : Word)), (0x80, 2), (0x80, 3)],
      (∃ (s : State) (U : UnitState) (run : Running), s.Inv ∧ s.Moves 0 U run ∧ run.pos = .call .reset .resp ∧
        run.work.i = some x.2 ∧ U.answer s.draws = x.1) ∧
      (∃ (s : State) (U : UnitState) (run : Running), s.Inv ∧ s.Moves 0 U run ∧ run.pos = .call .probe .resp ∧
        run.work.i = some x.2 ∧ U.answer s.draws = x.1)) ∧
    (∃ (s : State) (U : UnitState) (run : Running), s.Inv ∧ s.Moves 0 U run ∧
      run.pos = .call .probe .respTimeout ∧ run.work.b = some 0xFF) := by
  refine ⟨fun x hx => ⟨?_, ?_⟩, ?_⟩
  · refine ⟨_, _, _, at0_inv rfl rfl ?_, at0_moves .unknown (initRequest 0) (.call .reset .resp)
      { Work.empty with i := some x.2, j := some 0 } [x.1] HostBuf.empty, rfl, rfl, rfl⟩
    refine ⟨⟨rfl, rfl⟩, ⟨0, rfl, by decide⟩, x.2, rfl, ?_⟩
    simp only [List.mem_cons, List.not_mem_nil, or_false] at hx
    rcases hx with rfl | rfl | rfl <;> decide
  · refine ⟨_, _, _, at0_inv rfl rfl ?_, at0_moves .unknown (initRequest 0) (.call .probe .resp)
      { Work.empty with i := some x.2 } [x.1] HostBuf.empty, rfl, rfl, rfl⟩
    refine ⟨⟨rfl, rfl⟩, trivial, x.2, rfl, ?_⟩
    simp only [List.mem_cons, List.not_mem_nil, or_false] at hx
    rcases hx with rfl | rfl | rfl <;> decide
  · exact ⟨_, _, _, by exact at0_inv rfl rfl ⟨⟨rfl, rfl⟩, trivial, by decide, 0xFF, rfl, rfl⟩, at0_moves .unknown
      (initRequest 0) (.call .probe .respTimeout) { Work.empty with b := some 0xFF } [] HostBuf.empty, rfl, rfl⟩

/-- The longest busy run and the longest run of invalid bytes that a bound of 4 lets end. -/
theorem witness_SendCommand :
    ∃ (i : Instr) (s : State) (u : Nat) (U : UnitState) (run : Running) (site : CallSite)
      (busy polls ignored rest : List Byte) (r : Byte),
      s.Inv ∧ site.operation run.work = some i ∧ s.Moves u U run ∧ run.pos = .call site .preWait ∧
      run.work.i = some 0 ∧
      U.inbound = busy ++ [0xFF] ++ ignored ++ polls ++ [r] ++ rest ∧
      (∀ b ∈ busy, b ≠ 0xFF) ∧ busy.length < s.cfg.bWaitCmd ∧ ignored.length = 6 ∧
      (∀ b ∈ polls, 0x80 ≤ b.toNat) ∧ polls.length < s.cfg.bCmd ∧ r.toNat < 0x80 :=
  ⟨.cmd58, _, _, _, _, .ocr, [0, 0, 0], [0xFF, 0x80, 0xFF], [1, 2, 3, 4, 5, 6], [7], 0x7F,
    by exact at0_inv rfl rfl ⟨⟨rfl, rfl⟩, rfl, by decide, 0, rfl, by decide⟩, rfl,
    at0_moves .unknown (initRequest 0) (.call .ocr .preWait) { Work.empty with i := some 0, c := some .sdv2 }
      [0, 0, 0, 0xFF, 1, 2, 3, 4, 5, 6, 0xFF, 0x80, 0xFF, 0x7F, 7] HostBuf.empty,
    rfl, rfl, rfl, by decide, by decide, rfl, by decide, by decide, by decide⟩

/-- Every call site of INIT at its response poll and at its timeout; attempts 3 and 4 of CMD0, valid and timed out
at the last poll of a bound of 4; the probe's last byte with bit 2 set and clear. -/
theorem witness_StatusInInit :
    (∀ x ∈ [((0b0000001 : BitVec 7), (2 : Word)), (0, 2), (0, 3)],
      ∃ (s : State) (U : UnitState) (run : Running) (n j : Word),
      s.Moves 0 U run ∧ run.work.i = some n ∧ run.pos = .call .reset .resp ∧ run.work.j = some j ∧ j = x.2 ∧
      j.toNat < 4 ∧ (x.1 = 0b0000001 ∨ j.toNat = 3 ∨ x.1 ≠ 0b0000001 ∧ j.toNat < 3)) ∧
    (∀ site ∈ [CallSite.probe, .negPrefix, .negCond, .ocr, .capacity],
      ∃ (s : State) (U : UnitState) (run : Running) (n : Word), s.Moves 0 U run ∧ run.work.i = some n ∧
        run.pos = .call site .resp) ∧
    (∀ j ∈ [(2 : Word), 3], ∃ (s : State) (U : UnitState) (run : Running) (n : Word) (last : Byte), s.Moves 0 U run ∧
      run.pos = .call .reset .resp ∧ run.work.i = some n ∧ run.work.j = some j ∧ U.answer s.draws = last ∧
      0x80 ≤ last.toNat ∧ s.cfg.bCmd ≤ n.toNat + 1 ∧ j.toNat < 4) ∧
    (∀ site ∈ [CallSite.probe, .negPrefix, .negCond, .ocr, .capacity], ∀ last ∈ [(0xFF : Byte), 0x80],
      ∃ (s : State) (U : UnitState) (run : Running), s.Moves 0 U run ∧ run.work.b = some last ∧ 0x80 ≤ last.toNat ∧
        run.work.c = some .sdv2 ∧ run.pos = .call site .respTimeout) := by
  refine ⟨fun x hx => ?_, fun site _ => ?_, fun j hj => ?_, fun site _ last hl => ?_⟩
  · refine ⟨_, _, _, 0, x.2, at0_moves .unknown (initRequest 0) (.call .reset .resp)
      { Work.empty with i := some 0, j := some x.2 } [] HostBuf.empty, rfl, rfl, rfl, rfl, ?_⟩
    simp only [List.mem_cons, List.not_mem_nil, or_false] at hx
    rcases hx with rfl | rfl | rfl <;> decide
  · exact ⟨_, _, _, 0, at0_moves .unknown (initRequest 0) (.call site .resp) { Work.empty with i := some 0 } []
      HostBuf.empty, rfl, rfl⟩
  · refine ⟨_, _, _, 3, 0x80, at0_moves .unknown (initRequest 0) (.call .reset .resp)
      { Work.empty with i := some 3, j := some j } [0x80] HostBuf.empty, rfl, rfl, rfl, rfl, by decide, Nat.le_refl 4, ?_⟩
    simp only [List.mem_cons, List.not_mem_nil, or_false] at hj
    rcases hj with rfl | rfl <;> decide
  · refine ⟨_, _, _, at0_moves .unknown (initRequest 0) (.call site .respTimeout)
      { Work.empty with b := some last, c := some .sdv2 } [] HostBuf.empty, rfl, ?_, rfl, rfl⟩
    simp only [List.mem_cons, List.not_mem_nil, or_false] at hl
    rcases hl with rfl | rfl <;> decide

/-- Every call site of READ and WRITE at its response poll and at its timeout. -/
theorem witness_StatusInTransfer :
    ∀ site ∈ [CallSite.readStart, .readStop, .writePrefix, .writeErase, .writeStart],
      (∃ (s : State) (U : UnitState) (run : Running) (n : Word), s.Moves 0 U run ∧ run.work.i = some n ∧
        run.pos = .call site .resp) ∧
      (∃ (s : State) (U : UnitState) (run : Running) (last : Byte) (arg nsec : Word), s.Moves 0 U run ∧
        0x80 ≤ last.toNat ∧ run.work.b = some last ∧ run.work.arg = some arg ∧ run.work.nsec = some nsec ∧
        run.pos = .call site .respTimeout) :=
  fun site _ => ⟨⟨_, _, _, 0, at0_moves .sdv2 (readRequest 0 0 1) (.call site .resp) { Work.empty with i := some 0 }
    [] (bufOf 1), rfl, rfl⟩,
    _, _, _, 0x80, 10, 3, at0_moves .sdv2 (writeRequest 0 0 1200) (.call site .respTimeout)
      { Work.empty with b := some 0x80, arg := some 10, nsec := some 3 } [] (bufOf 1), by decide, rfl, rfl, rfl, rfl⟩

/-- The CSD wait, and a READ sector with 512 and with 513 bytes left. -/
theorem witness_TokenStart :
    (∃ (s : State) (U : UnitState) (run : Running) (n : Word), s.Moves 0 U run ∧ run.work.i = some n ∧
      run.pos = .wait .csd) ∧
    ∀ rem ∈ [(512 : Word), 513], ∃ (s : State) (U : UnitState) (run : Running) (n : Word), s.Moves 0 U run ∧
      run.work.i = some n ∧ run.pos = .wait .readStart ∧ run.work.rem = some rem :=
  ⟨⟨_, _, _, 0, at0_moves .unknown (initRequest 0) (.wait .csd) { Work.empty with i := some 0 } [] HostBuf.empty, rfl,
    rfl⟩,
   fun rem _ => ⟨_, _, _, 0, at0_moves .sdv2 (readRequest 0 0 rem) (.wait .readStart)
    { Work.empty with i := some 0, rem := some rem } [] HostBuf.empty, rfl, rfl, rfl⟩⟩

/-- The registers of a READ or WRITE of one byte, before its only sector is done. -/
def oneByte : Work := { Work.empty with i := some 0, rem := some 1, p := some 0, m := some 1 }

theorem oneByte_sectorOk (req : Request) (pos : Pos) (h : req.count = 1) : Running.sectorOk ⟨req, pos, oneByte⟩ :=
  ⟨1, 0, rfl, rfl, by decide, by rw [h]; decide⟩

theorem oneByte_shareOk (req : Request) (pos : Pos) : Running.shareOk ⟨req, pos, oneByte⟩ :=
  ⟨1, rfl, (by decide : some (1 : BitVec 10) = some (sectorShare 1))⟩

def waitRequest : WaitSite → Request
  | .csd => initRequest 0
  | .readStart => readRequest 0 0 1
  | .wdata => writeRequest 0 0 1
  | .wdone => writeRequest 0 0 1
  | .wstop => writeRequest 0 0 1
  | .widle => writeRequest 0 0 1

def waitInstr : WaitSite → Instr
  | .csd => .init 0
  | .readStart => .read 0 0 1
  | .wdata => .write 0 0 1
  | .wdone => .write 0 0 1
  | .wstop => .write 0 0 1
  | .widle => .write 0 0 1

def waitState (site : WaitSite) (inb : List Byte) : State :=
  at0 (if site = .csd then .unknown else .sdv2) (waitRequest site) (.wait site)
    { oneByte with c := some .sdv2 } inb (bufOf 1)

theorem waitState_inv (site : WaitSite) (inb : List Byte) : (waitState site inb).Inv := by
  refine at0_inv rfl (by cases site <;> rfl) ?_
  refine ⟨?_, ?_, 0, rfl, by cases site <;> decide⟩
  · cases site
    · exact ⟨rfl, rfl⟩
    all_goals exact ⟨rfl, (by decide : CardClass.sdv2 ≠ .unknown), (by decide : 1 ≤ (1 : Word).toNat),
      (by decide : (1 : Word).toNat ≤ 1)⟩
  · cases site
    · exact ⟨.sdv2, rfl, by decide⟩
    · exact ⟨1, 0, rfl, rfl, by decide, by decide⟩
    · exact ⟨1, 0, rfl, rfl, by decide, by decide⟩
    · exact ⟨⟨1, 0, rfl, rfl, by decide, by decide⟩, 1, rfl, by decide⟩
    · trivial
    · trivial

/-- What each wait waits for (10_state.md R40). -/
def waitByte : WaitSite → Byte
  | .csd => 0xFE
  | .readStart => 0xFE
  | .wdata => 0xFF
  | .wdone => 0xFF
  | .wstop => 0xFF
  | .widle => 0xFF

/-- Each of the six waits, its last poll the one that succeeds (`B - 1`). -/
theorem witness_WaitSucceeds : ∀ site : WaitSite,
    ∃ (i : Instr) (s : State) (U : UnitState) (run : Running) (polls rest : List Byte) (b : Byte),
      s.Inv ∧ run.IsOf i ∧ s.Runs run.req.unit.toNat U run ∧ run.pos = .wait site ∧ run.work.i = some 0 ∧
      U.inbound = polls ++ [b] ++ rest ∧ (∀ x ∈ polls, x ≠ waitByte site) ∧ b = waitByte site ∧
      polls.length < s.cfg.bound site.phase := by
  intro site
  let b : Byte := waitByte site
  refine ⟨waitInstr site, waitState site [0, 0, 0, b],
    running (if site = .csd then .unknown else .sdv2) (waitRequest site) (.wait site) { oneByte with c := some .sdv2 }
      [0, 0, 0, b] (bufOf 1), ⟨waitRequest site, .wait site, { oneByte with c := some .sdv2 }⟩,
    [0, 0, 0], [], b, waitState_inv site _, ?_, ⟨?_, by rfl⟩, rfl, rfl, by rfl, ?_, ?_, ?_⟩
  · cases site <;> rfl
  · cases site <;> rfl
  all_goals cases site <;> decide

/-- Each of the six waits, all four polls failing. -/
theorem witness_WaitTimesOut : ∀ site : WaitSite,
    ∃ (i : Instr) (s : State) (U : UnitState) (run : Running) (polls rest : List Byte),
      s.Inv ∧ run.IsOf i ∧ s.Runs run.req.unit.toNat U run ∧ run.pos = .wait site ∧ run.work.i = some 0 ∧
      U.inbound = polls ++ rest ∧ (∀ x ∈ polls, x ≠ waitByte site) ∧
      polls.length = s.cfg.bound site.phase := by
  intro site
  refine ⟨waitInstr site, waitState site [0, 0, 0, 0, 1],
    running (if site = .csd then .unknown else .sdv2) (waitRequest site) (.wait site) { oneByte with c := some .sdv2 }
      [0, 0, 0, 0, 1] (bufOf 1), ⟨waitRequest site, .wait site, { oneByte with c := some .sdv2 }⟩, [0, 0, 0, 0], [1], waitState_inv site _, ?_,
    ⟨?_, by rfl⟩, rfl, rfl, by rfl, ?_, ?_⟩
  · cases site <;> rfl
  · cases site <;> rfl
  all_goals cases site <;> decide

theorem witness_FailureEndsTheRequest : ∃ (i : Instr) (s : State) (U : UnitState) (run : Running) (e : OutcomeCode),
    run.IsOf i ∧ s.Runs run.req.unit.toNat U run ∧ run.pos = .desFail e :=
  ⟨.init 0, _, _, ⟨initRequest 0, .desFail .unsupportedCard, Work.empty⟩, .unsupportedCard, rfl, (at0_moves .unknown (initRequest 0) (.desFail .unsupportedCard) Work.empty []
    HostBuf.empty).2, rfl⟩

theorem initAt (pos : Pos) (w : Work) (inb : List Byte) {P : State → UnitState → Running → Prop}
    (h : P (at0 .unknown (initRequest 0) pos w inb) (running .unknown (initRequest 0) pos w inb) ⟨initRequest 0, pos, w⟩) :
    ∃ (s : State) (U : UnitState) (run : Running),
      run.IsOf (.init run.req.unit) ∧ s.Runs run.req.unit.toNat U run ∧ P s U run :=
  ⟨_, _, ⟨initRequest 0, pos, w⟩, rfl, (at0_moves ..).2, h⟩

theorem witness_PowerUpClocks : ∃ (s : State) (U : UnitState) (run : Running), run.IsOf (.init run.req.unit) ∧
    s.Runs run.req.unit.toNat U run ∧ run.pos = .desPower :=
  initAt .desPower Work.empty [] rfl

/-- The CSD of `csdA`, two checksum bytes and one byte more. -/
theorem witness_CsdIsRead : ∃ (s : State) (U : UnitState) (run : Running), run.IsOf (.init run.req.unit) ∧
    s.Runs run.req.unit.toNat U run ∧ ∃ csd sums rest, run.pos = .csd 0 ∧ U.inbound = csd ++ sums ++ rest ∧
      csd.length = 16 ∧ sums.length = 2 :=
  initAt (.csd 0) Work.empty (csdA.toList ++ [0xAB, 0xCD] ++ [0xFF]) ⟨csdA.toList, [0xAB, 0xCD], [0xFF], rfl, rfl, rfl, rfl⟩

/-- Each clause, with the registers it names: the five `Select`s, the first and last trailing bytes, the status `0x01` and another, the echo `0xAA` and another, bit 0
clear for either class and set at iterations 2 and 3 of 4, the OCR bytes `0xC0` and `0xBF`. -/
theorem witness_InitDecisions :
    let has := fun (P : State → UnitState → Running → Prop) => ∃ (s : State) (U : UnitState) (run : Running),
      run.IsOf (.init run.req.unit) ∧ s.Runs run.req.unit.toNat U run ∧ P s U run
    (∀ pos ∈ [Pos.selReset, .selProbe, .selNeg, .selOcr, .selCap, .echo 0, .echo 2, .ocr 0, .ocr 3],
      has fun _ _ run => run.pos = pos) ∧
    (∀ r ∈ [(0x01 : Byte), 0x00], has fun _ _ run => run.pos = .desReset ∧ run.work.r = some r) ∧
    (∀ b ∈ [(0xAA : Byte), 0xAB], has fun s U run => run.pos = .echo 3 ∧ U.answer s.draws = b) ∧
    (has fun _ _ run => run.pos = .desProbe) ∧
    (∀ x ∈ [((0x00 : Byte), (0 : Word), CardClass.sdv2), (0x00, 3, .mmcSdv1), (0x01, 2, .sdv2), (0x01, 3, .sdv2)],
      has fun s _ run => run.pos = .desNeg ∧ run.work.r = some x.1 ∧ run.work.j = some x.2.1 ∧
        run.work.c = some x.2.2 ∧ s.cfg.bSendOp = 4) ∧
    (has fun _ _ run => run.pos = .negTimeout) ∧
    (∀ b ∈ [(0xC0 : Byte), 0xBF], has fun _ _ run => run.pos = .desOcr ∧ run.work.t[0] = some b) ∧
    (has fun _ _ run => run.pos = .rateFast) := by
  exact ⟨fun pos _ => initAt pos Work.empty [] rfl,
    fun r _ => initAt .desReset { Work.empty with r := some r } [] ⟨rfl, rfl⟩,
    fun b _ => initAt (.echo 3) Work.empty [b] ⟨rfl, rfl⟩,
    initAt .desProbe Work.empty [] rfl,
    fun x _ => initAt .desNeg { Work.empty with r := some x.1, j := some x.2.1, c := some x.2.2 } []
      ⟨rfl, rfl, rfl, rfl, rfl⟩,
    initAt .negTimeout Work.empty [] rfl,
    fun b _ => initAt .desOcr { Work.empty with t := #v[some b, none, none, none] } [] ⟨rfl, rfl⟩,
    initAt .rateFast Work.empty [] rfl⟩

/-- The registers after CAPACITY of `csdA`, its byte 0 replaced by `b0`. -/
def csdRead (b0 : Byte) (c : CardClass) : Work :=
  { Work.empty with
    c := some c
    csd := #v[some b0, some 0, some 0, some 0, some 0, some 0, some 0, some 0, some 0, some 0x1F, some 0, some 0,
      some 0, some 0, some 0, some 0] }

/-- A CSD of an unknown version, whose count is 0, and one of layout A. -/
theorem witness_InitCommit :
    let has := fun (P : Word → Prop) => ∃ (s : State) (U : UnitState) (run : Running),
      run.IsOf (.init run.req.unit) ∧ s.Runs run.req.unit.toNat U run ∧
      ∃ (csd : Csd) (c : CardClass), run.pos = .desCap ∧
        (∀ (k : Nat) (h : k < 16), run.work.csd[k] = some csd[k]) ∧ run.work.c = some c ∧
        P (decodeCsd csd (Config.freeSectors s.draws))
    has (fun n => n = 0) ∧ has (fun n => n ≠ 0) :=
  ⟨initAt .desCap (csdRead 0x80 .sdv2) [] ⟨csdA.set 0 0x80, .sdv2, rfl, by decide, rfl, by decide⟩,
   initAt .desCap (csdRead 0x40 .sdv2Block) [] ⟨csdA, .sdv2Block, rfl, by decide, rfl, by decide⟩⟩

/-- Each branch; layout B at its exponents 9 and 8. -/
theorem witness_DecodeCsd :
    (csdA[0].toNat / 64 = 1) ∧
    (∃ csd : Csd, csd[0].toNat / 64 = 0 ∧
      9 ≤ csd[5].toNat % 16 + csd[10].toNat / 128 + csd[9].toNat % 4 * 2 + 2) ∧
    (∃ csd : Csd, csd[0].toNat / 64 = 0 ∧ csd[5].toNat % 16 + csd[10].toNat / 128 + csd[9].toNat % 4 * 2 + 2 < 9) ∧
    (∃ csd : Csd, 2 ≤ csd[0].toNat / 64) :=
  ⟨by decide, ⟨(Vector.replicate 16 0).set 5 7, by decide, by decide⟩,
   ⟨(Vector.replicate 16 0).set 5 6, by decide, by decide⟩, ⟨csdA.set 0 0x80, by decide⟩⟩

def sdhcBytes : List Byte :=
  List.replicate 10 0xFF ++ List.replicate 6 0xFF ++ [0x01] ++ [0xFF] ++ List.replicate 6 0xFF ++
    [0x01, 0x00, 0x00, 0x01, 0xAA] ++ [0xFF] ++ List.replicate 6 0xFF ++ [0x01] ++
    [0xFF] ++ List.replicate 6 0xFF ++ [0x00] ++ [0xFF] ++ List.replicate 6 0xFF ++ [0x00, 0xC0, 0xFF, 0x80, 0x00] ++
    [0xFF] ++ List.replicate 6 0xFF ++ [0x00, 0xFE] ++ csdA.toList ++ [0xAB, 0xCD] ++ []

/-- 95_test_vectors.md V4 row 1. -/
theorem witness_InitOfPromptSdhcCard :
    ∃ (s : State) (unit : BitVec 8) (V : UnitState) (fill f0 f8 f55 f41 f58 f9 csd rest : List Byte)
      (r8 t0 t1 t2 s55 s41 o0 o1 o2 o3 k0 k1 : Byte),
      s.Inv ∧ s.units[unit.toNat]? = some V ∧ V.agent = .idle ∧
      V.inbound = fill ++ f0 ++ [0x01] ++ [0xFF] ++ f8 ++ [r8, t0, t1, t2, 0xAA] ++ [0xFF] ++ f55 ++ [s55] ++
        [0xFF] ++ f41 ++ [s41] ++ [0xFF] ++ f58 ++ [0x00, o0, o1, o2, o3] ++ [0xFF] ++ f9 ++ [0x00, 0xFE] ++
        csd ++ [k0, k1] ++ rest ∧
      fill.length = 10 ∧ f0.length = 6 ∧ f8.length = 6 ∧ f55.length = 6 ∧ f41.length = 6 ∧ f58.length = 6 ∧
      f9.length = 6 ∧ csd.length = 16 ∧ r8.toNat < 0x80 ∧ r8.getLsbD 2 = false ∧ s55.toNat < 0x80 ∧
      s41.toNat < 0x80 ∧ s41.getLsbD 0 = false ∧ 0xC0 ≤ o0.toNat ∧ (csd.getD 0 0).toNat / 64 = 1 :=
  ⟨withUnit { idle .unknown with inbound := sdhcBytes }, 0, _, List.replicate 10 0xFF, List.replicate 6 0xFF,
    List.replicate 6 0xFF, List.replicate 6 0xFF, List.replicate 6 0xFF, List.replicate 6 0xFF, List.replicate 6 0xFF,
    csdA.toList, [], 0x01, 0x00, 0x00, 0x01, 0x01, 0x00, 0xC0, 0xFF, 0x80, 0x00, 0xAB, 0xCD,
    withUnit_inv ⟨rfl, fun run hr => by cases hr⟩ rfl, rfl, rfl, rfl, by decide⟩

/-- Two idle units of different classes. -/
theorem witness_InitIsAFunctionOfTheBytes :
    ∃ (n : Nat) (s s' t t' : State) (unit : BitVec 8) (V V' : UnitState), s.Inv ∧ s'.Inv ∧ s.cfg = s'.cfg ∧
      s.draws = s'.draws ∧ s.units[unit.toNat]? = some V ∧ s'.units[unit.toNat]? = some V' ∧ V.agent = .idle ∧
      V'.agent = .idle ∧ V.inbound = V'.inbound ∧ V.cls ≠ V'.cls ∧ execTimes (.init unit) (n + 1) s = .next t ∧
      execTimes (.init unit) (n + 1) s' = .next t' :=
  ⟨1, withUnit (idle .sdv2), withUnit (idle .mmcSdv1), _, _, 0, _, _, idle_inv _ rfl, idle_inv _ rfl, rfl, rfl, rfl,
    rfl, rfl, rfl, rfl, by decide, rfl, rfl⟩

/-- A sector's registers: `rem` bytes left, at buffer byte 0. -/
def sector (rem : Word) : Work :=
  { Work.empty with rem := some rem, p := some 0, m := some (sectorShare rem) }

/-- A payload about to start, with 512 bytes left and with 513. -/
theorem witness_ReadSector : ∀ rem ∈ [(512 : Word), 513],
    ∃ (s : State) (U : UnitState) (run : Running) (payload sums rest : List Byte) (p : Word),
      s.Inv ∧ run.IsOf (.read 0 0 rem) ∧ s.Runs 0 U run ∧ run.pos = .readPayload 0 ∧
      run.work.rem = some rem ∧ run.work.p = some p ∧ U.inbound = payload ++ sums ++ rest ∧
      payload.length = 512 ∧ sums.length = 2 := by
  intro rem h
  refine ⟨_, _, ⟨readRequest 0 0 rem, .readPayload 0, sector rem⟩, List.replicate 512 0x5A, [1, 2], [3], 0,
    at0_inv (buf := bufOf 513) rfl rfl ?_, rfl,
    (at0_moves .sdv2 (readRequest 0 0 rem) (.readPayload 0) (sector rem) (List.replicate 512 0x5A ++ [1, 2] ++ [3])
      _).2, rfl, rfl, rfl, rfl, List.length_replicate, rfl⟩
  simp only [List.mem_cons, List.not_mem_nil, or_false] at h
  rcases h with rfl | rfl <;>
    exact ⟨⟨rfl, by decide, by decide, by decide⟩, ⟨_, 0, rfl, rfl, by decide, by decide⟩, ⟨_, rfl, rfl⟩, by decide⟩

theorem witness_TokenWstart : ∃ (s : State) (U : UnitState) (run : Running) (rem : Word), s.Moves 0 U run ∧
    run.pos = .wstartToken ∧ run.work.rem = some rem :=
  ⟨_, _, _, 513, at0_moves .sdv2 (writeRequest 0 0 513) .wstartToken (sector 513) [] (bufOf 513), rfl, rfl⟩

theorem writeAt (pos : Pos) (hp : pos = .writePayload 0 ∨ pos = .desSector) : ∀ rem ∈ [(512 : Word), 513],
    ∃ (s : State) (U : UnitState) (run : Running) (p : Word), s.Inv ∧ run.IsOf (.write 0 0 rem) ∧ s.Runs 0 U run ∧
      run.pos = pos ∧ run.work.rem = some rem ∧ run.work.p = some p := by
  intro rem h
  refine ⟨_, _, ⟨writeRequest 0 0 rem, pos, sector rem⟩, 0, at0_inv (buf := bufOf 513) rfl rfl ?_, rfl,
    (at0_moves .sdv2 (writeRequest 0 0 rem) pos (sector rem) [] _).2, rfl, rfl, rfl⟩
  simp only [List.mem_cons, List.not_mem_nil, or_false] at h
  rcases hp with rfl | rfl <;> rcases h with rfl | rfl <;> first
    | exact ⟨⟨rfl, by decide, by decide, by decide⟩, ⟨_, 0, rfl, rfl, by decide, by decide⟩, ⟨_, rfl, rfl⟩, by decide⟩
    | exact ⟨⟨rfl, by decide, by decide, by decide⟩, ⟨_, 0, rfl, rfl, by decide, by decide⟩, ⟨_, rfl, rfl⟩⟩

/-- A payload about to start, with 512 bytes left and with 513. -/
theorem witness_WriteSector : ∀ rem ∈ [(512 : Word), 513],
    ∃ (s : State) (U : UnitState) (run : Running) (p : Word), s.Inv ∧ run.IsOf (.write 0 0 rem) ∧ s.Runs 0 U run ∧
      run.pos = .writePayload 0 ∧ run.work.rem = some rem ∧ run.work.p = some p := writeAt _ (.inl rfl)

/-- After the setup; before a sector's last `Deselect`, with 512 bytes left and with 513. -/
theorem witness_WriteNextSector :
    (∃ (s : State) (U : UnitState) (run : Running), s.Inv ∧ run.IsOf (.write 0 0 512) ∧ s.Runs 0 U run ∧
      run.pos = .desSetup) ∧
    ∀ rem ∈ [(512 : Word), 513],
    ∃ (s : State) (U : UnitState) (run : Running) (p : Word), s.Inv ∧ run.IsOf (.write 0 0 rem) ∧ s.Runs 0 U run ∧
      run.pos = .desSector ∧ run.work.rem = some rem ∧ run.work.p = some p :=
  ⟨⟨_, _, _, by exact at0_inv (buf := bufOf 513) rfl rfl ⟨rfl, by decide, by decide, by decide⟩, by rfl,
    (at0_moves .sdv2 (writeRequest 0 0 512) .desSetup Work.empty [] _).2, rfl⟩, writeAt _ (.inr rfl)⟩

theorem witness_DataRespAccept : ∃ (s : State) (U : UnitState) (run : Running), s.Moves 0 U run ∧
    run.pos = .dataResp := ⟨_, _, _, at0_moves .sdv2 (writeRequest 0 0 1) .dataResp oneByte [0xE5] (bufOf 1), rfl⟩

/-- V8: `0x0B`. -/
theorem witness_DataRejected : ∃ (s : State) (U : UnitState) (run : Running), run.IsOf (.write 0 0 1) ∧
    s.Runs 0 U run ∧ run.pos = .dataResp ∧ (U.answer s.draws).toNat % 32 ≠ 5 :=
  ⟨_, _, _, by rfl, (at0_moves .sdv2 (writeRequest 0 0 1) .dataResp oneByte [0x0B] (bufOf 1)).2, rfl, by decide⟩

theorem witness_TokenWstop : ∃ (s : State) (U : UnitState) (run : Running), s.Moves 0 U run ∧
    run.pos = .wstopToken := ⟨_, _, _, at0_moves .sdv2 (writeRequest 0 0 1) .wstopToken oneByte [] (bufOf 1), rfl⟩

theorem witness_TransferCompletes : ∃ (i : Instr) (s : State) (U : UnitState) (run : Running), run.IsOf i ∧
    s.Runs run.req.unit.toNat U run ∧ run.pos = .desDone :=
  ⟨.read 0 0 1, _, _, ⟨readRequest 0 0 1, .desDone, oneByte⟩, rfl, (at0_moves .sdv2 (readRequest 0 0 1) .desDone oneByte [] (bufOf 1)).2, rfl⟩

/-- A frame byte, and a status. -/
theorem witness_CommandFrame :
    (∃ t, exec .cmd0 (at0 .unknown (initRequest 0) (.call .reset (.frame 0)) Work.empty [0]) = .next t) ∧
    (∃ t, exec (.r1Status 0) (at0 .sdv2 (readRequest 0 0 1) (.call .readStop .resp)
      { Work.empty with i := some 0 } [0]) = .next t) := ⟨⟨_, rfl⟩, ⟨_, rfl⟩⟩

/-- Each of the four rows. -/
theorem witness_TokenFrame :
    (∃ t, exec .tokenStart (at0 .sdv2 (readRequest 0 0 1) (.wait .readStart) oneByte [0xFE]) = .next t) ∧
    (∃ t, exec .tokenWstart (at0 .sdv2 (writeRequest 0 0 1) .wstartToken oneByte [0]) = .next t) ∧
    (∃ t, exec .tokenWstop (at0 .sdv2 (writeRequest 0 0 1) .wstopToken oneByte [0]) = .next t) ∧
    (∃ t, exec (.dataRespAccept 0) (at0 .sdv2 (writeRequest 0 0 1) .dataResp oneByte [5]) = .next t) :=
  ⟨⟨_, rfl⟩, ⟨_, rfl⟩, ⟨_, rfl⟩, ⟨_, rfl⟩⟩

theorem witness_InitFrame : ∃ t, initState.Inv ∧ exec (.init 0) initState = .next t := ⟨_, initState_inv, rfl⟩

/-- A payload byte below `m` and one at `m`. -/
theorem witness_ReadFrame : ∀ k ∈ [0, 1],
    ∃ t, (at0 .sdv2 (readRequest 0 0 1) (.readPayload k) oneByte [0x5A] (bufOf 1)).Inv ∧
      exec (.read 0 0 1) (at0 .sdv2 (readRequest 0 0 1) (.readPayload k) oneByte [0x5A] (bufOf 1)) = .next t := by
  intro k hk
  simp only [List.mem_cons, List.not_mem_nil, or_false] at hk
  rcases hk with rfl | rfl <;>
    exact ⟨_, at0_inv rfl rfl ⟨⟨rfl, by decide, by decide, by decide⟩, oneByte_sectorOk _ _ rfl, oneByte_shareOk _ _,
      by decide⟩, rfl⟩

theorem witness_WriteFrame :
    ∃ t, (at0 .sdv2 (writeRequest 0 0 1) .dataResp oneByte [0x0B] (bufOf 1)).Inv ∧
      exec (.write 0 0 1) (at0 .sdv2 (writeRequest 0 0 1) .dataResp oneByte [0x0B] (bufOf 1)) = .next t :=
  ⟨_, at0_inv rfl rfl ⟨⟨rfl, by decide, by decide, by decide⟩, oneByte_sectorOk _ _ rfl, oneByte_shareOk _ _⟩, rfl⟩

theorem witness_ShutdownDiagFrame :
    (∃ t, exec .diag State.reset = .next t) ∧ ∃ t, exec (.shutdown 0) State.reset = .next t := ⟨⟨_, rfl⟩, ⟨_, rfl⟩⟩

/-- The commit of INIT, `UNKNOWN` to `SDV2`. -/
theorem witness_ClassChangesOnlyInInitOrShutdown :
    ∃ (s t : State) (u : Nat) (U T : UnitState), s.Inv ∧ step s = .next t ∧ s.units[u]? = some U ∧
      t.units[u]? = some T ∧ T.cls ≠ U.cls := by
  refine ⟨at0 .unknown (initRequest 0) .desCap (csdRead 0x40 .sdv2) [], _, 0, _, _, at0_inv rfl rfl
    ⟨⟨rfl, rfl⟩, ⟨.sdv2, rfl, by decide⟩, ?_⟩, rfl, rfl, rfl, by decide⟩
  exact (by decide : ∀ (k : Nat) (h : k < 16), k < csdBytes → ((csdRead 0x40 .sdv2).csd[k]).isSome = true)

/-- A WIDLE wait that succeeds at index 2. -/
theorem witness_CountersOnlyRise :
    ∃ s t : State, s.Inv ∧ step s = .next t ∧ t.diag ≠ s.diag := by
  refine ⟨at0 .sdv2 (writeRequest 0 0 1) (.wait .widle) { oneByte with i := some 2 } [0xFF] (bufOf 1), _,
    at0_inv rfl rfl ⟨⟨rfl, by decide, by decide, by decide⟩, trivial, 2, rfl, by decide⟩, rfl, by decide⟩

/-- Two states that differ in the other unit's class and in the port's buffer. -/
theorem witness_UnitsAreIndependent :
    ∃ (s s' : State) (u : Nat) (U : UnitState) (run : Running), s.Inv ∧ s'.Inv ∧ s.Moves u U run ∧
      s'.Moves u U run ∧ s.cfg = s'.cfg ∧ s.draws = s'.draws ∧ s ≠ s' := by
  have h : UnitState.ok State.exampleConfig 0 (running .unknown (initRequest 0) .desPower Work.empty []) :=
    ⟨rfl, fun run hr => by injection hr with hr; subst hr; exact ⟨rfl, rfl, rfl⟩⟩
  exact ⟨withUnit (running .unknown (initRequest 0) .desPower Work.empty []),
    withUnit (running .unknown (initRequest 0) .desPower Work.empty []) (bufOf 1), 0, _, _, withUnit_inv h rfl,
    withUnit_inv h rfl, ⟨rfl, rfl, rfl⟩, ⟨rfl, rfl, rfl⟩, rfl, rfl, by decide⟩

end Sys2Proof.Machine.Tests
end

section
/-! SUPPORT. What a step answers without running an operation, and the proof that settles O8: a configuration
that is not allowed, a reserved `op` and a request that the host port cannot take are refused. -/

namespace Sys2Proof

theorem Config.distinct_of_wf {c : Config} (h : c.wf = true) : c.commands.distinct = true :=
  (Bool.and_eq_true_iff.1 h).2

/-- The `op` codes 5, 6 and 7 are of no operation (44_host.md R280). -/
theorem decodeRequest_reserved {q : Request} (h : 5 ≤ q.op.toNat) : decodeRequest q = .error .reservedOp := by
  have hne : ∀ x : BitVec 3, x.toNat < 5 → q.op ≠ x := by rintro x hx rfl; omega
  simp only [decodeRequest, hne opInit (by decide), hne opRead (by decide), hne opWrite (by decide),
    hne opShutdown (by decide), hne opDiag (by decide), if_false]

end Sys2Proof

namespace Sys2Proof.Machine

theorem State.configOk_iff {s : State} :
    s.configOk = true ↔ s.cfg.wf = true ∧ 1 ≤ s.units.length ∧ s.units.length ≤ 256 := by
  simp only [State.configOk, Bool.and_eq_true, decide_eq_true_eq, and_assoc]

/-! ### The host port -/

theorem State.fetch_host {s : State} {q : PortRecord} {rest : List PortRecord} (ht : s.turn = .host)
    (hq : s.hostQueue = q :: rest) :
    s.fetch = if s.portFree q.req then .word .host q.req.bytes { s with port := q, hostQueue := rest }
      else .refused .requestInFlight := by
  simp only [State.fetch, ht, hq]

/-- The port takes no request to a unit that is running one (44_host.md R287). -/
theorem State.portFree_of_running {s : State} {q : Request} {U : UnitState} {run : Running} (ho : q.op ≠ opDiag)
    (hu : s.units[q.unit.toNat]? = some U) (hr : U.agent = .running run) : s.portFree q = false := by
  simp only [State.portFree, if_neg ho, hu, UnitState.busy, hr, Bool.not_true]

/-- The port takes no DIAG while one is in flight (log 26). -/
theorem State.portFree_diag_in_flight {s : State} {q : Request} (ho : q.op = opDiag) (hd : s.diagRead ≠ none) :
    s.portFree q = false := by
  simpa only [State.portFree, if_pos ho, Option.isNone_eq_false_iff, Option.isSome_iff_ne_none] using hd

/-! ### The steps that stop before an operation runs -/

theorem step_of_not_configOk {s : State} (h : ¬ s.configOk = true) : step s = .refused .badConfiguration := by
  rw [step, if_neg h]

theorem step_of_fetch_refused {s : State} {r : Refusal} (hc : s.configOk = true) (hf : s.fetch = .refused r) :
    step s = .refused r := by
  rw [step, if_pos hc, hf]

theorem step_of_undecodable {s s' : State} {port : Port} {bytes : List Byte} {e : Reject} (hc : s.configOk = true)
    (hf : s.fetch = .word port bytes s') (hd : decode s.cfg.commands port bytes = .error e) :
    step s = .refused (.undecodable e) := by
  simp only [step, if_pos hc, hf, hd]

/-- A zero bound, a number of units outside 1 to 256, and two commands of a kind with one index are not allowed
(00_scope.md R9, 93 U6; log 25, log 28). -/
theorem State.not_configOk {s : State}
    (h : (∃ k, s.cfg.bound k = 0) ∨ s.units.length = 0 ∨ 256 < s.units.length ∨
      ∃ c d, c ≠ d ∧ Command.isApplication c = d.isApplication ∧
        s.cfg.commands.index c = s.cfg.commands.index d) : ¬ s.configOk = true := by
  rw [State.configOk_iff]
  rintro ⟨hw, hmin, hmax⟩
  obtain ⟨k, hk⟩ | h0 | h256 | ⟨c, d, hne, ha, hi⟩ := h
  · have := (Config.bound_pos hw k).1
    omega
  · omega
  · omega
  · exact hne (CommandTable.index_injective (Config.distinct_of_wf hw) ha hi)

/-- A request that the port could take and whose `op` is reserved is refused by name. -/
theorem step_reservedOp {s : State} {q : PortRecord} {rest : List PortRecord} (hc : s.configOk = true)
    (ht : s.turn = .host) (hq : s.hostQueue = q :: rest) (ho : 5 ≤ q.req.op.toNat)
    (hp : s.portFree q.req = true) : step s = .refused (.undecodable .reservedOp) := by
  have hf := State.fetch_host ht hq
  rw [if_pos hp] at hf
  exact step_of_undecodable hc hf ((decode_request ..).trans (decodeRequest_reserved ho))

/-- A request that the port cannot take is refused by name. -/
theorem step_requestInFlight {s : State} {q : PortRecord} {rest : List PortRecord} (hc : s.configOk = true)
    (ht : s.turn = .host) (hq : s.hostQueue = q :: rest) (hp : s.portFree q.req = false) :
    step s = .refused .requestInFlight := by
  have hf := State.fetch_host ht hq
  rw [if_neg (Bool.eq_false_iff.1 hp)] at hf
  exact step_of_fetch_refused hc hf

/-- Settles O8, by what the configuration check, the fetch at the host port and the decoder of a request record
each refuse. -/
theorem stepRefusals : Obligations.StepRefusals := by
  intro s
  refine ⟨fun h => step_of_not_configOk (State.not_configOk h),
    fun _ _ hc ht hq ho hp => step_reservedOp hc ht hq ho hp, fun q rest hc ht hq h => ?_⟩
  obtain ⟨ho, V, run, hu, hr⟩ | ⟨ho, hd⟩ := h
  · exact step_requestInFlight hc ht hq (State.portFree_of_running ho hu hr)
  · exact step_requestInFlight hc ht hq (State.portFree_diag_in_flight ho hd)

end Sys2Proof.Machine
end

section
/-! SUPPORT. The step of a unit's agent: whatever row the fetched bytes decode to, it is the primitive of the
agent's position. With it the proofs that settle O6 and O7. -/

namespace Sys2Proof.Machine

/-! ### What the step runs -/

theorem step_of_word {s s' : State} {port : Port} {bytes : List Byte} {i : Instr} (hc : s.configOk = true)
    (hf : s.fetch = .word port bytes s') (hd : decode s.cfg.commands port bytes = .ok i) :
    step s = thenReschedule (exec i s') := by
  simp only [step, if_pos hc, hf, hd]

theorem State.fetch_unit {s : State} {u : Nat} {U : UnitState} {run : Running} {port : Port} {bytes : List Byte}
    (hm : s.Moves u U run) (hf : fetchRunning s.cfg.commands run (U.answer s.draws) = .ok (port, bytes)) :
    s.fetch = .word port bytes s := by
  obtain ⟨ht, hr⟩ := hm
  simp only [State.fetch, ht, State.runningAt_eq_some.2 hr, hf]

theorem State.fetch_diag {s : State} {taken : List (Phase × Word)} (ht : s.turn = .diag)
    (hd : s.diagRead = some taken) : s.fetch = .word .host diagRequest.bytes s := by
  simp only [State.fetch, ht, hd]

theorem decode_diagRequest (t : CommandTable) : decode t .host diagRequest.bytes = .ok .diag :=
  decode_request t diagRequest

/-- Settles O6: a step is `exec` of what the decoder makes of the fetched bytes, at each of the three turns. -/
theorem stepRunsTheDecodedOperation : Obligations.StepRunsTheDecodedOperation := by
  intro s i hc
  refine ⟨fun q rest ht hq hp hd => ?_, fun u U run port bytes hm hf hd => step_of_word hc (State.fetch_unit hm hf) hd,
    fun taken ht hd => step_of_word hc (State.fetch_diag ht hd) (decode_diagRequest _), s.reschedule_cases⟩
  have hf := State.fetch_host ht hq
  rw [if_pos hp] at hf
  exact step_of_word hc hf hd

/-! ### The operation at a legal position -/

/-- A call site's frame decodes to its operation (30_encoding.md R103). -/
theorem CallSite.exists_operation {site : CallSite} {w : Work} {arg : Word} (h : site.argument w = some arg) :
    ∃ i, site.operation w = some i ∧ commandInstr site.command arg = .ok i := by
  cases site with
  | reset | probe | negPrefix | ocr | capacity | readStop | writePrefix =>
    injection h with h
    subst h
    exact ⟨_, rfl, rfl⟩
  | negCond =>
    obtain ⟨c, hc, rfl⟩ := Option.map_eq_some_iff.1 h
    refine ⟨.acmd41 (decide (c = .sdv2)), by simp only [CallSite.operation, hc, Option.map_some], ?_⟩
    cases c <;> rfl
  | readStart =>
    replace h : w.arg = some arg := h
    exact ⟨.cmd18 arg, by simp only [CallSite.operation, h, Option.map_some], rfl⟩
  | writeErase =>
    replace h : w.nsec = some arg := h
    exact ⟨.acmd23 arg, by simp only [CallSite.operation, h, Option.map_some], rfl⟩
  | writeStart =>
    replace h : w.arg = some arg := h
    exact ⟨.cmd25 arg, by simp only [CallSite.operation, h, Option.map_some], rfl⟩

theorem Family.exists_isOf {f : Family} {U : UnitState} {run : Running} (h : f.holdsFor U run.req) :
    ∃ i, run.IsOf i := by
  obtain ⟨⟨op, unit, offset, count⟩, pos, w⟩ := run
  cases f with
  | init => exact ⟨.init unit, h.1⟩
  | read => exact ⟨.read unit offset count, congrArg (Request.mk · unit offset count) h.1⟩
  | write => exact ⟨.write unit offset count, congrArg (Request.mk · unit offset count) h.1⟩

/-- At a legal position an agent runs an INIT, a READ or a WRITE (10_state.md R36). -/
theorem Running.exists_isOf {cfg : Config} {U : UnitState} {run : Running} (h : run.ok cfg U) : ∃ i, run.IsOf i := by
  obtain ⟨req, pos, w⟩ := run
  cases pos with
  | rateSlow | desPower | selReset | selProbe | negTimeout => exact Family.exists_isOf (f := .init) h
  | desSetup | selStop | wstopToken => exact Family.exists_isOf (f := .write) h
  | waitTimeout site => exact Family.exists_isOf (f := site.family) h
  | desDone => exact h.elim Family.exists_isOf Family.exists_isOf
  | desFail e =>
    obtain ⟨-, f, hf, -⟩ := h
    exact Family.exists_isOf hf
  | respond status value =>
    obtain ⟨hq, -⟩ | ⟨-, f, hf, -⟩ := h
    · exact ⟨.init req.unit, hq⟩
    · exact Family.exists_isOf hf
  | _ => exact Family.exists_isOf h.1

/-- The record of a running request decodes to its operation, and the operation performs the agent's next
primitive (44_host.md R280). -/
theorem exec_of_isOf {s : State} {U : UnitState} {run : Running} {i : Instr} (hi : run.IsOf i)
    (hr : s.Runs run.req.unit.toNat U run) :
    decodeRequest run.req = .ok i ∧ exec i s = performRun run.req.unit.toNat U run (U.answer s.draws) s := by
  obtain ⟨req, pos, w⟩ := run
  obtain ⟨hu, hr⟩ := hr
  cases i with
  | init unit =>
    replace hi : req = initRequest unit := hi
    subst hi
    exact ⟨rfl, hostRequest_running hu hr rfl⟩
  | read unit offset count =>
    replace hi : req = readRequest unit offset count := hi
    subst hi
    exact ⟨rfl, hostRequest_running hu hr rfl⟩
  | write unit offset count =>
    replace hi : req = writeRequest unit offset count := hi
    subst hi
    exact ⟨rfl, hostRequest_running hu hr rfl⟩
  | _ => exact False.elim hi

section
variable {s : State} {u : Nat} {U : UnitState} {run : Running}

/-- What the step of unit `u` finds at hand and decodes performs `run`'s next primitive. -/
def State.FetchesOwn (s : State) (u : Nat) (U : UnitState) (run : Running) : Prop :=
  ∃ port bytes i, fetchRunning s.cfg.commands run (U.answer s.draws) = .ok (port, bytes) ∧
    decode s.cfg.commands port bytes = .ok i ∧ exec i s = performRun u U run (U.answer s.draws) s

/-- Inside `SendCommand`: the frame, or the status that the response poll receives (40_exchanger.md R133, R134). -/
theorem fetchesOwn_call {site : CallSite} {x : XPos} (hd : s.cfg.commands.distinct = true) (hm : s.Moves u U run)
    (hp : run.pos = .call site x) {arg : Word} (ha : site.argument run.work = some arg) : s.FetchesOwn u U run := by
  have hmv := State.mover_eq_some.2 hm
  by_cases hx : x = .resp ∧ isStatus (U.answer s.draws) = true
  · obtain ⟨rfl, hb⟩ := hx
    have h7 : (U.answer s.draws).getLsbD 7 = false := (Bool.not_eq_true' _).mp hb
    refine ⟨.rxStatus, [U.answer s.draws], .r1Status ((U.answer s.draws).extractLsb' 0 7), ?_, ?_, ?_⟩
    · simp only [fetchRunning, hp, ha, need_some, hb, and_self, if_true]
    · simp only [decode, decodeStatus, h7, Bool.false_eq_true, if_false]
    · rw [exec, execR1Status, execAt_of hmv (by rw [hp]; rfl), statusByte_extract h7]
      rfl
  · obtain ⟨i, hi, hdec⟩ := CallSite.exists_operation ha
    refine ⟨site.command.port, frame s.cfg.commands site.command arg, i, ?_, ?_, exec_operation hi hmv hp⟩
    · simp only [fetchRunning, hp, ha, need_some, if_neg hx]
      rfl
    · rw [decode_frame hd, hdec]

/-- The record of the running request. -/
theorem fetchesOwn_request (hm : s.Moves u U run) (hu : run.req.unit.toNat = u) (hi : ∃ i, run.IsOf i)
    (hf : fetchRunning s.cfg.commands run (U.answer s.draws) = .ok (.host, run.req.bytes)) :
    s.FetchesOwn u U run := by
  obtain ⟨i, hi⟩ := hi
  subst hu
  obtain ⟨hd, he⟩ := exec_of_isOf hi hm.2
  exact ⟨.host, _, i, hf, (decode_request _ _).trans hd, he⟩

/-- A poll of a start-token wait: the token, or the request (43_transfer.md R234). -/
theorem fetchesOwn_startTokenWait (hm : s.Moves u U run) (hu : run.req.unit.toNat = u) (hi : ∃ i, run.IsOf i)
    (hp : run.pos = .wait .csd ∨ run.pos = .wait .readStart) : s.FetchesOwn u U run := by
  have hf : fetchRunning s.cfg.commands run (U.answer s.draws) =
      .ok (if isStartToken (U.answer s.draws) then (.rxToken, [U.answer s.draws]) else (.host, run.req.bytes)) := by
    obtain hp | hp := hp <;> simp only [fetchRunning, hp]
  by_cases hb : isStartToken (U.answer s.draws) = true
  · have hbyte : U.answer s.draws = tokenStartByte := beq_iff_eq.1 hb
    rw [if_pos hb] at hf
    refine ⟨_, _, .tokenStart, hf, by simp only [decode, hbyte, if_true], ?_⟩
    rw [exec, execTokenStart, execAt_of (State.mover_eq_some.2 hm) (by obtain hp | hp := hp <;> rw [hp] <;> rfl),
      ← hbyte]
    rfl
  · rw [if_neg hb] at hf
    exact fetchesOwn_request hm hu hi hf

/-- The data-response exchange: an accepted byte, or the request (43_transfer.md R246). -/
theorem fetchesOwn_dataResp (hm : s.Moves u U run) (hu : run.req.unit.toNat = u) (hi : ∃ i, run.IsOf i)
    (hp : run.pos = .dataResp) : s.FetchesOwn u U run := by
  by_cases hb : isAccepted (U.answer s.draws) = true
  · have hlow : (U.answer s.draws).extractLsb' 0 5 = 0b00101#5 := beq_iff_eq.1 hb
    refine ⟨.rxDataResp, [U.answer s.draws], .dataRespAccept ((U.answer s.draws).extractLsb' 5 3), ?_, ?_, ?_⟩
    · simp only [fetchRunning, hp, hb, if_true]
    · simp only [decode, decodeDataResp, hlow, if_true]
    · rw [exec, execDataRespAccept, execAt_of (State.mover_eq_some.2 hm) (by rw [hp]; rfl),
        dataRespByte_extract hlow]
      rfl
  · exact fetchesOwn_request hm hu hi (by simp only [fetchRunning, hp, if_neg hb])

/-- At every legal position what is fetched performs the position's primitive. -/
theorem State.Inv.fetchesOwn (hinv : s.Inv) (hm : s.Moves u U run) : s.FetchesOwn u U run := by
  obtain ⟨-, hrun⟩ := hinv.units u U hm.2.1
  obtain ⟨hu, hok⟩ := hrun run hm.2.2
  have hi := Running.exists_isOf hok
  have hmv := State.mover_eq_some.2 hm
  have hd := Config.distinct_of_wf (State.configOk_iff.1 hinv.config).1
  cases hp : run.pos with
  | call site x =>
    rw [Running.ok, hp] at hok
    obtain ⟨arg, ha⟩ := argument_isSome hok.2.1
    exact fetchesOwn_call hd hm hp ha
  | wait site =>
    cases site with
    | csd => exact fetchesOwn_startTokenWait hm hu hi (.inl hp)
    | readStart => exact fetchesOwn_startTokenWait hm hu hi (.inr hp)
    | _ => exact fetchesOwn_request hm hu hi (by rw [fetchRunning, hp])
  | wstartToken =>
    refine ⟨.txToken, [tokenWstartByte], .tokenWstart, by rw [fetchRunning, hp], rfl, ?_⟩
    exact execAt_of (fits := fun p => decide (p = .wstartToken)) hmv (decide_eq_true hp)
  | wstopToken =>
    refine ⟨.txToken, [tokenWstopByte], .tokenWstop, by rw [fetchRunning, hp], rfl, ?_⟩
    exact execAt_of (fits := fun p => decide (p = .wstopToken)) hmv (decide_eq_true hp)
  | dataResp => exact fetchesOwn_dataResp hm hu hi hp
  | _ => exact fetchesOwn_request hm hu hi (by rw [fetchRunning, hp])

theorem State.Inv.step_eq (hinv : s.Inv) (hm : s.Moves u U run) :
    step s = thenReschedule (performRun u U run (U.answer s.draws) s) := by
  obtain ⟨port, bytes, i, hf, hd, he⟩ := hinv.fetchesOwn hm
  rw [step_of_word hinv.config (State.fetch_unit hm hf) hd, he]

end

/-- Settles O7: at each legal position the bytes at hand decode to an operation whose meaning there is the
position's own primitive. -/
theorem stepIsTheAgentsNextPrimitive : Obligations.StepIsTheAgentsNextPrimitive :=
  fun _ _ _ _ hinv hm => hinv.step_eq hm

end Sys2Proof.Machine
end

section
/-! SUPPORT. The counters under a raise, and what one action does to the counters and to the class. -/

namespace Sys2Proof.Machine

/-! ### The counters -/

theorem Diag.get_set (d : Diag) (k k' : Phase) (v : Word) : (d.set k v).get k' = if k' = k then v else d.get k' := by
  cases k <;> cases k' <;> rfl

theorem wordMax_toNat (a b : Word) : (wordMax a b).toNat = max a.toNat b.toNat := by
  unfold wordMax
  split <;> omega

theorem Diag.get_raise_self (d : Diag) (k : Phase) (n : Word) :
    ((d.raise k n).get k).toNat = max (d.get k).toNat n.toNat := by
  rw [Diag.raise, Diag.get_set, if_pos rfl, wordMax_toNat]

theorem Diag.get_raise_of_ne (d : Diag) {k k' : Phase} (n : Word) (h : k' ≠ k) :
    (d.raise k n).get k' = d.get k' := by
  rw [Diag.raise, Diag.get_set, if_neg h]

/-- No counter falls (10_state.md R41). -/
theorem Diag.get_le_raiseOpt (d : Diag) (o : Option (Phase × Word)) (k : Phase) :
    (d.get k).toNat ≤ ((d.raiseOpt o).get k).toNat := by
  obtain _ | ⟨k', n⟩ := o
  · exact le_rfl
  · rw [Diag.raiseOpt_some]
    by_cases hk : k = k'
    · rw [hk, Diag.get_raise_self]
      exact le_max_left ..
    · rw [Diag.get_raise_of_ne d n hk]

/-- A raise below the bound keeps every counter below its bound. -/
theorem Diag.raiseOpt_lt {cfg : Config} {d : Diag} {o : Option (Phase × Word)}
    (h : ∀ k, (d.get k).toNat < cfg.bound k) (ho : ∀ k n, o = some (k, n) → n.toNat < cfg.bound k) (k : Phase) :
    ((d.raiseOpt o).get k).toNat < cfg.bound k := by
  obtain _ | ⟨k', n⟩ := o
  · exact h k
  · rw [Diag.raiseOpt_some]
    by_cases hk : k = k'
    · rw [hk, Diag.get_raise_self]
      exact max_lt (h k') (ho k' n rfl)
    · rw [Diag.get_raise_of_ne d n hk]
      exact h k

/-! ### What an action does to the counters and the class -/

/-- The wait of phase `k` that `run` stands in ends with index `n` when the transport returns `b`; for SEND_OP
it is the status kept that ends it (10_state.md R40, 41_init.md R180). -/
def Running.WaitEnds (run : Running) (b : Byte) (k : Phase) (n : Word) : Prop :=
  (k = .waitCmd ∧ (∃ site, run.pos = .call site .preWait) ∧ run.work.i = some n ∧ b = 0xFF) ∨
  (k = .cmd ∧ (∃ site, run.pos = .call site .resp) ∧ run.work.i = some n ∧ b.getLsbD 7 = false) ∨
  (k = .sendOp ∧ run.pos = .desNeg ∧ run.work.j = some n ∧ ∃ r, run.work.r = some r ∧ r.getLsbD 0 = false) ∨
  (run.work.i = some n ∧
    ((k = .csd ∧ run.pos = .wait .csd ∧ b = 0xFE) ∨
     (k = .readStart ∧ run.pos = .wait .readStart ∧ b = 0xFE) ∨
     (k = .wdata ∧ run.pos = .wait .wdata ∧ b = 0xFF) ∨
     (k = .wdone ∧ run.pos = .wait .wdone ∧ b = 0xFF) ∨
     (k = .wstop ∧ run.pos = .wait .wstop ∧ b = 0xFF) ∨
     (k = .widle ∧ run.pos = .wait .widle ∧ b = 0xFF)))

/-- An action that writes no class and raises no counter. -/
def Action.Quiet (a : Action) : Prop := a.cls = none ∧ a.diag = none

theorem Action.Quiet.of_ok {x a : Action} (h : (Except.ok x : Except Fault Action) = .ok a) (hx : x.Quiet) :
    a.Quiet := by
  injection h with h
  exact h ▸ hx

/-- An action that writes no class, and raises a counter only where the wait of its phase ends. -/
def Action.RaisesOnlyAt (a : Action) (run : Running) (b : Byte) : Prop :=
  a.cls = none ∧ (a.diag = none ∨ ∃ k n, a.diag = some (k, n) ∧ run.WaitEnds b k n)

theorem Action.Quiet.raisesOnlyAt {a : Action} {run : Running} {b : Byte} (h : a.Quiet) : a.RaisesOnlyAt run b :=
  ⟨h.1, .inl h.2⟩

section
variable {cfg : Config} {run : Running} {b : Byte} {a : Action}

theorem pollStep_raisesOnlyAt {k : Phase} {cond : Bool} {onHit onExpired : Work → Except Fault (Pos × Work)}
    (h : pollStep cfg run k cond b onHit onExpired = .ok a)
    (hends : ∀ n, run.work.i = some n → cond = true → run.WaitEnds b k n) : a.RaisesOnlyAt run b := by
  obtain ⟨i, hi, ⟨hc, next, -, rfl⟩ | ⟨-, -, rfl⟩ | ⟨-, -, next, -, rfl⟩⟩ := pollStep_ok h
  · exact ⟨rfl, .inr ⟨k, i, rfl, hends i hi hc⟩⟩
  · exact ⟨rfl, .inl rfl⟩
  · exact ⟨rfl, .inl rfl⟩

theorem actCall_raisesOnlyAt {site : CallSite} {x : XPos} (hp : run.pos = .call site x)
    (h : actCall cfg run site x b = .ok a) : a.RaisesOnlyAt run b := by
  cases x with
  | preWait =>
    rw [actCall] at h
    exact pollStep_raisesOnlyAt h fun n hi hb => .inl ⟨rfl, ⟨site, hp⟩, hi, beq_iff_eq.1 hb⟩
  | preTimeout => exact (Action.Quiet.of_ok h ⟨rfl, rfl⟩).raisesOnlyAt
  | frame k =>
    obtain ⟨arg, -, h⟩ := need_ok h
    exact (Action.Quiet.of_ok h ⟨rfl, rfl⟩).raisesOnlyAt
  | resp =>
    rw [actCall] at h
    exact pollStep_raisesOnlyAt h fun n hi hb => .inr (.inl ⟨rfl, ⟨site, hp⟩, hi, (Bool.not_eq_true' _).mp hb⟩)
  | respTimeout =>
    rw [actCall] at h
    split at h
    · exact (Action.Quiet.of_ok h ⟨rfl, rfl⟩).raisesOnlyAt
    · cases h

theorem actWait_raisesOnlyAt {site : WaitSite} (hp : run.pos = .wait site) (h : actWait cfg run site b = .ok a) :
    a.RaisesOnlyAt run b := by
  refine pollStep_raisesOnlyAt h fun n hi hb => .inr (.inr (.inr ⟨hi, ?_⟩))
  cases site with
  | csd => exact .inl ⟨rfl, hp, beq_iff_eq.1 hb⟩
  | readStart => exact .inr (.inl ⟨rfl, hp, beq_iff_eq.1 hb⟩)
  | wdata => exact .inr (.inr (.inl ⟨rfl, hp, beq_iff_eq.1 hb⟩))
  | wdone => exact .inr (.inr (.inr (.inl ⟨rfl, hp, beq_iff_eq.1 hb⟩)))
  | wstop => exact .inr (.inr (.inr (.inr (.inl ⟨rfl, hp, beq_iff_eq.1 hb⟩))))
  | widle => exact .inr (.inr (.inr (.inr (.inr ⟨rfl, hp, beq_iff_eq.1 hb⟩))))

theorem actDesNeg_raisesOnlyAt (hp : run.pos = .desNeg) (h : actDesNeg cfg run = .ok a) : a.RaisesOnlyAt run b := by
  obtain ⟨r, hr, h⟩ := need_ok h
  obtain ⟨j, hj, h⟩ := need_ok h
  obtain ⟨c, -, h⟩ := need_ok h
  split at h
  · rename_i hidle
    injection h with h
    subst h
    exact ⟨rfl, .inr ⟨.sendOp, j, rfl, .inr (.inr (.inl ⟨rfl, hp, hj, r, hr, (Bool.not_eq_true' _).mp hidle⟩))⟩⟩
  · split at h <;> exact (Action.Quiet.of_ok h ⟨rfl, rfl⟩).raisesOnlyAt

theorem actDesCap_diag {free : Word} (h : actDesCap run free = .ok a) : a.diag = none := by
  obtain ⟨csd, -, h⟩ := need_ok h
  simp only at h
  split at h
  · exact (Action.Quiet.of_ok h ⟨rfl, rfl⟩).2
  · obtain ⟨c, -, h⟩ := need_ok h
    injection h with h
    subst h
    rfl

theorem actReadPayload_quiet {buf : HostBuf} {k : Nat} (h : actReadPayload buf run k b = .ok a) : a.Quiet := by
  obtain ⟨p, -, h⟩ := need_ok h
  obtain ⟨m, -, h⟩ := need_ok h
  simp only at h
  split at h
  · split at h
    · exact .of_ok h ⟨rfl, rfl⟩
    · cases h
  · exact .of_ok h ⟨rfl, rfl⟩

theorem actReadSum_quiet {n : Nat} (h : actReadSum run n = .ok a) : a.Quiet := by
  unfold actReadSum at h
  split at h
  · exact .of_ok h ⟨rfl, rfl⟩
  · obtain ⟨p, -, h⟩ := need_ok h
    obtain ⟨m, -, h⟩ := need_ok h
    obtain ⟨rem, -, h⟩ := need_ok h
    exact .of_ok h ⟨rfl, rfl⟩

theorem actWritePayload_quiet {buf : HostBuf} {k : Nat} (h : actWritePayload buf run k = .ok a) : a.Quiet := by
  obtain ⟨p, -, h⟩ := need_ok h
  obtain ⟨m, -, h⟩ := need_ok h
  simp only at h
  split at h
  · split at h
    · exact .of_ok h ⟨rfl, rfl⟩
    · cases h
  · exact .of_ok h ⟨rfl, rfl⟩

/-- Outside the commit of INIT no class is written, and a counter is raised only by a wait that ends
(10_state.md R40, 41_init.md R186). -/
theorem act_raisesOnlyAt {buf : HostBuf} {free : Word} (hp : run.pos ≠ .desCap)
    (h : act cfg buf free b run = .ok a) : a.RaisesOnlyAt run b := by
  obtain ⟨req, pos, w⟩ := run
  cases pos with
  | desCap => exact absurd rfl hp
  | desNeg => exact actDesNeg_raisesOnlyAt rfl h
  | call site x => exact actCall_raisesOnlyAt rfl h
  | wait site => exact actWait_raisesOnlyAt rfl h
  | readPayload k => exact (actReadPayload_quiet h).raisesOnlyAt
  | readSum n => exact (actReadSum_quiet h).raisesOnlyAt
  | writePayload k => exact (actWritePayload_quiet h).raisesOnlyAt
  | desReset | desOcr | wstartToken =>
    obtain ⟨x, -, h⟩ := need_ok h
    exact (Action.Quiet.of_ok h ⟨rfl, rfl⟩).raisesOnlyAt
  | desSector =>
    obtain ⟨p, -, h⟩ := need_ok h
    obtain ⟨m, -, h⟩ := need_ok h
    obtain ⟨rem, -, h⟩ := need_ok h
    exact (Action.Quiet.of_ok h ⟨rfl, rfl⟩).raisesOnlyAt
  | _ => exact (Action.Quiet.of_ok h ⟨rfl, rfl⟩).raisesOnlyAt

theorem act_diag {buf : HostBuf} {free : Word} (h : act cfg buf free b run = .ok a) :
    a.diag = none ∨ ∃ k n, a.diag = some (k, n) ∧ run.WaitEnds b k n := by
  by_cases hp : run.pos = .desCap
  · rw [act, hp] at h
    exact .inl (actDesCap_diag h)
  · exact (act_raisesOnlyAt hp h).2

theorem act_cls {buf : HostBuf} {free : Word} (h : act cfg buf free b run = .ok a) :
    a.cls = none ∨ run.pos = .desCap := by
  by_cases hp : run.pos = .desCap
  · exact .inr hp
  · exact .inl (act_raisesOnlyAt hp h).1

end

end Sys2Proof.Machine
end

section
/-! SUPPORT. Everything a step can do from a state that meets the invariant, and that each kind of step keeps the
invariant. With it the proofs that settle O12, O13, O58 and O59. -/

namespace Sys2Proof.Machine

/-! ### Every step from a legal state -/

/-- How DIAG moves: at once, or one sample (44_host.md R286). -/
inductive DiagMoves (s : State) : State → Prop
  | atOnce (h : s.diagRead = none) : DiagMoves s (s.respondDiag s.diag)
  | sample {taken : List (Phase × Word)} (h : s.diagRead = some taken ∨ s.diagRead = none ∧ taken = []) :
      DiagMoves s (sampleCounter taken s)

/-- What the host port does with a request it can take: a response, a SHUTDOWN, the first primitive of INIT, READ
or WRITE, or DIAG. -/
inductive HostTakes (s : State) (q : Request) : State → Prop
  | responds (r : Response) : HostTakes s q (s.respond (some q.unit.toNat) r)
  | shutsDown {V : UnitState} (ho : q.op = opShutdown) (hV : s.units[q.unit.toNat]? = some V)
      (hi : V.agent = .idle) :
      HostTakes s q ((s.setUnit q.unit.toNat { V with cls := .unknown }).respond (some q.unit.toNat) ⟨.ok, .word 0⟩)
  | starts {req : Request} {V U : UnitState} {pos : Pos} {w : Work} {a : Action} (ho : req.op = q.op)
      (hn : req.unit = q.unit) (hV : s.units[q.unit.toNat]? = some V) (hs : Starts s V req U pos w)
      (ha : act s.cfg U.buf (Config.freeSectors s.draws) (U.answer s.draws) ⟨req, pos, w⟩ = .ok a) (hq : a.Quiet) :
      HostTakes s q
        (s.commit q.unit.toNat { U with agent := .running ⟨req, pos, w⟩ } (U.answer s.draws) a)
  | diag {t : State} (h : DiagMoves s t) : HostTakes s q t

/-- What a step does before the next turn is chosen. -/
inductive Steps (s : State) : State → Prop
  | waits : Steps s s
  | unit {u : Nat} {U : UnitState} {run : Running} {a : Action} (hm : s.Moves u U run)
      (ha : act s.cfg U.buf (Config.freeSectors s.draws) (U.answer s.draws) run = .ok a) :
      Steps s (s.commit u U (U.answer s.draws) a)
  | host {q : PortRecord} {rest : List PortRecord} {t : State} (ht : s.turn = .host)
      (hq : s.hostQueue = q :: rest) (h : HostTakes { s with port := q, hostQueue := rest } q.req t) : Steps s t
  | diag {t : State} (h : DiagMoves s t) : Steps s t

theorem execDiag_moves (s : State) : ∃ t, execDiag s = .next t ∧ DiagMoves s t := by
  unfold execDiag
  split
  · rename_i taken hd
    exact ⟨_, rfl, .sample (.inl hd)⟩
  · rename_i hd
    split
    · exact ⟨_, rfl, .sample (.inr ⟨hd, rfl⟩)⟩
    · exact ⟨_, rfl, .atOnce hd⟩

/-- The first primitive of a request (41_init.md R171, 43_transfer.md R233, R242). -/
theorem Starts.act_eq {s : State} {V U : UnitState} {req : Request} {pos : Pos} {w : Work} (h : Starts s V req U pos w)
    (cfg : Config) (free : Word) (b : Byte) : ∃ a, act cfg U.buf free b ⟨req, pos, w⟩ = .ok a ∧ a.Quiet := by
  cases h with
  | init | read | write => exact ⟨_, rfl, rfl, rfl⟩

theorem Starts.startRequest_takes {s : State} {V U : UnitState} {req q : Request} {pos : Pos} {w : Work}
    (h : Starts s V req U pos w) (ho : req.op = q.op) (hn : req.unit = q.unit)
    (hV : s.units[q.unit.toNat]? = some V) :
    ∃ t, startRequest req U pos w s = .next t ∧ HostTakes s q t := by
  obtain ⟨a, ha, hq⟩ := h.act_eq s.cfg (Config.freeSectors s.draws) (U.answer s.draws)
  refine ⟨_, performRun_of_act (U := { U with agent := .running ⟨req, pos, w⟩ }) ha, ?_⟩
  rw [hn]
  exact .starts ho hn hV h ha hq

/-- Refused, or answered by a next state of the kind `P`: so no fault. -/
def RefusedOr (P : State → Prop) (o : StepOutcome) : Prop := (∃ r, o = .refused r) ∨ ∃ t, o = .next t ∧ P t

theorem ifDutiful_refusedOr {P : State → Prop} {broken : Option Refusal} {o : StepOutcome}
    (h : broken = none → RefusedOr P o) : RefusedOr P (ifDutiful broken o) := by
  cases broken with
  | some r => exact .inl ⟨r, rfl⟩
  | none => exact h rfl

section
variable {s : State} {q : Request}

theorem hostRequest_takes {req : Request} {broken : Option Refusal} {start : UnitState → StepOutcome}
    (hn : req.unit = q.unit) (hfree : ∀ U run, s.units[q.unit.toNat]? = some U → U.agent ≠ .running run)
    (hstart : ∀ V, broken = none → s.units[q.unit.toNat]? = some V → RefusedOr (HostTakes s q) (start V)) :
    RefusedOr (HostTakes s q) (hostRequest req broken start s) := by
  simp only [hostRequest, hn]
  split
  · exact ifDutiful_refusedOr fun _ => .inr ⟨_, rfl, .responds _⟩
  · rename_i V hV
    split
    · rename_i run hr
      exact absurd hr (hfree V run hV)
    · exact ifDutiful_refusedOr fun hb => hstart V hb hV

theorem startTransfer_takes {V : UnitState} {req : Request} {pos : Pos} {w : Work} (ho : req.op = q.op)
    (hn : req.unit = q.unit) (hV : s.units[q.unit.toNat]? = some V)
    (hs : V.cls ≠ .unknown → Starts s V req { V with buf := s.port.buf } pos w) :
    RefusedOr (HostTakes s q) (startTransfer req pos w s V) := by
  unfold startTransfer
  rw [hn]
  split
  · exact .inr ⟨_, rfl, .responds _⟩
  · rename_i hc
    exact .inr ((hs hc).startRequest_takes ho hn hV)

theorem execShutdown_takes (ho : q.op = opShutdown) : RefusedOr (HostTakes s q) (execShutdown q.unit s) := by
  simp only [execShutdown]
  split
  · exact .inr ⟨_, rfl, .responds _⟩
  · rename_i V hV
    split
    · exact .inl ⟨_, rfl⟩
    · rename_i hi
      exact .inr ⟨_, rfl, .shutsDown ho hV hi⟩

theorem decodeRequest_eq_ok {i : Instr} (h : decodeRequest q = .ok i) :
    (q.op = opInit ∧ i = .init q.unit) ∨ (q.op = opRead ∧ i = .read q.unit q.offset q.count) ∨
      (q.op = opWrite ∧ i = .write q.unit q.offset q.count) ∨ (q.op = opShutdown ∧ i = .shutdown q.unit) ∨
      (q.op = opDiag ∧ i = .diag) := by
  unfold decodeRequest at h
  split_ifs at h with h0 h1 h2 h3 h4 <;> cases h
  · exact .inl ⟨h0, rfl⟩
  · exact .inr (.inl ⟨h1, rfl⟩)
  · exact .inr (.inr (.inl ⟨h2, rfl⟩))
  · exact .inr (.inr (.inr (.inl ⟨h3, rfl⟩)))
  · exact .inr (.inr (.inr (.inr ⟨h4, rfl⟩)))

/-- What `exec` does with a request that the port can take (44_host.md R281 to R286). -/
theorem exec_hostTakes {i : Instr} (hd : decodeRequest q = .ok i) (hp : s.portFree q = true) :
    RefusedOr (HostTakes s q) (exec i s) := by
  have hfree : q.op ≠ opDiag → ∀ U run, s.units[q.unit.toNat]? = some U → U.agent ≠ .running run :=
    fun ho U run hU hr => absurd (State.portFree_of_running ho hU hr) (by rw [hp]; decide)
  obtain ⟨ho, rfl⟩ | ⟨ho, rfl⟩ | ⟨ho, rfl⟩ | ⟨ho, rfl⟩ | ⟨ho, rfl⟩ := decodeRequest_eq_ok hd
  · refine hostRequest_takes rfl (hfree (by rw [ho]; decide)) fun V _ hV => .inr ?_
    exact (Starts.init q.unit).startRequest_takes ho.symm rfl hV
  · refine hostRequest_takes rfl (hfree (by rw [ho]; decide)) fun V hb hV => ?_
    obtain ⟨h0, hsize⟩ := transferDuty_eq_none.1 hb
    exact startTransfer_takes ho.symm rfl hV fun hc => .read q.unit q.offset q.count hc h0 hsize
  · refine hostRequest_takes rfl (hfree (by rw [ho]; decide)) fun V hb hV => ?_
    obtain ⟨h0, hsize⟩ := transferDuty_eq_none.1 hb
    exact startTransfer_takes ho.symm rfl hV fun hc => .write q.unit q.offset q.count hc h0 hsize
  · exact execShutdown_takes ho
  · obtain ⟨t, ht, hm⟩ := execDiag_moves s
    exact .inr ⟨t, ht, .diag hm⟩

theorem RefusedOr.reschedule {P Q : State → Prop} {o : StepOutcome} (h : RefusedOr P o)
    (hPQ : ∀ t, P t → Q t.reschedule) : RefusedOr Q (thenReschedule o) := by
  obtain ⟨r, rfl⟩ | ⟨t, rfl, ht⟩ := h
  · exact .inl ⟨r, rfl⟩
  · exact .inr ⟨_, rfl, hPQ t ht⟩

theorem step_of_waiting (hc : s.configOk = true) (hf : s.fetch = .waiting) : step s = .next s.reschedule := by
  simp only [step, if_pos hc, hf]

/-- The step of a running unit answers a next state, by a primitive (10_state.md R36). -/
theorem State.Inv.step_unit {u : Nat} {U : UnitState} {run : Running} (hinv : s.Inv) (hm : s.Moves u U run) :
    ∃ a, act s.cfg U.buf (Config.freeSectors s.draws) (U.answer s.draws) run = .ok a ∧
      step s = .next (s.commit u U (U.answer s.draws) a).reschedule := by
  obtain ⟨-, hrun⟩ := hinv.units u U hm.2.1
  obtain ⟨a, ha, -⟩ := act_ok (State.configOk_iff.1 hinv.config).1 (hrun run hm.2.2).2 (Config.freeSectors s.draws)
    (U.answer s.draws)
  exact ⟨a, ha, by rw [hinv.step_eq hm, performRun_of_act ha, thenReschedule_next]⟩

/-- From a legal state a step is refused, or answers one of the next states of `Steps`. -/
theorem State.Inv.step_outcome (hinv : s.Inv) :
    RefusedOr (fun t => ∃ t', Steps s t' ∧ t = t'.reschedule) (step s) := by
  have hc := hinv.config
  have waiting (hf : s.fetch = .waiting) : RefusedOr (fun t => ∃ t', Steps s t' ∧ t = t'.reschedule) (step s) :=
    .inr ⟨_, step_of_waiting hc hf, s, .waits, rfl⟩
  cases ht : s.turn with
  | host =>
    cases hq : s.hostQueue with
    | nil => exact waiting (by simp only [State.fetch, ht, hq])
    | cons q rest =>
      by_cases hp : s.portFree q.req = true
      · have hf := State.fetch_host ht hq
        rw [if_pos hp] at hf
        cases hd : decodeRequest q.req with
        | error e => exact .inl ⟨_, step_of_undecodable hc hf ((decode_request ..).trans hd)⟩
        | ok i =>
          rw [step_of_word hc hf ((decode_request ..).trans hd)]
          have ho := exec_hostTakes (s := { s with port := q, hostQueue := rest }) hd hp
          exact ho.reschedule fun t h => ⟨t, .host ht hq h, rfl⟩
      · exact .inl ⟨_, step_requestInFlight hc ht hq (Bool.eq_false_iff.2 hp)⟩
  | unit u =>
    cases hr : s.runningAt u with
    | none => exact waiting (by simp only [State.fetch, ht, hr])
    | some x =>
      have hm : s.Moves u x.1 x.2 := ⟨ht, State.runningAt_eq_some.1 hr⟩
      obtain ⟨a, ha, hstep⟩ := hinv.step_unit hm
      exact .inr ⟨_, hstep, _, .unit hm ha, rfl⟩
  | diag =>
    cases hd : s.diagRead with
    | none => exact waiting (by simp only [State.fetch, ht, hd])
    | some taken =>
      obtain ⟨t, hx, hmove⟩ := execDiag_moves s
      rw [step_of_word hc (State.fetch_diag ht hd) (decode_diagRequest _), exec, hx, thenReschedule_next]
      exact .inr ⟨_, rfl, t, .diag hmove, rfl⟩

theorem State.Inv.steps {t : State} (hinv : s.Inv) (h : step s = .next t) : ∃ t', Steps s t' ∧ t = t'.reschedule := by
  obtain ⟨r, hr⟩ | ⟨t₁, ht, hs⟩ := hinv.step_outcome
  · cases hr.symm.trans h
  · cases ht.symm.trans h
    exact hs

end

/-- Settles O13: from a legal state a step is refused or answered, and a unit's step is its primitive. -/
theorem stepNeverFaults : Obligations.StepNeverFaults := by
  intro s hinv
  refine ⟨fun f hf => ?_, fun u U run hm => ?_⟩
  · obtain ⟨r, hr⟩ | ⟨t, ht, -⟩ := hinv.step_outcome
    · cases hr.symm.trans hf
    · cases ht.symm.trans hf
  · obtain ⟨a, -, hstep⟩ := hinv.step_unit hm
    exact ⟨_, hstep⟩

/-! ### DIAG leaves the units and the counters -/

theorem sampleCounter_units (taken : List (Phase × Word)) (s : State) : (sampleCounter taken s).units = s.units := by
  unfold sampleCounter
  split <;> rfl

theorem sampleCounter_diag (taken : List (Phase × Word)) (s : State) : (sampleCounter taken s).diag = s.diag := by
  unfold sampleCounter
  split <;> rfl

theorem DiagMoves.units {s t : State} (h : DiagMoves s t) : t.units = s.units := by
  cases h with
  | atOnce h => rfl
  | sample h => exact sampleCounter_units _ s

theorem DiagMoves.diag {s t : State} (h : DiagMoves s t) : t.diag = s.diag := by
  cases h with
  | atOnce h => rfl
  | sample h => exact sampleCounter_diag _ s

/-! ### The invariant, kept by each kind of step -/

theorem samplesOk_mono {d d' : Diag} {taken : List (Phase × Word)} (h : samplesOk d taken)
    (hle : ∀ k, (d.get k).toNat ≤ (d'.get k).toNat) : samplesOk d' taken :=
  ⟨h.1, h.2.1, fun x hx => (h.2.2 x hx).trans (hle x.1)⟩

theorem samplesOk_nil (d : Diag) : samplesOk d [] :=
  ⟨List.nodup_nil, by decide, fun x hx => absurd hx List.not_mem_nil⟩

theorem Phase.mem_all (k : Phase) : k ∈ Phase.all := by cases k <;> decide

theorem mem_unsampled {taken : List (Phase × Word)} {k : Phase} :
    k ∈ unsampled taken ↔ k ∉ taken.map Prod.fst := by
  simp only [unsampled, List.mem_filter, Phase.mem_all, true_and, List.all_eq_true, decide_eq_true_eq, ne_eq,
    List.mem_map, not_exists, not_and]

/-- The sampled counters and the others are nine in all. -/
theorem length_add_unsampled_le {taken : List (Phase × Word)} (h : (taken.map Prod.fst).Nodup) :
    taken.length + (unsampled taken).length ≤ 9 := by
  have hnodup : (taken.map Prod.fst ++ unsampled taken).Nodup :=
    List.nodup_append'.2 ⟨h, (by decide : Phase.all.Nodup).filter _, fun k hk hu => mem_unsampled.1 hu hk⟩
  have hle := (List.subperm_of_subset hnodup fun k _ => Phase.mem_all k).length_le
  simpa [Phase.all] using hle

/-- One more sample, with another counter to come. -/
theorem samplesOk_append {d : Diag} {taken : List (Phase × Word)} {k : Phase} (h : samplesOk d taken)
    (hk : k ∈ unsampled taken) (hlen : 2 ≤ (unsampled taken).length) : samplesOk d (taken ++ [(k, d.get k)]) := by
  obtain ⟨hnodup, -, hle⟩ := h
  have := length_add_unsampled_le hnodup
  refine ⟨?_, ?_, fun x hx => ?_⟩
  · rw [List.map_append, List.map_singleton]
    exact hnodup.append (List.nodup_singleton k) (List.disjoint_singleton.2 (mem_unsampled.1 hk))
  · rw [List.length_append, List.length_singleton]
    omega
  · obtain hx | hx := List.mem_append.1 hx
    · exact hle x hx
    · rw [List.mem_singleton.1 hx]

section
variable {s : State} {cfg : Config} {u : Nat} {U V : UnitState} {run : Running}

/-- The invariant does not speak of the scheduling fields. -/
theorem State.Inv.reschedule (h : s.Inv) : s.reschedule.Inv := by
  obtain ⟨turn, choices, draws, heq⟩ := s.reschedule_cases
  rw [heq]
  exact ⟨h.config, h.units, h.counters, h.portBuf, h.queueBufs, h.samples⟩

theorem State.Inv.respond (h : s.Inv) (o : Option Nat) (r : Response) : (s.respond o r).Inv :=
  ⟨h.config, h.units, h.counters, h.portBuf, h.queueBufs, h.samples⟩

theorem State.Inv.respondDiag (h : s.Inv) (d : Diag) : (s.respondDiag d).Inv :=
  ⟨h.config, h.units, h.counters, h.portBuf, h.queueBufs, fun _ hd => nomatch hd⟩

theorem State.Inv.takePort {q : PortRecord} {rest : List PortRecord} (h : s.Inv) (hq : s.hostQueue = q :: rest) :
    State.Inv { s with port := q, hostQueue := rest } where
  config := h.config
  units := h.units
  counters := h.counters
  portBuf := h.queueBufs q (by simp [hq])
  queueBufs := fun p hp => h.queueBufs p (by simp only at hp; simp [hq, hp])
  samples := h.samples

theorem State.Inv.setUnit (h : s.Inv) (hV : V.ok s.cfg u) : (s.setUnit u V).Inv where
  config := by
    obtain ⟨hw, hmin, hmax⟩ := State.configOk_iff.1 h.config
    refine State.configOk_iff.2 ⟨hw, ?_⟩
    rw [State.setUnit_units, List.length_set]
    exact ⟨hmin, hmax⟩
  units := fun v T hT => by
    rw [State.setUnit_units, List.getElem?_set] at hT
    split at hT
    · rename_i huv
      split at hT
      · cases hT
        exact huv ▸ hV
      · cases hT
    · exact h.units v T hT
  counters := h.counters
  portBuf := h.portBuf
  queueBufs := h.queueBufs
  samples := h.samples

theorem act_actOk {free : Word} {b : Byte} {a : Action} (hw : cfg.wf = true) (h : run.ok cfg U)
    (ha : act cfg U.buf free b run = .ok a) : ActOk cfg U run a := by
  obtain ⟨a', ha', hok⟩ := act_ok hw h free b
  cases ha'.symm.trans ha
  exact hok

theorem HostBuf.wf_storeOpt {buf : HostBuf} {o : Option (Nat × Byte)} (h : buf.wf = true)
    (ho : ∀ k v, o = some (k, v) → k < buf.size) : (buf.storeOpt o).wf = true := by
  obtain _ | ⟨k, v⟩ := o
  · exact h
  · exact HostBuf.wf_store h (ho k v rfl) v

theorem UnitState.after_ok {a : Action} (hU : U.ok cfg u) (hr : U.agent = .running run) (ha : ActOk cfg U run a) :
    (U.after a).ok cfg u := by
  obtain ⟨hbuf, hrun⟩ := hU
  refine ⟨HostBuf.wf_storeOpt hbuf ha.store, fun run' hr' => ?_⟩
  obtain ⟨hreq, hok⟩ := ha.next run' hr'
  exact ⟨hreq ▸ (hrun run hr).1, hok⟩

theorem State.Inv.commit {free : Word} {b : Byte} {a : Action} (h : s.Inv) (hU : U.ok s.cfg u)
    (hr : U.agent = .running run) (ha : act s.cfg U.buf free b run = .ok a) : (s.commit u U b a).Inv := by
  have hok := act_actOk (State.configOk_iff.1 h.config).1 (hU.2 run hr).2 ha
  obtain ⟨hconfig, hunits, -, -, -, -⟩ := h.setUnit (UnitState.after_ok hU hr hok)
  exact ⟨hconfig, hunits, Diag.raiseOpt_lt h.counters hok.diag, h.portBuf, h.queueBufs,
    fun taken ht => samplesOk_mono (h.samples taken ht) (s.diag.get_le_raiseOpt a.diag)⟩

theorem State.Inv.sampleCounter {taken : List (Phase × Word)} (h : s.Inv) (ht : samplesOk s.diag taken) :
    (sampleCounter taken s).Inv := by
  unfold Machine.sampleCounter
  split
  · exact h.respondDiag _
  · exact h.respondDiag _
  · rename_i k l hne hl
    refine ⟨h.config, h.units, h.counters, h.portBuf, h.queueBufs, fun taken' heq => ?_⟩
    cases heq
    have hlt : s.choice % (k :: l).length < (k :: l).length := Nat.mod_lt _ (Nat.succ_pos _)
    refine samplesOk_append ht ?_ ?_
    · rw [hl, List.getD_eq_getElem _ _ hlt]
      exact List.getElem_mem hlt
    · cases l with
      | nil => exact (hne rfl).elim
      | cons k' l => rw [hl]; simp

theorem DiagMoves.inv {t : State} (h : DiagMoves s t) (hinv : s.Inv) : t.Inv := by
  cases h with
  | atOnce h => exact hinv.respondDiag _
  | sample ht =>
    obtain ht | ⟨-, rfl⟩ := ht
    · exact hinv.sampleCounter (hinv.samples _ ht)
    · exact hinv.sampleCounter (samplesOk_nil _)

/-- A request starts at a legal position (41_init.md R187, 43_transfer.md R230 to R232). -/
theorem Starts.unit_ok {req : Request} {pos : Pos} {w : Work} (h : Starts s V req U pos w) (hV : V.buf.wf = true)
    (hport : s.port.buf.wf = true) :
    UnitState.ok cfg req.unit.toNat { U with agent := .running ⟨req, pos, w⟩ } := by
  have pos_of {c : Word} (h0 : c ≠ 0) : 1 ≤ c.toNat := by bv_omega
  cases h with
  | init unit => exact ⟨hV, fun run hr => by cases hr; exact ⟨rfl, rfl, rfl⟩⟩
  | read unit offset count hc h0 hb =>
    exact ⟨hport, fun run hr => by cases hr; exact ⟨rfl, ⟨rfl, hc, pos_of h0, hb⟩, rfl⟩⟩
  | write unit offset count hc h0 hb =>
    exact ⟨hport, fun run hr => by cases hr; exact ⟨rfl, ⟨rfl, hc, pos_of h0, hb⟩, rfl, rfl⟩⟩

theorem HostTakes.inv {q : Request} {t : State} (h : HostTakes s q t) (hinv : s.Inv) : t.Inv := by
  cases h with
  | responds r => exact hinv.respond _ r
  | @shutsDown V ho hV hi =>
    have hok : UnitState.ok s.cfg q.unit.toNat { V with cls := .unknown } :=
      ⟨(hinv.units _ V hV).1, fun run hr => nomatch hi.symm.trans hr⟩
    exact (hinv.setUnit hok).respond _ _
  | starts ho hn hV hs ha hq =>
    have hok := hs.unit_ok (cfg := s.cfg) (hinv.units _ _ hV).1 hinv.portBuf
    rw [hn] at hok
    exact hinv.commit hok rfl ha
  | diag h => exact h.inv hinv

theorem Steps.inv {t : State} (h : Steps s t) (hinv : s.Inv) : t.Inv := by
  cases h with
  | waits => exact hinv
  | unit hm ha => exact hinv.commit (hinv.units _ _ hm.2.1) hm.2.2 ha
  | host ht hq h => exact h.inv (hinv.takePort hq)
  | diag h => exact h.inv hinv

end

/-- Settles O12: each kind of step keeps the invariant, and so does the choice of the next turn. -/
theorem stepKeepsInv : Obligations.StepKeepsInv := by
  intro s t hinv h
  obtain ⟨t, hs, rfl⟩ := hinv.steps h
  exact (hs.inv hinv).reschedule

/-! ### The counters and the classes -/

/-- Settles O59: only a primitive raises a counter, and only at the end of a wait. -/
theorem countersOnlyRise : Obligations.CountersOnlyRise := by
  intro s t hinv h
  obtain ⟨t, hs, rfl⟩ := hinv.steps h
  rw [State.reschedule_diag]
  cases hs with
  | waits => exact .inl rfl
  | diag h => exact .inl h.diag
  | host ht hq h =>
    left
    cases h with
    | responds r => rfl
    | shutsDown ho hV hi => rfl
    | starts ho hn hV hs ha hquiet => rw [State.commit_diag, hquiet.2]; rfl
    | diag h => exact h.diag
  | @unit u U run a hm ha =>
    rw [State.commit_diag]
    obtain hd | ⟨k, n, hd, hends⟩ := act_diag ha
    · rw [hd]
      exact .inl rfl
    · have hrun := (hinv.units u U hm.2.1).2 run hm.2.2
      have hbound := (act_actOk (State.configOk_iff.1 hinv.config).1 hrun.2 ha).diag
      rw [hd, Diag.raiseOpt_some]
      exact .inr ⟨u, U, run, k, n, hm, rfl, hbound k n hd, s.diag.get_raise_self k n,
        fun k' hk => s.diag.get_raise_of_ne n hk, hends⟩

/-- A record that differs after a replacement is the one replaced. -/
theorem eq_of_getElem?_set_ne {α : Type} {l : List α} {v u : Nat} {X x y : α} (hy : (l.set v X)[u]? = some y)
    (hx : l[u]? = some x) (hne : y ≠ x) : v = u ∧ y = X := by
  rw [List.getElem?_set] at hy
  split at hy
  · rename_i hvu
    split at hy
    · exact ⟨hvu, (Option.some.inj hy).symm⟩
    · cases hy
  · exact absurd (Option.some.inj (hy.symm.trans hx)) hne

theorem Starts.op_or_cls {s : State} {V U : UnitState} {req : Request} {pos : Pos} {w : Work}
    (h : Starts s V req U pos w) : req.op = opInit ∨ U.cls = V.cls := by
  cases h with
  | init => exact .inl rfl
  | read | write => exact .inr rfl

/-- The host port changes a class only for an INIT or a SHUTDOWN of that unit (10_state.md R32). -/
theorem HostTakes.op_of_cls_ne {s t : State} {q : Request} {u : Nat} {U T : UnitState} (h : HostTakes s q t)
    (hU : s.units[u]? = some U) (hT : t.units[u]? = some T) (hne : T.cls ≠ U.cls) :
    q.unit.toNat = u ∧ (q.op = opInit ∨ q.op = opShutdown) := by
  have hTU : T ≠ U := fun h => hne (congrArg UnitState.cls h)
  cases h with
  | responds r => exact absurd (Option.some.inj (hT.symm.trans hU)) hTU
  | shutsDown ho hV hi => exact ⟨(eq_of_getElem?_set_ne hT hU hTU).1, .inr ho⟩
  | starts ho hn hV hs ha hq =>
    obtain ⟨rfl, rfl⟩ := eq_of_getElem?_set_ne hT hU hTU
    cases hU.symm.trans hV
    rw [UnitState.after_cls, hq.1] at hne
    exact ⟨rfl, .inl (ho ▸ hs.op_or_cls.resolve_right hne)⟩
  | diag h => exact absurd (Option.some.inj ((h.units ▸ hT).symm.trans hU)) hTU

/-- The commit of a class stands in an INIT (41_init.md R186). -/
theorem Running.op_of_desCap {cfg : Config} {U : UnitState} {run : Running} (h : run.ok cfg U)
    (hp : run.pos = .desCap) : run.req.op = opInit := by
  rw [Running.ok, hp] at h
  obtain ⟨⟨hreq, -⟩, -⟩ := h
  rw [hreq]
  rfl

/-- Settles O58: the host port and the units' primitives change a class only where INIT or SHUTDOWN does. -/
theorem classChangesOnlyInInitOrShutdown : Obligations.ClassChangesOnlyInInitOrShutdown := by
  intro s t u U T hinv h hU hT hne
  have hTU : T ≠ U := fun h => hne (congrArg UnitState.cls h)
  obtain ⟨t, hs, rfl⟩ := hinv.steps h
  rw [State.reschedule_units] at hT
  cases hs with
  | waits => exact absurd (Option.some.inj (hT.symm.trans hU)) hTU
  | diag h => exact absurd (Option.some.inj ((h.units ▸ hT).symm.trans hU)) hTU
  | host ht hq h =>
    obtain ⟨hu, hop⟩ := h.op_of_cls_ne hU hT hne
    exact .inl ⟨_, _, ht, hq, hu, hop⟩
  | unit hm ha =>
    obtain ⟨rfl, rfl⟩ := eq_of_getElem?_set_ne hT hU hTU
    cases hU.symm.trans hm.2.1
    rw [UnitState.after_cls] at hne
    have hp := (act_cls ha).resolve_left fun hc => hne (by rw [hc]; rfl)
    exact .inr ⟨_, hm, Running.op_of_desCap ((hinv.units _ _ hU).2 _ hm.2.2).2 hp⟩

end Sys2Proof.Machine
end

section
/-! SUPPORT. Which requests to a unit are refused and why, with the proof that settles O18; and the proof that
settles O60: what a unit's step depends on. -/

namespace Sys2Proof.Machine

/-! ### Duties of the host -/

/-- A `count` of 0 breaks a duty whatever the buffer (20_memory.md R78). -/
theorem transferDuty_zero (buf : HostBuf) : transferDuty 0 buf = some .countZero := rfl

/-- A buffer of fewer than `count` bytes breaks a duty (20_memory.md R70). -/
theorem transferDuty_short {count : Word} {buf : HostBuf} (h0 : 1 ≤ count.toNat) (hb : buf.size < count.toNat) :
    transferDuty count buf = some .bufferTooShort := by
  have hne : count ≠ 0 := by
    rintro rfl
    exact absurd h0 (by decide)
  rw [transferDuty, if_neg hne, if_pos hb]

section
variable {s : State} {req : Request} {broken : Option Refusal} {start : UnitState → StepOutcome}

/-- A broken duty is told before the unit check and before the request starts (log 11). -/
theorem hostRequest_broken {r : Refusal} (hidle : ∀ V, s.units[req.unit.toNat]? = some V → V.agent = .idle) :
    hostRequest req (some r) start s = .refused r := by
  cases hV : s.units[req.unit.toNat]? with
  | none => simp only [hostRequest, hV, ifDutiful]
  | some V => simp only [hostRequest, hV, hidle V hV, ifDutiful]

/-- A busy unit takes no request but the one it runs (44_host.md R287). -/
theorem hostRequest_busy {V : UnitState} {run : Running} (hV : s.units[req.unit.toNat]? = some V)
    (hr : V.agent = .running run) (hq : run.req ≠ req) :
    hostRequest req broken start s = .refused .requestInFlight := by
  simp only [hostRequest, hV, hr, if_neg hq]

end

section
variable {s : State} {unit : BitVec 8} {offset count : Word} {i : Instr}

/-- READ and WRITE of a unit that is not busy are refused for the duty that they break. -/
theorem exec_transfer_broken {r : Refusal} (hi : i ∈ [Instr.read unit offset count, .write unit offset count])
    (hidle : ∀ V, s.units[unit.toNat]? = some V → V.agent = .idle)
    (hb : transferDuty count s.port.buf = some r) : exec i s = .refused r := by
  simp only [List.mem_cons, List.not_mem_nil, or_false] at hi
  obtain rfl | rfl := hi
  · rw [exec, execRead, hb]
    exact hostRequest_broken hidle
  · rw [exec, execWrite, hb]
    exact hostRequest_broken hidle

/-- INIT, READ and WRITE of a busy unit are refused unless the unit is running that very request. -/
theorem exec_second_request {V : UnitState} {run : Running}
    (hi : i ∈ [Instr.init unit, .read unit offset count, .write unit offset count])
    (hV : s.units[unit.toNat]? = some V) (hr : V.agent = .running run) (hne : ¬ run.IsOf i) :
    exec i s = .refused .requestInFlight := by
  simp only [List.mem_cons, List.not_mem_nil, or_false] at hi
  obtain rfl | rfl | rfl := hi <;> exact hostRequest_busy hV hr hne

theorem exec_shutdown_busy {V : UnitState} {run : Running} (hV : s.units[unit.toNat]? = some V)
    (hr : V.agent = .running run) : exec (.shutdown unit) s = .refused .requestInFlight := by
  simp only [exec, execShutdown, hV, hr]

end

/-- Settles O18, by the duty that each transfer breaks and by what a busy unit takes. -/
theorem brokenDutyIsRefused : Obligations.BrokenDutyIsRefused := by
  intro s unit offset count
  refine ⟨fun i hi hidle => ⟨fun h0 => ?_, fun h0 hb => ?_⟩, fun V run hV hr => ⟨?_, fun i hi hne => ?_⟩⟩
  · obtain rfl : count = 0 := BitVec.eq_of_toNat_eq h0
    exact exec_transfer_broken hi hidle (transferDuty_zero _)
  · exact exec_transfer_broken hi hidle (transferDuty_short h0 hb)
  · exact exec_shutdown_busy hV hr
  · exact exec_second_request hi hV hr hne

/-! ### What a unit's step depends on -/

/-- Settles O60: the primitive of a unit's step is a function of the configuration, of the draw counter and of that
unit's record, so both states commit the same action. -/
theorem unitsAreIndependent : Obligations.UnitsAreIndependent := by
  intro s s' u U run hinv hinv' hm hm' hcfg hdraws
  obtain ⟨a, ha, hstep⟩ := hinv.step_unit hm
  obtain ⟨a', ha', hstep'⟩ := hinv'.step_unit hm'
  rw [← hcfg, ← hdraws] at ha'
  obtain rfl : a = a' := Except.ok.inj (ha.symm.trans ha')
  rw [← hdraws] at hstep'
  exact ⟨_, _, U.after a, a.prim.event u (U.answer s.draws), hstep, hstep', State.reschedule_units _,
    State.reschedule_units _, State.reschedule_trace _, State.reschedule_trace _⟩

end Sys2Proof.Machine
end

section
/-! SUPPORT. The decoder and the encoder as inverses of each other, place by place, with the proofs that settle O1
to O4. -/

namespace Sys2Proof

/-! ### Command rows -/

section
variable {i : Instr} {c : Command} {arg : Word}

/-- A command row is encoded as its command's frame with its argument (30_encoding.md R90, R103). -/
theorem encode_of_commandOf (t : CommandTable) (h : i.commandOf = some (c, arg)) : encode t i = frame t c arg := by
  cases i <;> cases h <;> rfl

theorem Instr.port_of_commandOf (h : i.commandOf = some (c, arg)) : i.port = c.port := by
  cases i <;> cases h <;> rfl

/-- The argument rule of a command accepts exactly the command and argument of a row (30_encoding.md R103). -/
theorem commandInstr_eq_ok_iff : commandInstr c arg = .ok i ↔ i.commandOf = some (c, arg) := by
  constructor
  · intro h
    cases c with
    | cmd0 | cmd8 | cmd9 | cmd12 | cmd55 | cmd58 =>
      simp only [commandInstr] at h
      split_ifs at h with harg
      cases h
      rw [harg, Instr.commandOf]
    | cmd18 | cmd25 | acmd23 =>
      cases h
      rfl
    | acmd41 =>
      simp only [commandInstr] at h
      split_ifs at h with htrue hfalse <;> cases h
      · rw [htrue, Instr.commandOf]
      · rw [hfalse, Instr.commandOf]
  · intro h
    cases i <;> cases h
    case acmd41.refl hcs => cases hcs <;> rfl
    all_goals rfl

/-- The round trip of a command row. -/
theorem decode_encode_command {t : CommandTable} (ht : t.distinct = true) (h : i.commandOf = some (c, arg)) :
    decode t i.port (encode t i) = .ok i := by
  rw [Instr.port_of_commandOf h, encode_of_commandOf t h, decode_frame ht, commandInstr_eq_ok_iff.2 h]

end

/-- Settles O1: a command row by its frame, a host row by its record, the other rows by their one byte. -/
theorem decodeEncode : Obligations.DecodeEncode := by
  intro t i ht
  cases i with
  | cmd0 | cmd8 | cmd9 | cmd12 | cmd18 | cmd25 | cmd55 | cmd58 | acmd23 | acmd41 => exact decode_encode_command ht rfl
  | tokenStart | tokenWstart | tokenWstop => rfl
  | r1Status flags =>
    simp only [Instr.port, encode, decode, decodeStatus, statusByte_bit7, statusByte_flags, Bool.false_eq_true,
      if_false]
  | dataRespAccept x =>
    simp only [Instr.port, encode, decode, decodeDataResp, dataRespByte_low, dataRespByte_high, if_true]
  | init | read | write | shutdown | diag => exact decode_request t _

/-! ### Bytes that decode -/

open BitVec in
/-- Four bytes are the bytes of their value (30_encoding.md R91). -/
theorem bigEndian_ofBigEndian (b3 b2 b1 b0 : Byte) : bigEndian (ofBigEndian b3 b2 b1 b0) = [b3, b2, b1, b0] := by
  have up {w : Nat} (hi : BitVec w) (lo : Byte) (k : Nat) : (hi ++ lo).extractLsb' (k + 8) 8 = hi.extractLsb' k 8 :=
    extractLsb'_append_eq_of_le (Nat.le_add_left 8 k)
  have h3 : (ofBigEndian b3 b2 b1 b0).extractLsb' 24 8 = b3 :=
    (up _ b0 16).trans ((up _ b1 8).trans ((up _ b2 0).trans extractLsb'_eq_self))
  have h2 : (ofBigEndian b3 b2 b1 b0).extractLsb' 16 8 = b2 :=
    (up _ b0 8).trans ((up _ b1 0).trans extractLsb'_append_eq_right)
  have h1 : (ofBigEndian b3 b2 b1 b0).extractLsb' 8 8 = b1 := (up _ b0 0).trans extractLsb'_append_eq_right
  have h0 : (ofBigEndian b3 b2 b1 b0).extractLsb' 0 8 = b0 := extractLsb'_append_eq_right
  rw [bigEndian, h3, h2, h1, h0]

/-- The index bits name a command of the frame's kind that has this index (30_encoding.md R93, R104). -/
theorem commandOfIndex_eq_some {t : CommandTable} {app : Bool} {idx : BitVec 6} {c : Command}
    (h : commandOfIndex t app idx = some c) : c.isApplication = app ∧ t.index c = idx := by
  simpa only [Bool.and_eq_true, beq_iff_eq] using List.find?_some h

/-- A byte of marker `0b01` is byte 0 of the command with its index bits (30_encoding.md R90). -/
theorem frameByte0_extract {t : CommandTable} {c : Command} {b : Byte} (hm : b.extractLsb' 6 2 = 0b01#2)
    (hi : t.index c = b.extractLsb' 0 6) : frameByte0 t c = b := by
  rw [frameByte0, hi, ← hm]
  exact (BitVec.extractLsb'_append_extractLsb'_eq_extractLsb' rfl).trans BitVec.extractLsb'_eq_self

/-- Bytes that decode as a frame are the frame of the command and argument of the row they decode to. -/
theorem decodeFrame_eq_ok {t : CommandTable} {app : Bool} {bs : List Byte} {i : Instr}
    (h : decodeFrame t app bs = .ok i) :
    ∃ c arg, c.isApplication = app ∧ i.commandOf = some (c, arg) ∧ frame t c arg = bs := by
  unfold decodeFrame at h
  split at h
  next b0 b1 b2 b3 b4 b5 =>
    split_ifs at h with hm
    split at h
    next => cases h
    next c hc =>
      split_ifs at h with hcrc
      obtain ⟨happ, hidx⟩ := commandOfIndex_eq_some hc
      refine ⟨c, _, happ, commandInstr_eq_ok_iff.1 h, ?_⟩
      rw [frame, frameByte0_extract (not_not.1 hm) hidx, bigEndian_ofBigEndian, not_not.1 hcrc]
      rfl
  next => cases h

/-- The operation of a frame belongs to the place of its command, and its encoding is that frame. -/
theorem encode_of_decodeFrame {t : CommandTable} {app : Bool} {bs : List Byte} {i : Instr}
    (h : decodeFrame t app bs = .ok i) : encode t i = bs ∧ i.port = if app then .appFrame else .frame := by
  obtain ⟨c, arg, rfl, hc, hf⟩ := decodeFrame_eq_ok h
  exact ⟨(encode_of_commandOf t hc).trans hf, Instr.port_of_commandOf hc⟩

/-- The one-byte places of the wire: the tokens, a status and a data-response (30_encoding.md R95, R100, R101). -/
theorem encode_of_decode_byte {t : CommandTable} {p : Port} {b : Byte} {i : Instr}
    (hp : p.length = 1) (h : decode t p [b] = .ok i) : encode t i = [b] ∧ i.port = p := by
  cases p with
  | frame | appFrame | host => cases hp
  | txToken =>
    simp only [decode] at h
    split_ifs at h with hw hs <;> cases h
    · exact ⟨congrArg ([·]) hw.symm, rfl⟩
    · exact ⟨congrArg ([·]) hs.symm, rfl⟩
  | rxToken =>
    simp only [decode] at h
    split_ifs at h with hs
    cases h
    exact ⟨congrArg ([·]) hs.symm, rfl⟩
  | rxStatus =>
    simp only [decode, decodeStatus] at h
    split_ifs at h with h7
    cases h
    exact ⟨congrArg ([·]) (statusByte_extract (Bool.eq_false_of_not_eq_true h7)), rfl⟩
  | rxDataResp =>
    simp only [decode, decodeDataResp] at h
    split_ifs at h with hlow
    cases h
    exact ⟨congrArg ([·]) (dataRespByte_extract hlow), rfl⟩

/-- At a place of one byte, bytes that decode are one byte. -/
theorem decode_byte_eq_ok {t : CommandTable} {p : Port} {bs : List Byte} {i : Instr}
    (hp : p.length = 1) (h : decode t p bs = .ok i) : ∃ b, bs = [b] := by
  cases p with
  | frame | appFrame | host => cases hp
  | txToken | rxToken | rxStatus | rxDataResp =>
    match bs, h with
    | [b], _ => exact ⟨b, rfl⟩
    | [], h | _ :: _ :: _, h => cases h

/-- Settles O2: a frame by the command its index bits name, every other place of the wire by its one byte. -/
theorem encodeDecode : Obligations.EncodeDecode := by
  intro t p bs i hp h
  cases p with
  | frame => exact encode_of_decodeFrame (app := false) h
  | appFrame => exact encode_of_decodeFrame (app := true) h
  | host => exact absurd rfl hp
  | txToken | rxToken | rxStatus | rxDataResp =>
    obtain ⟨b, rfl⟩ := decode_byte_eq_ok rfl h
    exact encode_of_decode_byte rfl h

/-! ### Bytes as numbers -/

theorem frameByte0_eq_ofNat (t : CommandTable) (c : Command) :
    frameByte0 t c = BitVec.ofNat 8 (0x40 + (t.index c).toNat) := by
  have h : ∀ x : BitVec 6, (0b01#2) ++ x = BitVec.ofNat 8 (0x40 + x.toNat) := by decide
  exact h (t.index c)

theorem bigEndian_eq_ofNat (v : Word) :
    bigEndian v = [BitVec.ofNat 8 (v.toNat / 2 ^ 24), BitVec.ofNat 8 (v.toNat / 2 ^ 16),
      BitVec.ofNat 8 (v.toNat / 2 ^ 8), BitVec.ofNat 8 v.toNat] := by
  simp only [bigEndian, BitVec.extractLsb', Nat.shiftRight_eq_div_pow, pow_zero, Nat.div_one]

theorem crcByte_eq (c : Command) : crcByte c = if c = .cmd0 then 0x95 else if c = .cmd8 then 0x87 else 0xFF := by
  cases c <;> rfl

/-- Settles O3: the three parts of the frame, each as numbers. -/
theorem frameBytes : Obligations.FrameBytes := by
  intro t i c arg h
  rw [encode_of_commandOf t h, frame, frameByte0_eq_ofNat, bigEndian_eq_ofNat, crcByte_eq]
  rfl

/-- Settles O4, by running the decoder on each byte string. -/
theorem wordExamples : Obligations.WordExamples := by
  unfold Obligations.WordExamples
  decide

end Sys2Proof
end

section
/-! SUPPORT. Several steps of one operation: exchanges in a row, and the polls of a bounded wait (40_exchanger.md
R130). -/

namespace Sys2Proof.Machine

/-! ### Steps in a row -/

section
variable {i : Instr} {s t : State}

theorem execTimes_of_exec (h : exec i s = .next t) (n : Nat) : execTimes i (n + 1) s = execTimes i n t := by
  rw [execTimes, h]

theorem execTimes_add {m : Nat} (h : execTimes i m s = .next t) (n : Nat) :
    execTimes i (m + n) s = execTimes i n t := by
  induction m generalizing s with
  | zero =>
    cases h
    rw [Nat.zero_add]
  | succ m ih =>
    rw [Nat.add_right_comm]
    cases hx : exec i s with
    | next s' =>
      rw [execTimes_of_exec hx] at h ⊢
      exact ih h
    | fault f => simp only [execTimes, hx, reduceCtorEq] at h
    | refused r => simp only [execTimes, hx, reduceCtorEq] at h

/-- A last step after `n` steps. -/
theorem execTimes_succ_of {n : Nat} {r : State} (h : execTimes i n s = .next t) (hx : exec i t = .next r) :
    execTimes i (n + 1) s = .next r := by
  rw [execTimes_add h, execTimes_of_exec hx, execTimes]

end

/-! ### Exchanges in a row -/

/-- The record of a unit after `n` exchanges, its agent running `run`. -/
def UnitState.afterExchanges (U : UnitState) (n : Nat) (run : Running) : UnitState :=
  { U with inbound := U.inbound.drop n, agent := .running run }

/-- The state after the exchanges `es` of unit `u`, whose record was `U`: its agent runs `run`, the counters are
`d`. -/
def State.afterExchanges (s : State) (u : Nat) (U : UnitState) (es : List Event) (run : Running) (d : Diag) : State :=
  { s with
    units := s.units.set u (U.afterExchanges es.length run)
    diag := d
    trace := s.trace ++ es
    draws := s.draws + es.length }

/-- An exchange after which the agent goes on at `next`; `o` is the counter raised, if any. -/
def Running.exchange (run : Running) (out : Byte) (next : Pos × Work) (o : Option (Phase × Word)) : Action :=
  ⟨.exchange out, run.at next, o, none, none⟩

theorem UnitState.answer_eq_answerAt (U : UnitState) (draws : Nat) : U.answer draws = U.answerAt draws 0 := by
  unfold UnitState.answer UnitState.answerAt
  cases U.inbound <;> rfl

theorem UnitState.answer_afterExchanges (U : UnitState) (n draws : Nat) (run : Running) :
    (U.afterExchanges n run).answer (draws + n) = U.answerAt draws n := by
  rw [UnitState.answer_eq_answerAt]
  simp only [UnitState.answerAt, UnitState.afterExchanges, List.getElem?_drop, Nat.add_zero]

theorem UnitState.answerAt_of_inbound {U : UnitState} {pre post : List Byte} {b : Byte}
    (h : U.inbound = pre ++ b :: post) (draws : Nat) : U.answerAt draws pre.length = b := by
  simp only [UnitState.answerAt, h, List.getElem?_append_right, Nat.le_refl, Nat.sub_self, List.getElem?_cons_zero,
    Option.getD_some]

theorem Word.toNat_ofNat {n : Nat} (h : n < 2 ^ 32) : (BitVec.ofNat 32 n).toNat = n := by
  rw [BitVec.toNat_ofNat, Nat.mod_eq_of_lt h]

theorem UnitState.afterExchanges_of_inbound {U : UnitState} {pre post : List Byte} {n : Nat} {run : Running}
    (h : U.inbound = pre ++ post) (hn : n = pre.length) :
    U.afterExchanges n run = { U with inbound := post, agent := .running run } := by
  rw [UnitState.afterExchanges, h, hn, List.drop_left]

section
variable {s : State} {u : Nat} {U : UnitState} {run run' run'' : Running} {es es' : List Event} {d d' : Diag}

theorem State.Runs.commit {b : Byte} {a : Action} (h : s.Runs u U run) (ha : a.agent = .running run') :
    (s.commit u U b a).Runs u (U.after a) run' := by
  refine ⟨?_, ha⟩
  obtain ⟨hu, -⟩ := List.getElem?_eq_some_iff.1 h.1
  rw [State.commit_units, List.getElem?_set_self hu]

theorem State.Runs.afterExchanges (h : s.Runs u U run) :
    (s.afterExchanges u U es run' d).Runs u (U.afterExchanges es.length run') run' := by
  refine ⟨?_, rfl⟩
  obtain ⟨hu, -⟩ := List.getElem?_eq_some_iff.1 h.1
  exact List.getElem?_set_self hu

theorem State.Moves.afterExchanges (h : s.Moves u U run) :
    (s.afterExchanges u U es run' d).Moves u (U.afterExchanges es.length run') run' :=
  ⟨h.1, h.2.afterExchanges⟩

theorem answer_afterExchanges :
    (U.afterExchanges es.length run').answer (s.afterExchanges u U es run' d).draws = U.answerAt s.draws es.length :=
  UnitState.answer_afterExchanges U es.length s.draws run'

/-- After as many exchanges the transport returns the byte that comes next. -/
theorem answer_of_inbound {pre post : List Byte} {b : Byte} (h : U.inbound = pre ++ b :: post)
    (hes : es.length = pre.length) :
    (U.afterExchanges es.length run').answer (s.afterExchanges u U es run' d).draws = b := by
  rw [answer_afterExchanges, hes, UnitState.answerAt_of_inbound h]

/-- No exchange yet. -/
theorem State.afterExchanges_nil (h : s.Runs u U run) : s.afterExchanges u U [] run s.diag = s := by
  obtain ⟨hu, hr⟩ := h
  obtain ⟨hlt, rfl⟩ := List.getElem?_eq_some_iff.1 hu
  have hU : s.units[u].afterExchanges 0 run = s.units[u] := by
    rw [UnitState.afterExchanges, List.drop_zero, ← hr]
  simp only [State.afterExchanges, List.length_nil, hU, List.set_getElem_self, List.append_nil, Nat.add_zero]

/-- Exchanges after exchanges. -/
theorem State.afterExchanges_append :
    (s.afterExchanges u U es run' d).afterExchanges u (U.afterExchanges es.length run') es' run'' d' =
      s.afterExchanges u U (es ++ es') run'' d' := by
  simp only [State.afterExchanges, UnitState.afterExchanges, List.set_set, List.drop_drop, List.append_assoc,
    List.length_append, Nat.add_assoc]

/-- One more exchange. -/
theorem State.commit_exchange (s : State) (u : Nat) (U : UnitState) (run : Running) (out b : Byte) (next : Pos × Work)
    (o : Option (Phase × Word)) :
    s.commit u U b (run.exchange out next o) =
      s.afterExchanges u U [.x u out b] ⟨run.req, next.1, next.2⟩ (s.diag.raiseOpt o) := by
  rw [State.afterExchanges, UnitState.afterExchanges, List.length_singleton, List.drop_one]
  rfl

theorem State.commit_exchange_afterExchanges {out b : Byte} {next : Pos × Work} {o : Option (Phase × Word)} :
    (s.afterExchanges u U es run' d).commit u (U.afterExchanges es.length run') b (run'.exchange out next o) =
      s.afterExchanges u U (es ++ [.x u out b]) ⟨run'.req, next.1, next.2⟩ (d.raiseOpt o) := by
  rw [State.commit_exchange, State.afterExchanges_append]
  rfl

end

/-- Steps that exchange bytes, after steps that did. -/
theorem execTimes_afterExchanges_trans {i : Instr} {s : State} {u m n : Nat} {U : UnitState} {run run' : Running}
    {es es' : List Event} {d d' : Diag} (h : execTimes i m s = .next (s.afterExchanges u U es run d))
    (h' : execTimes i n (s.afterExchanges u U es run d) =
      .next ((s.afterExchanges u U es run d).afterExchanges u (U.afterExchanges es.length run) es' run' d')) :
    execTimes i (m + n) s = .next (s.afterExchanges u U (es ++ es') run' d') := by
  rw [execTimes_add h, h', State.afterExchanges_append]

/-! ### The polls of a bounded wait -/

/-- In `s` the operation `i` performs a poll of unit `u`'s bounded wait of phase `k`, for a byte that meets `cond`
(40_exchanger.md R130). -/
structure PollsIn (i : Instr) (s : State) (u : Nat) (U : UnitState) (run : Running) (k : Phase) (cond : Byte → Bool)
    (onHit onExpired : Work → Except Fault (Pos × Work)) : Prop where
  exec_eq : exec i s = performRun u U run (U.answer s.draws) s
  act_eq : act s.cfg U.buf (Config.freeSectors s.draws) (U.answer s.draws) run =
    pollStep s.cfg run k (cond (U.answer s.draws)) (U.answer s.draws) onHit onExpired

section
variable {i : Instr} {s : State} {u : Nat} {U : UnitState} {run : Running} {k : Phase} {cond : Byte → Bool}
  {onHit onExpired : Work → Except Fault (Pos × Work)} {n : Word} {b : Byte} {next : Pos × Work}

/-- A poll is the step that `pollStep` says. -/
theorem PollsIn.exec_of {a : Action} (h : PollsIn i s u U run k cond onHit onExpired) (hb : U.answer s.draws = b)
    (ha : pollStep s.cfg run k (cond b) b onHit onExpired = .ok a) : exec i s = .next (s.commit u U b a) := by
  subst hb
  rw [h.exec_eq, performRun_of_act (h.act_eq.trans ha)]

/-- A poll that returns the byte waited for. -/
theorem PollsIn.hit (h : PollsIn i s u U run k cond onHit onExpired) (hi : run.work.i = some n)
    (hb : U.answer s.draws = b) (hc : cond b = true)
    (hn : onHit { run.work with b := some b, ok := some true } = .ok next) :
    exec i s = .next (s.commit u U b (run.exchange filler next (some (k, n)))) :=
  h.exec_of hb (by rw [hc]; exact pollStep_hit hi hn)

/-- A poll that fails below the bound. -/
theorem PollsIn.again (h : PollsIn i s u U run k cond onHit onExpired) (hi : run.work.i = some n)
    (hb : U.answer s.draws = b) (hc : cond b = false) (hn : n.toNat + 1 < s.cfg.bound k) :
    exec i s = .next (s.commit u U b
      (run.exchange filler (run.pos, { run.work with b := some b, i := some (n + 1) }) none)) :=
  h.exec_of hb (by rw [hc]; exact pollStep_again hi hn)

/-- The last poll of the bound fails. -/
theorem PollsIn.expired (h : PollsIn i s u U run k cond onHit onExpired) (hi : run.work.i = some n)
    (hb : U.answer s.draws = b) (hc : cond b = false) (hbound : s.cfg.bound k ≤ n.toNat + 1)
    (hn : onExpired { run.work with b := some b, ok := some false } = .ok next) :
    exec i s = .next (s.commit u U b (run.exchange filler next none)) :=
  h.exec_of hb (by rw [hc]; exact pollStep_expired hi hbound hn)

end

/-- The agent at the same place, the byte polled last and the poll index replaced. -/
def Running.polled (run : Running) (b : Option Byte) (n : Nat) : Running :=
  { run with work := { run.work with b := b, i := some (BitVec.ofNat 32 n) } }

/-- The wait goes on as `PollsIn` says whatever has been polled so far. -/
def State.Waits (s : State) (i : Instr) (u : Nat) (U : UnitState) (run : Running) (k : Phase) (cond : Byte → Bool)
    (onHit onExpired : Work → Except Fault (Pos × Work)) : Prop :=
  ∀ es b n, PollsIn i (s.afterExchanges u U es (run.polled b n) s.diag) u (U.afterExchanges es.length (run.polled b n))
    (run.polled b n) k cond onHit onExpired

section
variable {i : Instr} {s : State} {u : Nat} {U : UnitState} {run : Running} {k : Phase} {cond : Byte → Bool}
  {onHit onExpired : Work → Except Fault (Pos × Work)} {polls rest : List Byte} {x : Byte}

/-- Polls that all fail below the bound: so many exchanges of `0xFF`, and only the byte polled last and the poll
index change. -/
theorem execTimes_polls_again (hr : s.Runs u U run) (h : s.Waits i u U run k cond onHit onExpired)
    (hi : run.work.i = some 0) (hin : U.inbound = polls ++ rest) (hfail : ∀ x ∈ polls, cond x = false)
    (hlt : polls.length < s.cfg.bound k) (hb : s.cfg.bound k < 2 ^ 32) :
    ∃ b, execTimes i polls.length s =
      .next (s.afterExchanges u U (polls.map (.x u filler)) (run.polled b polls.length) s.diag) := by
  induction polls using List.reverseRecOn generalizing rest with
  | nil =>
    have hrun : run.polled run.work.b 0 = run := by
      obtain ⟨req, pos, w⟩ := run
      cases w
      cases hi
      rfl
    exact ⟨run.work.b, by rw [List.map_nil, List.length_nil, hrun, State.afterExchanges_nil hr, execTimes]⟩
  | append_singleton polls x ih =>
    rw [List.length_append, List.length_singleton] at hlt ⊢
    rw [List.append_assoc, List.singleton_append] at hin
    obtain ⟨b, hx⟩ := ih hin (fun y hy => hfail y (List.mem_append_left _ hy)) (by omega)
    have hnext := (h (polls.map (.x u filler)) b polls.length).again rfl (answer_of_inbound hin (List.length_map _))
      (hfail x (by simp)) (by rw [Word.toNat_ofNat (by omega)]; exact hlt)
    rw [State.commit_exchange_afterExchanges] at hnext
    refine ⟨some x, (execTimes_succ_of hx hnext).trans ?_⟩
    rw [List.map_append, Running.polled, Running.polled, BitVec.ofNat_add]
    rfl

/-- The registers after a bounded wait that has returned `b` at poll `n` (40_exchanger.md R130). -/
def Work.waited (w : Work) (b : Byte) (n : Nat) : Work :=
  { w with b := some b, i := some (BitVec.ofNat 32 n), ok := some true }

/-- A wait that succeeds: so many polls that fail, then the byte waited for. -/
theorem execTimes_polls_hit (hr : s.Runs u U run) (h : s.Waits i u U run k cond onHit onExpired)
    (hi : run.work.i = some 0) (hin : U.inbound = polls ++ x :: rest) (hfail : ∀ x ∈ polls, cond x = false)
    (hx : cond x = true) (hlt : polls.length < s.cfg.bound k) (hb : s.cfg.bound k < 2 ^ 32) {next : Pos × Work}
    (hn : onHit (run.work.waited x polls.length) = .ok next) :
    execTimes i (polls.length + 1) s =
      .next (s.afterExchanges u U ((polls ++ [x]).map (.x u filler)) ⟨run.req, next.1, next.2⟩
        (s.diag.raise k (BitVec.ofNat 32 polls.length))) := by
  obtain ⟨b, hpolls⟩ := execTimes_polls_again hr h hi hin hfail hlt hb
  have hnext := (h (polls.map (.x u filler)) b polls.length).hit rfl (answer_of_inbound hin (List.length_map _)) hx hn
  rw [State.commit_exchange_afterExchanges] at hnext
  rw [List.map_append]
  exact execTimes_succ_of hpolls hnext

/-- A wait whose polls all fail, as many as its bound. -/
theorem execTimes_polls_expired (hr : s.Runs u U run) (h : s.Waits i u U run k cond onHit onExpired)
    (hi : run.work.i = some 0) (hin : U.inbound = polls ++ rest) (hfail : ∀ x ∈ polls, cond x = false)
    (hlen : polls.length = s.cfg.bound k) (hpos : 1 ≤ s.cfg.bound k) (hb : s.cfg.bound k < 2 ^ 32) {pos : Pos}
    (hn : ∀ w, onExpired w = .ok (pos, w)) :
    ∃ w, execTimes i polls.length s =
      .next (s.afterExchanges u U (polls.map (.x u filler)) ⟨run.req, pos, w⟩ s.diag) := by
  obtain rfl | ⟨init, x, rfl⟩ := List.eq_nil_or_concat' polls
  · rw [List.length_nil] at hlen
    omega
  · rw [List.length_append, List.length_singleton] at hlen ⊢
    rw [List.append_assoc, List.singleton_append] at hin
    obtain ⟨b, hpolls⟩ := execTimes_polls_again hr h hi hin (fun y hy => hfail y (List.mem_append_left _ hy))
      (by omega) hb
    have hnext := (h (init.map (.x u filler)) b init.length).expired rfl (answer_of_inbound hin (List.length_map _))
      (hfail x (by simp)) (by rw [Word.toNat_ofNat (by omega)]; exact hlen.ge) (hn _)
    rw [State.commit_exchange_afterExchanges] at hnext
    rw [List.map_append]
    exact ⟨_, execTimes_succ_of hpolls hnext⟩

end

end Sys2Proof.Machine
end

section
/-! SUPPORT. One `SendCommand` at its call sites (40_exchanger.md R131 to R135), with the proofs that settle O26 to
O30. -/

namespace Sys2Proof.Machine

theorem need_of_eq {α β : Type} {reg : Option α} {x : α} (h : reg = some x) (k : α → Except Fault β) :
    need reg k = k x := by
  rw [h, need_some]

/-! ### A command's step at its call site -/

theorem CallSite.command_eq_cmd0 {site : CallSite} : site.command = .cmd0 ↔ site = .reset := by
  cases site <;> decide

/-- The operation of a call site reads none of the registers that `SendCommand` writes. -/
theorem CallSite.operation_of_work (site : CallSite) (w : Work) (b : Option Byte) (i : Option Word)
    (ok : Option Bool) : site.operation { w with b := b, i := i, ok := ok } = site.operation w := by
  cases site <;> rfl

theorem isStatus_iff {b : Byte} : isStatus b = true ↔ b.toNat < 0x80 := by
  revert b
  decide

theorem isStatus_eq_false_iff {b : Byte} : isStatus b = false ↔ 0x80 ≤ b.toNat := by
  rw [← Bool.not_eq_true, isStatus_iff, Nat.not_lt]

section
variable {i : Instr} {s : State} {u : Nat} {U : UnitState} {run : Running} {site : CallSite} {x : XPos} {arg : Word}

theorem act_call {cfg : Config} {buf : HostBuf} {free : Word} {b : Byte} (hp : run.pos = .call site x) :
    act cfg buf free b run = actCall cfg run site x b := by
  simp only [act, hp]

theorem exec_call (ho : site.operation run.work = some i) (hm : s.Moves u U run) (hp : run.pos = .call site x)
    {a : Action} (ha : actCall s.cfg run site x (U.answer s.draws) = .ok a) :
    exec i s = .next (s.commit u U (U.answer s.draws) a) := by
  rw [exec_operation ho (State.mover_eq_some.2 hm) hp]
  exact performRun_of_act ((act_call hp).trans ha)

/-- From a legal state the next primitive of a command has an effect. -/
theorem State.Inv.exec_call (hinv : s.Inv) (ho : site.operation run.work = some i) (hm : s.Moves u U run)
    (hp : run.pos = .call site x) :
    ∃ a, actCall s.cfg run site x (U.answer s.draws) = .ok a ∧
      exec i s = .next (s.commit u U (U.answer s.draws) a) := by
  obtain ⟨a, ha, -⟩ := hinv.step_unit hm
  rw [act_call hp] at ha
  exact ⟨a, ha, Machine.exec_call ho hm hp ha⟩

theorem pollsIn_preWait (ho : site.operation run.work = some i) (hm : s.Moves u U run)
    (hp : run.pos = .call site .preWait) :
    PollsIn i s u U run .waitCmd isNotBusy (fun w => .ok (.call site (.frame 0), w))
      (fun w => .ok (.call site .preTimeout, w)) where
  exec_eq := exec_operation ho (State.mover_eq_some.2 hm) hp
  act_eq := act_call hp

theorem pollsIn_resp (ho : site.operation run.work = some i) (hm : s.Moves u U run)
    (hp : run.pos = .call site .resp) :
    PollsIn i s u U run .cmd isStatus (returnStatus run.req site)
      (fun w => if site.command = .cmd0 then returnStatus run.req site w else .ok (.call site .respTimeout, w)) where
  exec_eq := exec_operation ho (State.mover_eq_some.2 hm) hp
  act_eq := act_call hp

/-! ### The frame -/

theorem frame_length (t : CommandTable) (c : Command) (arg : Word) : (frame t c arg).length = 6 := rfl

/-- Where the agent goes on after byte `k`. -/
def Running.afterFrameByte (run : Running) (site : CallSite) (k : Nat) : Pos × Work :=
  if k < 5 then (.call site (.frame (k + 1)), run.work) else (.call site .resp, { run.work with i := some 0 })

/-- Byte `k` of the frame is sent (40_exchanger.md R132). -/
theorem exec_frameByte {k : Nat} (ho : site.operation run.work = some i) (hm : s.Moves u U run)
    (hp : run.pos = .call site (.frame k)) (ha : site.argument run.work = some arg)
    (hk : k < (frame s.cfg.commands site.command arg).length) :
    exec i s = .next (s.commit u U (U.answer s.draws) (run.exchange (frame s.cfg.commands site.command arg)[k]
      (run.afterFrameByte site k) none)) := by
  refine exec_call ho hm hp ?_
  rw [actCall, ha, need_some, List.getD_eq_getElem _ _ hk]
  rfl

/-- Settles O26, by what one byte of the frame does. -/
theorem commandSendsItsNextByte : Obligations.CommandSendsItsNextByte := by
  intro i s u U run site k ho hm hp hk
  obtain ⟨arg, hc, ha⟩ := CallSite.commandOf_operation ho
  refine ⟨(frame s.cfg.commands site.command arg)[k], ?_, ?_⟩
  · rw [encode_of_commandOf _ hc]
    exact List.getElem?_eq_getElem hk
  · rw [exec_frameByte ho hm hp ha hk, Running.afterFrameByte]
    split <;> rfl

/-- The agent after `k` bytes of the frame. -/
def Running.inFrame (run : Running) (site : CallSite) (k : Nat) : Running :=
  if k < 6 then ⟨run.req, .call site (.frame k), run.work⟩
  else ⟨run.req, .call site .resp, { run.work with i := some 0 }⟩

theorem Running.inFrame_succ (run : Running) (site : CallSite) (k : Nat) :
    run.inFrame site (k + 1) = ⟨run.req, (run.afterFrameByte site k).1, (run.afterFrameByte site k).2⟩ := by
  by_cases hk : k < 5
  · rw [Running.inFrame, Running.afterFrameByte, if_pos hk, if_pos (Nat.succ_lt_succ hk)]
  · rw [Running.inFrame, Running.afterFrameByte, if_neg hk, if_neg (by omega)]

/-- The exchanges of the bytes `sent`, the transport returning whatever it does. -/
def UnitState.exchangesOf (U : UnitState) (u draws : Nat) (sent : List Byte) : List Event :=
  sent.mapIdx fun k out => .x u out (U.answerAt draws k)

theorem UnitState.exchangesOf_take_succ (U : UnitState) (u draws : Nat) {sent : List Byte} {n : Nat}
    (hn : n < sent.length) :
    U.exchangesOf u draws (sent.take (n + 1)) =
      U.exchangesOf u draws (sent.take n) ++ [.x u sent[n] (U.answerAt draws n)] := by
  rw [UnitState.exchangesOf, ← List.take_concat_get' sent n hn, List.mapIdx_concat,
    List.length_take_of_le (Nat.le_of_lt hn), UnitState.exchangesOf]

theorem UnitState.length_exchangesOf (U : UnitState) (u draws : Nat) (sent : List Byte) :
    (U.exchangesOf u draws sent).length = sent.length := List.length_mapIdx

/-- The first `n` bytes of the frame are sent in order. -/
theorem execTimes_frame (ho : site.operation run.work = some i) (hm : s.Moves u U run)
    (hp : run.pos = .call site (.frame 0)) (ha : site.argument run.work = some arg) {n : Nat} (hn : n ≤ 6) :
    execTimes i n s = .next (s.afterExchanges u U
      (U.exchangesOf u s.draws ((frame s.cfg.commands site.command arg).take n)) (run.inFrame site n) s.diag) := by
  induction n with
  | zero =>
    have hrun : run.inFrame site 0 = run := by rw [Running.inFrame, if_pos (by decide), ← hp]
    rw [hrun]
    exact congrArg Host.Outcome.next (State.afterExchanges_nil hm.2).symm
  | succ n ih =>
    have hrun : run.inFrame site n = ⟨run.req, .call site (.frame n), run.work⟩ := if_pos hn
    have hbyte := exec_frameByte (run := ⟨run.req, .call site (.frame n), run.work⟩) ho (hm.afterExchanges
      (es := U.exchangesOf u s.draws ((frame s.cfg.commands site.command arg).take n)) (d := s.diag)) rfl ha hn
    have hlen : (U.exchangesOf u s.draws ((frame s.cfg.commands site.command arg).take n)).length = n := by
      rw [UnitState.length_exchangesOf]
      exact List.length_take_of_le (Nat.le_of_succ_le hn)
    rw [State.commit_exchange_afterExchanges, answer_afterExchanges, hlen] at hbyte
    rw [UnitState.exchangesOf_take_succ _ _ _ (frame_length .. ▸ hn), Running.inFrame_succ]
    exact execTimes_succ_of (hrun ▸ ih (Nat.le_of_succ_le hn)) hbyte

/-- The six bytes of the frame are sent in order, and then the response poll starts. -/
theorem execTimes_wholeFrame (ho : site.operation run.work = some i) (hm : s.Moves u U run)
    (hp : run.pos = .call site (.frame 0)) (ha : site.argument run.work = some arg) :
    execTimes i 6 s = .next (s.afterExchanges u U
      (U.exchangesOf u s.draws (frame s.cfg.commands site.command arg))
      ⟨run.req, .call site .resp, { run.work with i := some 0 }⟩ s.diag) :=
  execTimes_frame ho hm hp ha le_rfl

/-- The bytes of a frame as numbers (30_encoding.md R90 to R92). -/
theorem frame_eq_ofNat (t : CommandTable) (c : Command) (arg : Word) :
    frame t c arg = BitVec.ofNat 8 (0x40 + (t.index c).toNat) ::
      [BitVec.ofNat 8 (arg.toNat / 2 ^ 24), BitVec.ofNat 8 (arg.toNat / 2 ^ 16), BitVec.ofNat 8 (arg.toNat / 2 ^ 8),
        BitVec.ofNat 8 arg.toNat] ++ [crcByte c] := by
  rw [frame, frameByte0_eq_ofNat, bigEndian_eq_ofNat]
  rfl

end

/-- Settles O27: the frame is sent in order, and at each call site it is the bytes spelled there. -/
theorem frameIsSentInOrder : Obligations.FrameIsSentInOrder := by
  intro i s u U run site ho hm hp byte0 bytesOf sent
  obtain ⟨arg, -, ha⟩ := CallSite.commandOf_operation ho
  have hsent : sent = frame s.cfg.commands site.command arg := by
    rw [frame_eq_ofNat]
    cases site with
    | reset | probe | negPrefix | ocr | capacity | readStop | writePrefix =>
      cases ha
      rfl
    | negCond =>
      obtain ⟨c, hc, rfl⟩ := Option.map_eq_some_iff.1 ha
      simp only [sent, hc]
      cases c <;> rfl
    | readStart | writeStart =>
      replace ha : run.work.arg = some arg := ha
      simp only [sent, bytesOf, ha]
      rfl
    | writeErase =>
      replace ha : run.work.nsec = some arg := ha
      simp only [sent, bytesOf, ha]
      rfl
  rw [execTimes_wholeFrame ho hm hp ha, ← hsent]
  have hlen : (U.exchangesOf u s.draws sent).length = 6 := by
    rw [UnitState.length_exchangesOf, hsent, frame_length]
  rw [State.afterExchanges, hlen]
  rfl

/-! ### The pre-command wait -/

theorem isNotBusy_iff {b : Byte} : isNotBusy b = true ↔ b = 0xFF := beq_iff_eq

theorem isNotBusy_eq_false_iff {b : Byte} : isNotBusy b = false ↔ b ≠ 0xFF := beq_eq_false_iff_ne

/-- Every command but CMD0 is entered at its pre-command wait (40_exchanger.md R131). -/
theorem enterCall_of_ne_reset {site : CallSite} (h : site ≠ .reset) (w : Work) :
    enterCall site w = (.call site .preWait, { w with i := some 0 }) := by
  rw [enterCall, if_neg (mt CallSite.command_eq_cmd0.1 h)]

/-- Settles O28, by the three outcomes of a poll. -/
theorem preCommandWait : Obligations.PreCommandWait := by
  refine ⟨fun w => rfl, fun i s u U run site ho hne hm => ⟨enterCall_of_ne_reset hne, fun n hp hi => ?_, fun hp => ?_⟩⟩
  · have hpoll := pollsIn_preWait ho hm hp
    refine ⟨fun hb => ?_, fun hb hlt => ?_, fun hb hbound => ?_⟩
    · exact hpoll.hit hi rfl (isNotBusy_iff.2 hb) rfl
    · rw [← hp]
      exact hpoll.again hi rfl (isNotBusy_eq_false_iff.2 hb) hlt
    · exact hpoll.expired hi rfl (isNotBusy_eq_false_iff.2 hb) hbound rfl
  · exact exec_call ho hm hp rfl

/-! ### The response poll -/

/-- The caller assigns from the status none but `i`, `j`, `c`, `rem` and `p`. -/
theorem afterCall_work {req : Request} {site : CallSite} {r : Byte} {w : Work} {next : Pos × Work}
    (h : afterCall req site r w = .ok next) :
    ∃ i j c rem p, next.2 = { w with i := i, j := j, c := c, rem := rem, p := p } := by
  cases site with
  | reset =>
    obtain ⟨j, -, h⟩ := need_ok h
    simp only at h
    split at h <;> cases h <;> exact ⟨_, _, _, _, _, rfl⟩
  | negPrefix | negCond | readStop | writePrefix =>
    cases h
    exact ⟨_, _, _, _, _, rfl⟩
  | probe | ocr | capacity | readStart | writeErase | writeStart =>
    simp only [afterCall] at h
    split at h <;> cases h <;> exact ⟨_, _, _, _, _, rfl⟩

theorem returnStatus_eq {req : Request} {site : CallSite} {w : Work} {b : Byte} (hb : w.b = some b) :
    returnStatus req site w = afterCall req site b { w with r := some b } := need_of_eq hb _

/-- `SendCommand` returns the byte polled last as the status (40_exchanger.md R133). -/
theorem returnStatus_work {req : Request} {site : CallSite} {w : Work} {next : Pos × Work}
    (h : returnStatus req site w = .ok next) :
    ∃ i j c rem p, next.2 = { w with r := w.b, i := i, j := j, c := c, rem := rem, p := p } := by
  obtain ⟨b, hb, h⟩ := need_ok h
  obtain ⟨i, j, c, rem, p, hw⟩ := afterCall_work h
  exact ⟨i, j, c, rem, p, by rw [hw, hb]⟩

theorem returnStatus_r {req : Request} {site : CallSite} {w : Work} {next : Pos × Work}
    (h : returnStatus req site w = .ok next) : next.2.r = w.b := by
  obtain ⟨i, j, c, rem, p, hw⟩ := returnStatus_work h
  rw [hw]

/-- After `TIMEOUT CMD` the command returns its status. -/
theorem actCall_respTimeout {cfg : Config} {run : Running} {site : CallSite} {b : Byte} {a : Action}
    (h : actCall cfg run site .respTimeout b = .ok a) :
    ∃ next, returnStatus run.req site run.work = .ok next ∧ a = run.go (.timeout .cmd) next := by
  rw [actCall] at h
  split at h
  · rename_i next hn
    exact ⟨next, hn, (Except.ok.inj h).symm⟩
  · cases h

/-- A status that timed out has bit 7 set (40_exchanger.md R135). -/
theorem State.Inv.timedOut_invalid {s : State} {u : Nat} {U : UnitState} {run : Running} {site : CallSite}
    {last : Byte} (hinv : s.Inv) (hm : s.Moves u U run) (hp : run.pos = .call site .respTimeout)
    (hb : run.work.b = some last) : 0x80 ≤ last.toNat := by
  have hok := ((hinv.units u U hm.2.1).2 run hm.2.2).2
  rw [Running.ok, hp] at hok
  obtain ⟨-, -, -, b, hb', hinvalid⟩ := hok
  cases hb.symm.trans hb'
  exact isStatus_eq_false_iff.1 (by rw [isStatus, hinvalid, Bool.not_true])

/-- Settles O29, by the three outcomes of a poll and by what a status that timed out leaves. -/
theorem responsePoll : Obligations.ResponsePoll := by
  intro i s u U run site hinv ho hm b polled
  refine ⟨fun n hp hi => ?_, fun last hp hb => ?_⟩
  · obtain ⟨a, ha, hx⟩ := hinv.exec_call ho hm hp
    rw [actCall] at ha
    obtain ⟨n', hi', h⟩ := pollStep_ok ha
    cases hi.symm.trans hi'
    obtain ⟨hc, next, hnext, rfl⟩ | ⟨hc, hlt, rfl⟩ | ⟨hc, hbound, next, hnext, rfl⟩ := h
    · have hvalid : b.toNat < 0x80 := isStatus_iff.1 hc
      exact ⟨_, _, hx, ⟨rfl, rfl⟩, fun _ => ⟨rfl, returnStatus_r hnext⟩, fun h => absurd h (by omega),
        fun h => absurd h (by omega)⟩
    · have hinvalid : 0x80 ≤ b.toNat := isStatus_eq_false_iff.1 hc
      exact ⟨_, _, hx, ⟨rfl, rfl⟩, fun h => absurd h (by omega), fun _ _ => ⟨rfl, rfl⟩,
        fun _ h => absurd hlt (Nat.not_lt.2 h)⟩
    · have hinvalid : 0x80 ≤ b.toNat := isStatus_eq_false_iff.1 hc
      refine ⟨_, _, hx, ⟨rfl, rfl⟩, fun h => absurd h (by omega), fun _ h => absurd hbound (Nat.not_le.2 h),
        fun _ _ => ⟨rfl, fun hs => ?_, fun hs => ?_⟩⟩
      · rw [if_pos (CallSite.command_eq_cmd0.2 hs)] at hnext
        exact returnStatus_r hnext
      · rw [if_neg (mt CallSite.command_eq_cmd0.1 hs)] at hnext
        cases hnext
        rfl
  · obtain ⟨a, ha, hx⟩ := hinv.exec_call ho hm hp
    obtain ⟨next, hnext, rfl⟩ := actCall_respTimeout ha
    exact ⟨_, _, hx, rfl, rfl, rfl, (returnStatus_r hnext).trans hb, hinv.timedOut_invalid hm hp hb⟩

/-! ### A whole command -/

/-- No caller but that of CMD0 reads a register when the status comes. -/
theorem afterCall_of_ne_reset {site : CallSite} (h : site ≠ .reset) (req : Request) (r : Byte) (w : Work) :
    ∃ next, afterCall req site r w = .ok next := by
  cases site with
  | reset => exact absurd rfl h
  | negPrefix | negCond | readStop | writePrefix => exact ⟨_, rfl⟩
  | probe | ocr | capacity | readStart | writeErase | writeStart =>
    simp only [afterCall]
    split <;> exact ⟨_, rfl⟩

theorem returnStatus_of_ne_reset {site : CallSite} (h : site ≠ .reset) (req : Request) {w : Work} {r : Byte}
    (hb : w.b = some r) : ∃ next, returnStatus req site w = .ok next := by
  rw [returnStatus_eq hb]
  exact afterCall_of_ne_reset h req r _

theorem UnitState.exchangesOf_of_inbound {U : UnitState} {sent ignored rest : List Byte}
    (h : U.inbound = ignored ++ rest) (hlen : ignored.length = sent.length) (u draws : Nat) :
    U.exchangesOf u draws sent = List.zipWith (.x u) sent ignored := by
  refine List.ext_getElem (by rw [UnitState.length_exchangesOf, List.length_zipWith, hlen, Nat.min_self]) ?_
  intro k hk _
  rw [UnitState.length_exchangesOf] at hk
  have hk' : k < ignored.length := hlen ▸ hk
  simp only [UnitState.exchangesOf, List.getElem_mapIdx, List.getElem_zipWith, UnitState.answerAt, h,
    List.getElem?_append_left hk', List.getElem?_eq_getElem hk', Option.getD_some]

section
variable {i : Instr} {s : State} {u : Nat} {U : UnitState} {run : Running} {site : CallSite}

/-- CMD0 has no pre-command wait (40_exchanger.md R131). -/
theorem State.Inv.ne_reset_of_preWait (hinv : s.Inv) (hm : s.Moves u U run) (hp : run.pos = .call site .preWait) :
    site ≠ .reset := by
  have hok := ((hinv.units u U hm.2.1).2 run hm.2.2).2
  rw [Running.ok, hp] at hok
  obtain ⟨-, -, hcmd, -⟩ := hok
  exact mt CallSite.command_eq_cmd0.2 hcmd

theorem waits_preWait (ho : site.operation run.work = some i) (hm : s.Moves u U run)
    (hp : run.pos = .call site .preWait) :
    s.Waits i u U run .waitCmd isNotBusy (fun w => .ok (.call site (.frame 0), w))
      (fun w => .ok (.call site .preTimeout, w)) :=
  fun _ b n => pollsIn_preWait (run := run.polled b n) ((site.operation_of_work ..).trans ho) hm.afterExchanges hp

theorem waits_resp (ho : site.operation run.work = some i) (hm : s.Moves u U run)
    (hp : run.pos = .call site .resp) :
    s.Waits i u U run .cmd isStatus (returnStatus run.req site)
      (fun w => if site.command = .cmd0 then returnStatus run.req site w else .ok (.call site .respTimeout, w)) :=
  fun _ b n => pollsIn_resp (run := run.polled b n) ((site.operation_of_work ..).trans ho) hm.afterExchanges hp

/-- The frame, `polls` without a status, and the status `r` (40_exchanger.md R132, R134). -/
theorem execTimes_frame_status {polls ignored rest : List Byte} {r : Byte} {next : Pos × Work}
    (ho : site.operation run.work = some i) (hm : s.Moves u U run) (hp : run.pos = .call site (.frame 0))
    (hin : U.inbound = ignored ++ (polls ++ r :: rest)) (hignored : ignored.length = 6)
    (hpolls : ∀ b ∈ polls, 0x80 ≤ b.toNat) (hlt : polls.length < s.cfg.bCmd) (hb : s.cfg.bCmd < 2 ^ 32)
    (hr : r.toNat < 0x80)
    (hnext : returnStatus run.req site (run.work.waited r polls.length) = .ok next) :
    execTimes i (6 + (polls.length + 1)) s = .next (s.afterExchanges u U
      (List.zipWith (.x u) (encode s.cfg.commands i) ignored ++ (polls ++ [r]).map (.x u filler))
      ⟨run.req, next.1, next.2⟩ (s.diag.raise .cmd (BitVec.ofNat 32 polls.length))) := by
  obtain ⟨arg, hc, ha⟩ := CallSite.commandOf_operation ho
  rw [encode_of_commandOf _ hc, ← UnitState.exchangesOf_of_inbound hin (hignored.trans (frame_length ..).symm) u s.draws]
  refine execTimes_afterExchanges_trans (execTimes_wholeFrame ho hm hp ha) ?_
  have hm' := hm.afterExchanges (es := U.exchangesOf u s.draws (frame s.cfg.commands site.command arg))
    (run' := ⟨run.req, .call site .resp, { run.work with i := some 0 }⟩) (d := s.diag)
  refine execTimes_polls_hit (rest := rest) hm'.2 (waits_resp ((site.operation_of_work ..).trans ho) hm' rfl) rfl ?_
    (fun b hb => isStatus_eq_false_iff.2 (hpolls b hb)) (isStatus_iff.2 hr) hlt hb hnext
  rw [UnitState.afterExchanges_of_inbound hin (by rw [UnitState.length_exchangesOf, frame_length, hignored])]

end

/-- Settles O30: the pre-command wait, then the frame and the status. -/
theorem sendCommand : Obligations.SendCommand := by
  intro i s u U run site busy polls ignored rest r hinv ho hm hp hi hin hbusy hbusyLt hignored hpolls hpollsLt hr
  have hbound := Config.bound_pos (State.configOk_iff.1 hinv.config).1
  have hne := hinv.ne_reset_of_preWait hm hp
  replace hin : U.inbound = busy ++ 0xFF :: (ignored ++ (polls ++ r :: rest)) := by
    simpa only [List.append_assoc, List.cons_append, List.nil_append] using hin
  have hwait := execTimes_polls_hit hm.2 (waits_preWait ho hm hp) hi hin
    (fun b hb => isNotBusy_eq_false_iff.2 (hbusy b hb)) rfl hbusyLt (hbound .waitCmd).2 rfl
  obtain ⟨next, hnext⟩ := returnStatus_of_ne_reset hne run.req (w := run.work.waited r polls.length) rfl
  have hin' : (U.afterExchanges ((busy ++ [0xFF]).map (.x u filler : Byte → Event)).length
      ⟨run.req, .call site (.frame 0), run.work.waited 0xFF busy.length⟩).inbound =
        ignored ++ (polls ++ r :: rest) := by
    rw [UnitState.afterExchanges_of_inbound (pre := busy ++ [0xFF]) (by simpa using hin) (List.length_map _)]
  have hall := execTimes_afterExchanges_trans hwait (execTimes_frame_status (next := next)
    (run := ⟨run.req, .call site (.frame 0), run.work.waited 0xFF busy.length⟩) ((site.operation_of_work ..).trans ho)
    hm.afterExchanges rfl hin' hignored hpolls hpollsLt (hbound .cmd).2 hr hnext)
  have hlen : List.length ((busy ++ [0xFF]).map (.x u filler) ++ (List.zipWith (.x u) (encode s.cfg.commands i)
      ignored ++ (polls ++ [r]).map (.x u filler)) : List Event) =
      (busy ++ [0xFF] ++ ignored ++ polls ++ [r]).length := by
    obtain ⟨arg, hc, -⟩ := CallSite.commandOf_operation ho
    simp [encode_of_commandOf _ hc, frame_length, hignored, Nat.add_assoc]
  rw [show busy.length + 1 + 6 + polls.length + 1 = busy.length + 1 + (6 + (polls.length + 1)) by omega]
  refine ⟨_, ⟨run.req, next.1, next.2⟩, hall, ?_, returnStatus_r hnext, rfl, ?_⟩
  · exact congrArg (s.units.set u)
      (UnitState.afterExchanges_of_inbound (post := rest) (by simpa using hin) hlen)
  · simp only [State.afterExchanges, filler, List.map_append, List.map_cons, List.map_nil, List.append_assoc]

end Sys2Proof.Machine
end

section
/-! SUPPORT. What a caller does with a status, valid or timed out, with the proofs that settle O31 and O32. -/

namespace Sys2Proof.Machine

/-! ### The tests of a status -/

theorem isStatus_statusByte (flags : BitVec 7) : isStatus (statusByte flags) = true := by
  rw [isStatus, statusInvalid, statusByte_bit7, Bool.not_false]

theorem isClear_statusByte_of_ne {flags : BitVec 7} (h : flags ≠ 0) : isClear (statusByte flags) = false := by
  revert flags
  decide

theorem isIdleOnly_statusByte {flags : BitVec 7} : isIdleOnly (statusByte flags) = true ↔ flags = 0b0000001 := by
  revert flags
  decide

theorem statusIllegalCmd_statusByte (flags : BitVec 7) : statusIllegalCmd (statusByte flags) = flags.getLsbD 2 := by
  revert flags
  decide

theorem isClear_of_invalid {b : Byte} (h : 0x80 ≤ b.toNat) : isClear b = false := by
  refine beq_eq_false_iff_ne.2 ?_
  rintro rfl
  exact absurd h (by decide)

theorem isIdleOnly_of_invalid {b : Byte} (h : 0x80 ≤ b.toNat) : isIdleOnly b = false := by
  refine beq_eq_false_iff_ne.2 ?_
  rintro rfl
  exact absurd h (by decide)

/-! ### The callers that test a status -/

section
variable {req : Request} {r : Byte} {w : Work} {j : Word}

/-- The reset attempts end at `0x01` or with the fourth (41_init.md R173). -/
theorem afterCall_reset_done (hj : w.j = some j) (h : isIdleOnly r = true ∨ j.toNat = 3) :
    afterCall req .reset r w = .ok (.desReset, { w with j := some (j + 1) }) := by
  have hdone : (isIdleOnly r || decide (resetAttempts ≤ j.toNat + 1)) = true := by
    rw [Bool.or_eq_true, decide_eq_true_eq, resetAttempts]
    exact h.imp_right fun h3 => by omega
  simp only [afterCall, hj, need_some, if_pos hdone]

/-- A failed attempt but the fourth is followed by another (41_init.md R173). -/
theorem afterCall_reset_again (hj : w.j = some j) (hr : isIdleOnly r = false) (hlt : j.toNat < 3) :
    afterCall req .reset r w = .ok (.call .reset (.frame 0), { w with j := some (j + 1) }) := by
  have hmore : ¬ (isIdleOnly r || decide (resetAttempts ≤ j.toNat + 1)) = true := by
    rw [hr, Bool.false_or, decide_eq_true_eq, resetAttempts]
    omega
  simp only [afterCall, hj, need_some, if_neg hmore]
  rfl

theorem afterCall_probe_illegal (h : statusIllegalCmd r = true) :
    afterCall req .probe r w = .ok (.desProbe, { w with c := some .mmcSdv1 }) := by
  rw [afterCall, if_pos h]

theorem afterCall_probe_legal (h : statusIllegalCmd r = false) : afterCall req .probe r w = .ok (.echo 0, w) := by
  rw [afterCall, if_neg (Bool.eq_false_iff.1 h)]

/-- The outcome of the callers that need `0x00`, where the status is another (41_init.md R182, 42_capacity.md R210,
43_transfer.md R233, R242). -/
def CallSite.failure : CallSite → Option OutcomeCode
  | .ocr | .readStart | .writeErase | .writeStart => some .commandRejected
  | .capacity => some .capacityQueryFailed
  | _ => none

theorem afterCall_fails {site : CallSite} {e : OutcomeCode} (he : site.failure = some e) (hr : isClear r = false) :
    afterCall req site r w = .ok (.desFail e, w) := by
  cases site with
  | ocr | capacity | readStart | writeErase | writeStart =>
    cases he
    rw [afterCall, if_neg (Bool.eq_false_iff.1 hr), failSelected]
  | reset | probe | negPrefix | negCond | readStop | writePrefix => cases he

end

/-! ### The step that receives a status -/

/-- The registers after `SendCommand` has returned the byte `b`. -/
def Work.withStatus (w : Work) (b : Byte) (ok : Bool) : Work := { w with b := some b, ok := some ok, r := some b }

section
variable {s : State} {u : Nat} {U : UnitState} {run : Running} {site : CallSite} {n : Word} {pos : Pos} {w : Work}

/-- R1_STATUS: the caller goes on with the status (40_exchanger.md R134). -/
theorem exec_r1Status {flags : BitVec 7} (hm : s.Moves u U run) (hi : run.work.i = some n)
    (hp : run.pos = .call site .resp)
    (h : afterCall run.req site (statusByte flags) (run.work.withStatus (statusByte flags) true) =
      .ok (pos, w.withStatus (statusByte flags) true)) :
    exec (.r1Status flags) s = .next (s.statusReceived u U run flags n pos w) := by
  rw [exec, execR1Status, execAt_of (State.mover_eq_some.2 hm) (by rw [hp]; rfl)]
  have hact : actCall s.cfg run site .resp (statusByte flags) =
      .ok (run.exchange filler (pos, w.withStatus (statusByte flags) true) (some (.cmd, n))) := by
    rw [actCall, isStatus_statusByte]
    exact pollStep_hit hi h
  exact performRun_of_act ((act_call hp).trans hact)

/-- After `TIMEOUT CMD` the caller goes on with the last byte polled (40_exchanger.md R135). -/
theorem exec_respTimeout {i : Instr} {last : Byte} (hm : s.Moves u U run) (hb : run.work.b = some last)
    (hp : run.pos = .call site .respTimeout) (ho : site.operation run.work = some i)
    (h : afterCall run.req site last { run.work with r := some last } = .ok (pos, w)) :
    exec i s = .next (s.statusTimedOut u U run pos w) := by
  have hret : returnStatus run.req site run.work = .ok (pos, w) := (returnStatus_eq hb).trans h
  exact exec_call ho hm hp (by rw [actCall, hret])

end

/-- Settles O31: each clause is the step that receives a status, or that ends its timeout, with what its caller does
next. -/
theorem statusInInit : Obligations.StatusInInit := by
  refine ⟨fun s u U run flags n hm hi => ?_, fun s u U run last hm hlast => ⟨fun n j hp hi hj hb hbound hlt => ?_,
    fun hb => ?_⟩⟩
  · intro w result
    refine ⟨fun j hp hj hlt => ⟨fun h => ?_, fun hne hlt => ?_⟩, fun hp => ⟨fun h2 => ?_, fun h2 => ?_⟩, fun hp => ?_,
      fun hp => ?_, fun hp => ⟨fun h0 => ?_, fun h0 => ?_⟩, fun hp => ⟨fun h0 => ?_, fun h0 => ?_⟩⟩
    · exact exec_r1Status hm hi hp (afterCall_reset_done hj (h.imp_left isIdleOnly_statusByte.2))
    · exact exec_r1Status hm hi hp
        (afterCall_reset_again hj (Bool.eq_false_iff.2 (mt isIdleOnly_statusByte.1 hne)) hlt)
    · exact exec_r1Status hm hi hp (afterCall_probe_illegal ((statusIllegalCmd_statusByte flags).trans h2))
    · exact exec_r1Status hm hi hp (afterCall_probe_legal ((statusIllegalCmd_statusByte flags).trans h2))
    · exact exec_r1Status hm hi hp rfl
    · exact exec_r1Status hm hi hp rfl
    · subst h0
      exact exec_r1Status hm hi hp rfl
    · exact exec_r1Status hm hi hp (afterCall_fails rfl (isClear_statusByte_of_ne h0))
    · subst h0
      exact exec_r1Status hm hi hp rfl
    · exact exec_r1Status hm hi hp (afterCall_fails rfl (isClear_statusByte_of_ne h0))
  · have hret : afterCall run.req .reset last (run.work.withStatus last false) = .ok
        (if j.toNat = 3 then .desReset else .call .reset (.frame 0),
          { run.work.withStatus last false with j := some (j + 1) }) := by
      split_ifs with h3
      · exact afterCall_reset_done hj (.inr h3)
      · exact afterCall_reset_again hj (isIdleOnly_of_invalid hlast) (by omega)
    exact (pollsIn_resp rfl hm hp).expired hi hb (isStatus_eq_false_iff.2 hlast) hbound hret
  · intro w result
    refine ⟨fun hp => ⟨fun h2 => ?_, fun h2 => ?_⟩, fun hp => ?_, fun c hp hc => ?_, fun hp => ?_, fun hp => ?_⟩
    · exact exec_respTimeout hm hb hp rfl (afterCall_probe_illegal h2)
    · exact exec_respTimeout hm hb hp rfl (afterCall_probe_legal h2)
    · exact exec_respTimeout hm hb hp rfl rfl
    · exact exec_respTimeout hm hb hp (congrArg (Option.map _) hc) rfl
    · exact exec_respTimeout hm hb hp rfl (afterCall_fails rfl (isClear_of_invalid hlast))
    · exact exec_respTimeout hm hb hp rfl (afterCall_fails rfl (isClear_of_invalid hlast))

/-- Settles O32, as O31 at the call sites of READ and WRITE. -/
theorem statusInTransfer : Obligations.StatusInTransfer := by
  refine ⟨fun s u U run flags n hm hi => ?_, fun s u U run last hm hlast hb => ?_⟩
  · intro w result
    refine ⟨fun hp => ⟨fun h0 => ?_, fun h0 => ?_⟩, fun hp => ?_, fun hp => ?_, fun hp => ⟨fun h0 => ?_, fun h0 => ?_⟩,
      fun hp => ⟨fun h0 => ?_, fun h0 => ?_⟩⟩
    · subst h0
      exact exec_r1Status hm hi hp rfl
    · exact exec_r1Status hm hi hp (afterCall_fails rfl (isClear_statusByte_of_ne h0))
    · exact exec_r1Status hm hi hp rfl
    · exact exec_r1Status hm hi hp rfl
    · subst h0
      exact exec_r1Status hm hi hp rfl
    · exact exec_r1Status hm hi hp (afterCall_fails rfl (isClear_statusByte_of_ne h0))
    · subst h0
      exact exec_r1Status hm hi hp rfl
    · exact exec_r1Status hm hi hp (afterCall_fails rfl (isClear_statusByte_of_ne h0))
  · intro w result
    refine ⟨fun arg hp harg => ?_, fun hp => ?_, fun hp => ?_, fun nsec hp hnsec => ?_, fun arg hp harg => ?_⟩
    · exact exec_respTimeout hm hb hp (congrArg (Option.map _) harg) (afterCall_fails rfl (isClear_of_invalid hlast))
    · exact exec_respTimeout hm hb hp rfl rfl
    · exact exec_respTimeout hm hb hp rfl rfl
    · exact exec_respTimeout hm hb hp (congrArg (Option.map _) hnsec) (afterCall_fails rfl (isClear_of_invalid hlast))
    · exact exec_respTimeout hm hb hp (congrArg (Option.map _) harg) (afterCall_fails rfl (isClear_of_invalid hlast))

end Sys2Proof.Machine
end

section
/-! SUPPORT. The bounded waits outside `SendCommand` and the failure path (40_exchanger.md R130, 60_exceptions.md
R302, R308), with the proofs that settle O34 and O35. -/

namespace Sys2Proof.Machine

section
variable {i : Instr} {s : State} {U : UnitState} {run : Running} {site : WaitSite}

/-! ### Steps of the running request -/

theorem exec_request (hi : run.IsOf i) (hr : s.Runs run.req.unit.toNat U run) {a : Action}
    (ha : act s.cfg U.buf (Config.freeSectors s.draws) (U.answer s.draws) run = .ok a) :
    exec i s = .next (s.commit run.req.unit.toNat U (U.answer s.draws) a) := by
  rw [(exec_of_isOf hi hr).2, performRun_of_act ha]

/-- The failure path: `Deselect`, then the response (60_exceptions.md R302). -/
theorem execTimes_desFail {e : OutcomeCode} (hi : run.IsOf i) (hr : s.Runs run.req.unit.toNat U run)
    (hp : run.pos = .desFail e) :
    execTimes i 2 s = .next { s with
      units := s.units.set run.req.unit.toNat { U with agent := .idle }
      resp := ⟨e, .word 0⟩
      trace := s.trace ++ [.des run.req.unit.toNat, .respond (some run.req.unit.toNat) ⟨e, .word 0⟩] } := by
  have hdes := exec_request hi hr (a := actDesFail run e) (by simp only [act, hp])
  have hrespond := exec_request (run := ⟨run.req, .respond e 0, run.work⟩) hi
    (hr.commit (a := actDesFail run e) (b := U.answer s.draws) rfl) rfl
  rw [execTimes_of_exec hdes, execTimes_of_exec hrespond, execTimes]
  simp only [State.commit, List.set_set, List.append_assoc]
  rfl

/-- The end of a wait that timed out: its event, then the failure path (60_exceptions.md R308). -/
theorem execTimes_waitTimeout (hi : run.IsOf i) (hr : s.Runs run.req.unit.toNat U run)
    (hp : run.pos = .waitTimeout site) :
    execTimes i 3 s = .next { s with
      units := s.units.set run.req.unit.toNat { U with agent := .idle }
      resp := ⟨site.failure, .word 0⟩
      trace := s.trace ++ [.timeout run.req.unit.toNat site.phase, .des run.req.unit.toNat,
        .respond (some run.req.unit.toNat) ⟨site.failure, .word 0⟩] } := by
  have htimeout := exec_request hi hr (a := actWaitTimeout run site) (by simp only [act, hp])
  rw [execTimes_of_exec htimeout, execTimes_desFail (run := ⟨run.req, .desFail site.failure, run.work⟩) hi
    (hr.commit (a := actWaitTimeout run site) rfl) rfl]
  simp only [State.commit, List.set_set, List.append_assoc]
  rfl

/-! ### The six waits -/

theorem pollsIn_wait (hi : run.IsOf i) (hr : s.Runs run.req.unit.toNat U run) (hp : run.pos = .wait site) :
    PollsIn i s run.req.unit.toNat U run site.phase site.cond (afterWait site)
      (fun w => .ok (.waitTimeout site, w)) where
  exec_eq := (exec_of_isOf hi hr).2
  act_eq := by simp only [act, hp, actWait]

theorem waits_wait (hi : run.IsOf i) (hr : s.Runs run.req.unit.toNat U run) (hp : run.pos = .wait site) :
    s.Waits i run.req.unit.toNat U run site.phase site.cond (afterWait site) (fun w => .ok (.waitTimeout site, w)) :=
  fun _ b n => pollsIn_wait (run := run.polled b n) hi hr.afterExchanges hp

/-- The place that follows a wait that has succeeded (42_capacity.md R210, 43_transfer.md R234, R244, R247,
R249). -/
def WaitSite.nextPos : WaitSite → Pos
  | .csd => .csd 0
  | .readStart => .readPayload 0
  | .wdata => .wstartToken
  | .wdone => .desSector
  | .wstop => .wstopToken
  | .widle => .desDone

theorem afterWait_of_regsOk (h : site.regsOk run) {w : Work} (hw : w.rem = run.work.rem) :
    ∃ w', afterWait site w = .ok (site.nextPos, w') ∧ w'.b = w.b := by
  cases site with
  | readStart =>
    obtain ⟨rem, -, hrem, -⟩ := h
    exact ⟨_, need_of_eq (hw.trans hrem) _, rfl⟩
  | csd | wdata | wdone | wstop | widle => exact ⟨w, rfl, rfl⟩

end

/-- Settles O34: polls that fail, then the one that does not. -/
theorem waitSucceeds : Obligations.WaitSucceeds := by
  intro i s U run site polls rest b hinv hi hr hp hi0 wanted hin hpolls hb hlt
  have hcond : ∀ x, site.cond x = (x == wanted.1) := by cases site <;> exact fun _ => rfl
  have hphase : site.phase = wanted.2 := by cases site <;> rfl
  have hbound := (Config.bound_pos (State.configOk_iff.1 hinv.config).1 wanted.2).2
  have hok := ((hinv.units _ U hr.1).2 run hr.2).2
  rw [Running.ok, hp] at hok
  obtain ⟨-, hregs, -⟩ := hok
  obtain ⟨w, hnext, hwb⟩ := afterWait_of_regsOk hregs (w := run.work.waited b polls.length) rfl
  rw [← hphase] at hlt hbound ⊢
  have hrun := execTimes_polls_hit hr (waits_wait hi hr hp) hi0 (by simpa using hin)
    (fun x hx => (hcond x).trans (beq_eq_false_iff_ne.2 (hpolls x hx))) ((hcond b).trans (beq_iff_eq.2 hb)) hlt hbound
    hnext
  refine ⟨_, ⟨run.req, site.nextPos, w⟩, hrun, ?_, rfl, rfl, hwb, ?_⟩
  · exact congrArg (s.units.set run.req.unit.toNat)
      (UnitState.afterExchanges_of_inbound (pre := polls ++ [b]) hin (List.length_map _))
  · cases site <;> rfl

/-- Settles O35: as many failed polls as the bound, then the end of a wait that timed out. -/
theorem waitTimesOut : Obligations.WaitTimesOut := by
  intro i s U run site polls rest hinv hi hr hp hi0 wanted outcome hin hpolls hlen u
  have hcond : ∀ x, site.cond x = (x == wanted.1) := by cases site <;> exact fun _ => rfl
  have hphase : site.phase = wanted.2 := by cases site <;> rfl
  have hfailure : site.failure = outcome := by cases site <;> rfl
  obtain ⟨hpos, hbound⟩ := Config.bound_pos (State.configOk_iff.1 hinv.config).1 wanted.2
  rw [← hphase] at hlen hpos hbound ⊢
  rw [← hfailure]
  obtain ⟨w, hfail⟩ := execTimes_polls_expired hr (waits_wait hi hr hp) hi0 hin
    (fun x hx => (hcond x).trans (beq_eq_false_iff_ne.2 (hpolls x hx))) hlen hpos hbound fun _ => rfl
  rw [execTimes_add hfail, execTimes_waitTimeout (run := ⟨run.req, .waitTimeout site, w⟩) hi hr.afterExchanges rfl,
    UnitState.afterExchanges_of_inbound hin (List.length_map _)]
  simp only [State.afterExchanges, List.set_set, List.length_map, List.append_assoc]
  rfl

end Sys2Proof.Machine
end

section
/-! SUPPORT. What a step of a command or of a status leaves unchanged (40_exchanger.md R133, R136), with the proof
that settles O52. -/

namespace Sys2Proof.Machine

/-- The registers that neither `SendCommand` nor what its caller does with the status assigns. -/
structure Work.KeptBy (w w' : Work) : Prop where
  t : w'.t = w.t
  csd : w'.csd = w.csd
  arg : w'.arg = w.arg
  nsec : w'.nsec = w.nsec
  m : w'.m = w.m
  d : w'.d = w.d

theorem returnStatus_keeps {req : Request} {site : CallSite} {w w₀ : Work} {next : Pos × Work}
    (h : returnStatus req site w = .ok next) (hw : w₀.KeptBy w) : w₀.KeptBy next.2 := by
  obtain ⟨i, j, c, rem, p, heq⟩ := returnStatus_work h
  rw [heq]
  exact ⟨hw.t, hw.csd, hw.arg, hw.nsec, hw.m, hw.d⟩

/-- What an action of `SendCommand` is: an exchange or the `TIMEOUT` of one of its two waits, whose counters alone it
raises; the agent goes on, and neither class nor buffer is written. -/
structure Action.OfCall (a : Action) (run : Running) : Prop where
  agent : ∃ next : Pos × Work, a.agent = run.at next ∧ run.work.KeptBy next.2
  prim : (∃ out, a.prim = .exchange out) ∨ a.prim = .timeout .waitCmd ∨ a.prim = .timeout .cmd
  diag : a.diag = none ∨ ∃ k n, (k = .waitCmd ∨ k = .cmd) ∧ a.diag = some (k, n)
  cls : a.cls = none
  store : a.store = none

section
variable {cfg : Config} {run : Running} {b : Byte} {a : Action} {next : Pos × Work}

theorem Action.OfCall.exchange {out : Byte} {o : Option (Phase × Word)} (hw : run.work.KeptBy next.2)
    (ho : o = none ∨ ∃ k n, (k = .waitCmd ∨ k = .cmd) ∧ o = some (k, n)) :
    (run.exchange out next o).OfCall run :=
  ⟨⟨next, rfl, hw⟩, .inl ⟨out, rfl⟩, ho, rfl, rfl⟩

theorem pollStep_ofCall {k : Phase} {cond : Bool} {onHit onExpired : Work → Except Fault (Pos × Work)}
    (h : pollStep cfg run k cond b onHit onExpired = .ok a) (hk : k = .waitCmd ∨ k = .cmd)
    (hhit : ∀ w next, onHit w = .ok next → run.work.KeptBy w → run.work.KeptBy next.2)
    (hexpired : ∀ w next, onExpired w = .ok next → run.work.KeptBy w → run.work.KeptBy next.2) : a.OfCall run := by
  obtain ⟨i, -, ⟨-, next, hn, rfl⟩ | ⟨-, -, rfl⟩ | ⟨-, -, next, hn, rfl⟩⟩ := pollStep_ok h
  · exact .exchange (hhit _ _ hn ⟨rfl, rfl, rfl, rfl, rfl, rfl⟩) (.inr ⟨k, i, hk, rfl⟩)
  · exact .exchange ⟨rfl, rfl, rfl, rfl, rfl, rfl⟩ (.inl rfl)
  · exact .exchange (hexpired _ _ hn ⟨rfl, rfl, rfl, rfl, rfl, rfl⟩) (.inl rfl)

theorem actCall_ofCall {site : CallSite} {x : XPos} (h : actCall cfg run site x b = .ok a) : a.OfCall run := by
  cases x with
  | preWait =>
    rw [actCall] at h
    refine pollStep_ofCall h (.inl rfl) (fun w next hn hw => ?_) (fun w next hn hw => ?_) <;> cases hn <;> exact hw
  | preTimeout =>
    cases h
    exact ⟨⟨_, rfl, rfl, rfl, rfl, rfl, rfl, rfl⟩, .inr (.inl rfl), .inl rfl, rfl, rfl⟩
  | frame k =>
    obtain ⟨arg, -, h⟩ := need_ok h
    cases h
    refine .exchange ?_ (.inl rfl)
    split <;> exact ⟨rfl, rfl, rfl, rfl, rfl, rfl⟩
  | resp =>
    rw [actCall] at h
    refine pollStep_ofCall h (.inr rfl) (fun w next hn hw => returnStatus_keeps hn hw) (fun w next hn hw => ?_)
    split at hn
    · exact returnStatus_keeps hn hw
    · cases hn
      exact hw
  | respTimeout =>
    obtain ⟨next, hn, rfl⟩ := actCall_respTimeout h
    exact ⟨⟨next, rfl, returnStatus_keeps hn ⟨rfl, rfl, rfl, rfl, rfl, rfl⟩⟩, .inr (.inr rfl), .inl rfl, rfl, rfl⟩

end

theorem exec_eq_execCommand {i : Instr} {c : Command} {arg : Word} (h : i.commandOf = some (c, arg)) (s : State) :
    exec i s = execCommand c arg s := by
  cases i <;> cases h <;> rfl

theorem Pos.isResponsePoll_eq_true {p : Pos} (h : p.isResponsePoll = true) : ∃ site, p = .call site .resp := by
  unfold Pos.isResponsePoll at h
  split at h
  · rename_i site
    exact ⟨site, rfl⟩
  · cases h

/-- A step of a command or of R1_STATUS is an action of `SendCommand` of the unit that moves. -/
theorem exec_command_next {i : Instr} {s t : State}
    (hi : i.commandOf.isSome = true ∨ ∃ flags, i = .r1Status flags) (h : exec i s = .next t) :
    ∃ u U run b a, s.Moves u U run ∧ a.OfCall run ∧ t = s.commit u U b a := by
  obtain hi | ⟨flags, rfl⟩ := hi
  · obtain ⟨⟨c, arg⟩, hc⟩ := Option.isSome_iff_exists.1 hi
    rw [exec_eq_execCommand hc] at h
    obtain ⟨u, U, run, hm, hcalls, hperform⟩ := execCommand_next h
    obtain ⟨site, x, hp, -, -⟩ := Running.calls_eq_true.1 hcalls
    obtain ⟨a, ha, rfl⟩ := performRun_eq_next.1 hperform
    exact ⟨u, U, run, _, a, State.mover_eq_some.1 hm, actCall_ofCall ((act_call hp).symm.trans ha), rfl⟩
  · obtain ⟨u, U, run, hm, hfits, hperform⟩ := execAt_next h
    obtain ⟨a, ha, rfl⟩ := performRun_eq_next.1 hperform
    obtain ⟨site, hp⟩ := Pos.isResponsePoll_eq_true hfits
    exact ⟨u, U, run, _, a, State.mover_eq_some.1 hm, actCall_ofCall ((act_call hp).symm.trans ha), rfl⟩

section
variable {a : Action} {run : Running}

theorem Action.OfCall.resp_after (h : a.OfCall run) (resp : Response) : resp.after a.prim = resp := by
  obtain ⟨out, hprim⟩ | hprim | hprim := h.prim <;> rw [hprim] <;> rfl

theorem Action.OfCall.event (h : a.OfCall run) (u : Nat) (b : Byte) :
    (∃ out inn, a.prim.event u b = .x u out inn) ∨ a.prim.event u b = .timeout u .waitCmd ∨
      a.prim.event u b = .timeout u .cmd := by
  obtain ⟨out, hprim⟩ | hprim | hprim := h.prim <;> rw [hprim]
  · exact .inl ⟨out, b, rfl⟩
  · exact .inr (.inl rfl)
  · exact .inr (.inr rfl)

theorem Action.OfCall.get_raiseOpt (h : a.OfCall run) (d : Diag) {k : Phase} (hwait : k ≠ .waitCmd) (hcmd : k ≠ .cmd) :
    (d.raiseOpt a.diag).get k = d.get k := by
  obtain hdiag | ⟨k', n, hk', hdiag⟩ := h.diag
  · rw [hdiag, Diag.raiseOpt_none]
  · rw [hdiag, Diag.raiseOpt_some]
    refine d.get_raise_of_ne n ?_
    rintro rfl
    exact hk'.elim hwait hcmd

theorem Action.OfCall.after_cls (h : a.OfCall run) (U : UnitState) : (U.after a).cls = U.cls := by
  rw [UnitState.after_cls, h.cls, Option.getD_none]

theorem Action.OfCall.after_buf (h : a.OfCall run) (U : UnitState) : (U.after a).buf = U.buf := by
  rw [UnitState.after_buf, h.store, HostBuf.storeOpt_none]

end

/-- Settles O52, by what an action of `SendCommand` is. -/
theorem commandFrame : Obligations.CommandFrame := by
  intro i s t hi h
  obtain ⟨u, U, run, b, a, hm, ha, rfl⟩ := exec_command_next hi h
  obtain ⟨next, hagent, hw⟩ := ha.agent
  exact ⟨u, U, run, U.after a, _, a.prim.event u b, hm, rfl, ha.after_cls U, ha.after_buf U, hagent, rfl, hw.t, hw.csd,
    hw.arg, hw.nsec, hw.m, hw.d, fun k => ha.get_raiseOpt s.diag, rfl, ha.event u b, rfl, rfl, ha.resp_after s.resp, rfl,
    rfl, rfl, rfl⟩

end Sys2Proof.Machine
end


section
/-! SUPPORT. INIT outside `SendCommand`, one primitive at a time (41_init.md R171 to R187), with the proofs that
settle O19, O37, O38 and O40. -/

namespace Sys2Proof.Machine

/-! ### The first primitive -/

/-- The record with which a unit starts an INIT: the class is `UNKNOWN` (41_init.md R187). -/
def UnitState.startInit (V : UnitState) (unit : BitVec 8) : UnitState :=
  { V with cls := .unknown, agent := .running ⟨initRequest unit, .rateSlow, Work.empty⟩ }

/-- INIT of an idle unit is the first primitive of its agent. -/
theorem exec_init_idle {s : State} {unit : BitVec 8} {V : UnitState} (hV : s.units[unit.toNat]? = some V)
    (hi : V.agent = .idle) :
    exec (.init unit) s = .next (s.commit unit.toNat (V.startInit unit) (V.answer s.draws)
      (actRateSlow ⟨initRequest unit, .rateSlow, Work.empty⟩)) := by
  rw [exec, execInit, hostRequest_idle hV hi]
  rfl

/-- Settles O19, by the first primitive of INIT. -/
theorem initStarts : Obligations.InitStarts :=
  fun _ _ _ hV hi => exec_init_idle hV hi

/-! ### The tests of INIT -/

theorem isIdleOnly_iff {r : Byte} : isIdleOnly r = true ↔ r = 0x01 := beq_iff_eq

theorem isEchoPattern_iff {b : Byte} : isEchoPattern b = true ↔ b = 0xAA := beq_iff_eq

theorem isBlockAddressed_iff {t0 : Byte} : isBlockAddressed t0 = true ↔ 0xC0 ≤ t0.toNat := by
  revert t0
  decide

section
variable {cfg : Config} {run : Running} {r b : Byte} {j : Word} {c : CardClass} {n : Nat}

/-! ### The decisions of INIT -/

theorem setIfInBounds_eq_set {α : Type} {m : Nat} (v : Vector α m) (x : α) {k : Nat} (h : k < m) :
    v.setIfInBounds k x = v.set k x := by
  ext i hi
  rw [Vector.getElem_setIfInBounds, Vector.getElem_set]

/-- The status `0x01` ends the reset phase well (41_init.md R173). -/
theorem actDesReset_idle (hr : run.work.r = some r) (h : r = 0x01) :
    actDesReset run = .ok (run.go .deselect (.selProbe, run.work)) := by
  rw [actDesReset, hr, need_some, if_pos (isIdleOnly_iff.2 h)]

/-- After any other status there is no card (41_init.md R174). -/
theorem actDesReset_failed (hr : run.work.r = some r) (h : r ≠ 0x01) :
    actDesReset run = .ok (run.go .deselect (.respond .noCardPresent 0, run.work)) := by
  rw [actDesReset, hr, need_some, if_neg (mt isIdleOnly_iff.1 h), failDeselected]

/-- The first three echo bytes are kept (41_init.md R177). -/
theorem actEcho_of_lt (h : n < 3) :
    actEcho run n b = run.exchange filler (.echo (n + 1), { run.work with t := run.work.t.set n (some b) }) none := by
  rw [actEcho, if_pos (by rw [trailingBytes]; omega), setIfInBounds_eq_set _ _ (by omega)]
  rfl

/-- The echoed pattern makes the card an SD v2 one (41_init.md R177). -/
theorem actEcho_pattern (h : b = 0xAA) :
    actEcho run 3 b =
      run.exchange filler (.desProbe, { run.work with t := run.work.t.set 3 (some b), c := some .sdv2 }) none := by
  rw [actEcho, if_neg (by decide), setIfInBounds_eq_set _ _ (by decide), if_pos (isEchoPattern_iff.2 h)]
  rfl

/-- Another fourth echo byte fails (41_init.md R177). -/
theorem actEcho_other (h : b ≠ 0xAA) :
    actEcho run 3 b =
      run.exchange filler (.desFail .unsupportedCard, { run.work with t := run.work.t.set 3 (some b) }) none := by
  rw [actEcho, if_neg (by decide), setIfInBounds_eq_set _ _ (by decide), if_neg (mt isEchoPattern_iff.1 h)]
  rfl

/-- The four OCR bytes are kept (41_init.md R182). -/
theorem actOcr_of_lt (h : n < 4) :
    actOcr run n b = run.exchange filler
      (if n < 3 then .ocr (n + 1) else .desOcr, { run.work with t := run.work.t.set n (some b) }) none := by
  have hlast : (n + 1 < trailingBytes) = (n < 3) := by rw [trailingBytes]; exact propext (by omega)
  rw [actOcr, setIfInBounds_eq_set _ _ h]
  simp only [hlast]
  split <;> rfl

/-- Bit 0 of the ACMD41 status is clear: the card is ready (41_init.md R180, R184). -/
theorem actDesNeg_ready (hr : run.work.r = some r) (hj : run.work.j = some j) (hc : run.work.c = some c)
    (h : r.getLsbD 0 = false) :
    actDesNeg cfg run = .ok ⟨.deselect, run.at (afterNegotiation c, run.work), some (.sendOp, j), none, none⟩ := by
  have hready : (!statusIdle r) = true := by rw [statusIdle, h]; rfl
  rw [actDesNeg, hr, hj, hc, need_some, need_some, need_some, if_pos hready]

/-- It is set: another iteration, or `TIMEOUT SEND_OP` after the last (41_init.md R180). -/
theorem actDesNeg_idle (hr : run.work.r = some r) (hj : run.work.j = some j) (hc : run.work.c = some c)
    (h : r.getLsbD 0 = true) :
    actDesNeg cfg run = .ok (run.go .deselect
      (if j.toNat + 1 < cfg.bSendOp then (.selNeg, { run.work with j := some (j + 1) })
        else (.negTimeout, run.work))) := by
  have hidle : ¬ (!statusIdle r) = true := by rw [statusIdle, h]; decide
  rw [actDesNeg, hr, hj, hc, need_some, need_some, need_some, if_neg hidle]
  split <;> rfl

/-- The OCR tells the addressing mode (41_init.md R183). -/
theorem actDesOcr_eq {t0 : Byte} (ht : run.work.t[0] = some t0) :
    actDesOcr run = .ok (run.go .deselect
      (.rateFast, if 0xC0 ≤ t0.toNat then { run.work with c := some .sdv2Block } else run.work)) := by
  rw [actDesOcr, ht, need_some]
  simp only [isBlockAddressed_iff]

/-! ### The steps of INIT -/

/-- The action at a position known by an equation. -/
theorem act_at {buf : HostBuf} {free : Word} {p : Pos} (hp : run.pos = p) :
    act cfg buf free b run = act cfg buf free b { run with pos := p } := by
  subst hp
  rfl

end

/-- Settles O38, by the decisions above, each the action of a step. -/
theorem initDecisions : Obligations.InitDecisions := by
  intro s U run hi hr u w does receives
  have step (a : Action) {p : Pos} (hp : run.pos = p)
      (ha : act s.cfg U.buf (Config.freeSectors s.draws) (U.answer s.draws) { run with pos := p } = .ok a) :
      exec (.init run.req.unit) s = .next (s.commit u U (U.answer s.draws) a) :=
    exec_request hi hr ((act_at hp).trans ha)
  refine ⟨fun hp => ?_, fun hp => ?_, fun hp => ?_, fun hp => ?_, fun hp => ?_, fun n hn hp => ?_, fun n hn hp => ?_,
    fun r hp hwr => ⟨fun h => ?_, fun h => ?_⟩, fun hp => ⟨fun h => ?_, fun h => ?_⟩, fun hp => ?_,
    fun r j c hp hwr hj hc => ⟨fun h h2 => ?_, fun h h2 => ?_, fun h hlt => ?_, fun h hle => ?_⟩, fun hp => ?_,
    fun t0 hp ht => ⟨fun h => ?_, fun h => ?_⟩, fun hp => ?_⟩
  · exact step (actSelReset run) hp rfl
  · exact step (actSelProbe run) hp rfl
  · exact step (actSelNeg run) hp rfl
  · exact step (actSelOcr run) hp rfl
  · exact step (actSelCap run) hp rfl
  · exact step _ hp (congrArg _ (actEcho_of_lt hn))
  · exact step _ hp (congrArg _ (actOcr_of_lt hn))
  · exact step _ hp (actDesReset_idle hwr h)
  · exact step _ hp (actDesReset_failed hwr h)
  · exact step _ hp (congrArg _ (actEcho_pattern h))
  · exact step _ hp (congrArg _ (actEcho_other h))
  · exact step (actDesProbe run) hp rfl
  · subst h2
    exact step _ hp (actDesNeg_ready hwr hj hc h)
  · have hx := step _ hp (actDesNeg_ready hwr hj hc h)
    rw [afterNegotiation, if_neg h2] at hx
    exact hx
  · have hx := step _ hp (actDesNeg_idle hwr hj hc h)
    rw [if_pos hlt] at hx
    exact hx
  · have hx := step _ hp (actDesNeg_idle hwr hj hc h)
    rw [if_neg (Nat.not_lt.2 hle)] at hx
    exact hx
  · exact step (actNegTimeout run) hp rfl
  · have hx := step _ hp (actDesOcr_eq ht)
    rw [if_pos h] at hx
    exact hx
  · have hx := step _ hp (actDesOcr_eq ht)
    rw [if_neg (Nat.not_le.2 h)] at hx
    exact hx
  · exact step (actRateFast s.cfg run) hp rfl

/-! ### Exchanges in a row of one request -/

section
variable {i : Instr} {s : State} {U : UnitState} {req : Request} {n : Nat}

/-- `n` exchanges in a row of the running request: the agent stands at `place k` after `k` of them, and sends `out k`
next (10_state.md R36, R48). -/
theorem execTimes_exchanges {place : Nat → Pos × Work} {out : Nat → Byte}
    (hi : Running.IsOf ⟨req, (place 0).1, (place 0).2⟩ i)
    (hr : s.Runs req.unit.toNat U ⟨req, (place 0).1, (place 0).2⟩)
    (h : ∀ k < n, ∀ free, act s.cfg U.buf free (U.answerAt s.draws k) ⟨req, (place k).1, (place k).2⟩ =
      .ok (Running.exchange ⟨req, (place k).1, (place k).2⟩ (out k) (place (k + 1)) none)) :
    execTimes i n s = .next (s.afterExchanges req.unit.toNat U
      ((List.range n).map fun k => .x req.unit.toNat (out k) (U.answerAt s.draws k))
      ⟨req, (place n).1, (place n).2⟩ s.diag) := by
  induction n with
  | zero => exact congrArg Host.Outcome.next (State.afterExchanges_nil hr).symm
  | succ n ih =>
    have hx := exec_request (run := ⟨req, (place n).1, (place n).2⟩) hi (hr.afterExchanges
      (es := (List.range n).map fun k => .x req.unit.toNat (out k) (U.answerAt s.draws k)) (d := s.diag)) (by
        rw [answer_afterExchanges, List.length_map, List.length_range]
        exact h n n.lt_succ_self _)
    rw [State.commit_exchange_afterExchanges, answer_afterExchanges, List.length_map, List.length_range] at hx
    rw [List.range_succ, List.map_append]
    exact execTimes_succ_of (ih fun k hk => h k (hk.trans n.lt_succ_self)) hx

end

/-- The agent after `n` power-up fillers (41_init.md R172). -/
def powerUpPlace (w : Work) (n : Nat) : Pos × Work := (if n < 10 then .powerFiller n else .selReset, w)

theorem act_powerUpPlace {req : Request} {w : Work} {n : Nat} (h : n < 10) (cfg : Config) (buf : HostBuf) (free : Word)
    (b : Byte) :
    act cfg buf free b ⟨req, (powerUpPlace w n).1, (powerUpPlace w n).2⟩ = .ok
      (Running.exchange ⟨req, (powerUpPlace w n).1, (powerUpPlace w n).2⟩ filler (powerUpPlace w (n + 1)) none) := by
  simp only [powerUpPlace, if_pos h, act, actPowerFiller, resetFiller]
  split <;> rfl

/-- Settles O37: `Deselect`, then ten exchanges in a row. -/
theorem powerUpClocks : Obligations.PowerUpClocks := by
  intro s U run hi hr hp u
  have hdes := exec_request hi hr (a := actDesPower run) (act_at hp)
  have hfill := execTimes_exchanges (i := .init run.req.unit) (n := 10) (place := powerUpPlace run.work)
    (out := fun _ => filler) hi (hr.commit (a := actDesPower run) (b := U.answer s.draws) rfl)
    (fun k hk _ => act_powerUpPlace hk ..)
  rw [execTimes_of_exec hdes, hfill]
  simp only [State.afterExchanges, UnitState.afterExchanges, List.length_map, List.length_range, State.commit_units,
    List.set_set]
  rfl

/-! ### The end of INIT -/

/-- `Deselect`, then the response; the first of them may write the class (41_init.md R186, 60_exceptions.md R302). -/
theorem execTimes_deselect_respond {i : Instr} {s : State} {U : UnitState} {run : Running} {status : OutcomeCode}
    {value : Word} {cls : Option CardClass} (hi : run.IsOf i) (hr : s.Runs run.req.unit.toNat U run)
    (ha : act s.cfg U.buf (Config.freeSectors s.draws) (U.answer s.draws) run =
      .ok ⟨.deselect, run.at (.respond status value, run.work), none, cls, none⟩) :
    execTimes i 2 s = .next { s with
      units := s.units.set run.req.unit.toNat { U with cls := cls.getD U.cls, agent := .idle }
      resp := ⟨status, .word value⟩
      trace := s.trace ++ [.des run.req.unit.toNat,
        .respond (some run.req.unit.toNat) ⟨status, .word value⟩] } := by
  have hrespond := exec_request (run := ⟨run.req, .respond status value, run.work⟩) (a := actRespond status value) hi
    (hr.commit (b := U.answer s.draws)
      (a := ⟨.deselect, run.at (.respond status value, run.work), none, cls, none⟩) rfl) rfl
  rw [execTimes_of_exec (exec_request hi hr ha), execTimes_of_exec hrespond, execTimes]
  simp only [State.commit, List.set_set, List.append_assoc]
  rfl

/-- Settles O40: the decoded count decides what the last `Deselect` commits and which response follows it. -/
theorem initCommit : Obligations.InitCommit := by
  intro s U run csd c hi hr hp hcsd hc u n
  have hact : act s.cfg U.buf (Config.freeSectors s.draws) (U.answer s.draws) run =
      if n = 0 then .ok (run.go .deselect (.respond .capacityQueryFailed 0, run.work))
      else .ok ⟨.deselect, run.at (.respond .ok n, run.work), none, some c, none⟩ := by
    simp only [act, hp, actDesCap, allCsd_of hcsd, hc, need_some]
    rfl
  refine ⟨fun h0 => ?_, fun h0 => ?_⟩
  · rw [if_pos h0] at hact
    exact execTimes_deselect_respond hi hr hact
  · rw [if_neg h0] at hact
    exact execTimes_deselect_respond hi hr hact

end Sys2Proof.Machine
end

section
/-! SUPPORT. INIT reads of a unit its agent and its inbound bytes, and once it runs the class it writes: two units
that agree on these do the same (41_init.md R188). With the proof that settles O43. -/

namespace Sys2Proof.Machine

/-! ### The step of INIT -/

/-- The record with which the next step of INIT runs: the unit's own, or that of a start. -/
def UnitState.inInit (U : UnitState) (unit : BitVec 8) : UnitState :=
  match U.agent with
  | .idle => U.startInit unit
  | .running _ => U

theorem UnitState.inInit_inbound (U : UnitState) (unit : BitVec 8) : (U.inInit unit).inbound = U.inbound := by
  unfold UnitState.inInit
  split <;> rfl

/-- Every step of INIT of a unit is the next primitive of its agent, which runs that INIT. -/
theorem exec_init_next {s t : State} {unit : BitVec 8} {U : UnitState} (hU : s.units[unit.toNat]? = some U)
    (h : exec (.init unit) s = .next t) :
    ∃ run a, (U.inInit unit).agent = .running run ∧ run.req = initRequest unit ∧
      act s.cfg (U.inInit unit).buf (Config.freeSectors s.draws) (U.answer s.draws) run = .ok a ∧
      t = s.commit unit.toNat (U.inInit unit) (U.answer s.draws) a := by
  cases hag : U.agent with
  | idle =>
    rw [exec_init_idle hU hag] at h
    cases h
    simp only [UnitState.inInit, hag]
    exact ⟨_, _, rfl, rfl, rfl, rfl⟩
  | running run =>
    obtain ⟨-, hnone, -⟩ | ⟨V, run', hV, hr, hreq, hp⟩ | ⟨-, V, hV, hidle, -⟩ := hostRequest_next h
    · cases hU.symm.trans hnone
    · cases hU.symm.trans hV
      obtain ⟨a, ha, rfl⟩ := performRun_eq_next.1 hp
      simp only [UnitState.inInit, hr]
      exact ⟨_, a, rfl, hreq, ha, rfl⟩
    · cases hU.symm.trans hV
      cases hag.symm.trans hidle

theorem UnitState.inInit_ok {cfg : Config} {U : UnitState} {unit : BitVec 8} (h : U.ok cfg unit.toNat) :
    (U.inInit unit).ok cfg unit.toNat := by
  unfold UnitState.inInit
  split
  · exact ⟨h.1, fun run hr => by cases hr; exact ⟨rfl, rfl, rfl⟩⟩
  · exact h

/-- At a legal position of INIT no buffer is read (41_init.md R170). -/
theorem act_of_init {cfg : Config} {U : UnitState} {unit : BitVec 8} {run : Running} (hok : run.ok cfg U)
    (hreq : run.req = initRequest unit) (buf buf' : HostBuf) (free : Word) (b : Byte) :
    act cfg buf free b run = act cfg buf' free b run := by
  obtain ⟨req, pos, w⟩ := run
  cases hreq
  cases pos with
  | readPayload k => exact absurd hok.1.1 (by decide : opInit ≠ opRead)
  | writePayload k => exact absurd hok.1.1 (by decide : opInit ≠ opWrite)
  | _ => rfl

/-! ### Units that agree -/

/-- The records agree on what the next step of INIT reads: the agent and the inbound bytes, and the class of a unit
that is running. -/
structure UnitState.InitAgrees (U U' : UnitState) : Prop where
  agent : U.agent = U'.agent
  inbound : U.inbound = U'.inbound
  cls : U.agent = .idle ∨ U.cls = U'.cls

theorem UnitState.InitAgrees.inInit_eq {U U' : UnitState} (h : U.InitAgrees U') (unit : BitVec 8) :
    ∃ buf, U'.inInit unit = { U.inInit unit with buf := buf } := by
  obtain ⟨cls, agent, buf, inbound⟩ := U
  obtain ⟨cls', agent', buf', inbound'⟩ := U'
  obtain ⟨rfl, rfl, hcls⟩ := h
  cases agent with
  | idle => exact ⟨buf', rfl⟩
  | running run =>
    obtain h | rfl := hcls
    · cases h
    · exact ⟨buf', rfl⟩

/-- Two states that agree on what INIT of the unit reads. -/
structure State.InitAgrees (s s' : State) (unit : BitVec 8) (U U' : UnitState) : Prop where
  cfg : s.cfg = s'.cfg
  draws : s.draws = s'.draws
  record : s.units[unit.toNat]? = some U
  record' : s'.units[unit.toNat]? = some U'
  agrees : U.InitAgrees U'

/-- A step of INIT in two states that agree emits one event and leaves them agreeing, on the class too. -/
theorem State.InitAgrees.step {s s' t t' : State} {unit : BitVec 8} {U U' : UnitState} (h : s.InitAgrees s' unit U U')
    (hinv : s.Inv) (hx : exec (.init unit) s = .next t) (hx' : exec (.init unit) s' = .next t') :
    ∃ e T T', t.trace = s.trace ++ [e] ∧ t'.trace = s'.trace ++ [e] ∧ t.Inv ∧ t.InitAgrees t' unit T T' ∧
      T.cls = T'.cls := by
  obtain ⟨run, a, hrun, hreq, ha, rfl⟩ := exec_init_next h.record hx
  obtain ⟨run', a', hrun', -, ha', rfl⟩ := exec_init_next h.record' hx'
  obtain ⟨buf, hrec⟩ := h.agrees.inInit_eq unit
  have hok := UnitState.inInit_ok (hinv.units _ U h.record)
  have hanswer : U'.answer s'.draws = U.answer s.draws := by
    rw [← h.draws, UnitState.answer, ← h.agrees.inbound]
    rfl
  obtain rfl : run = run' := Agent.running.inj (hrun.symm.trans (by rw [← hrun', hrec]))
  obtain rfl : a = a' := by
    rw [hanswer, ← h.cfg, ← h.draws, act_of_init (hok.2 run hrun).2 hreq _ (U.inInit unit).buf] at ha'
    exact Except.ok.inj (ha.symm.trans ha')
  have hlt := (List.getElem?_eq_some_iff.1 h.record).1
  have hlt' := (List.getElem?_eq_some_iff.1 h.record').1
  rw [hanswer, hrec]
  refine ⟨_, _, _, rfl, rfl, hinv.commit hok hrun ha, ⟨h.cfg, ?_, List.getElem?_set_self hlt,
    List.getElem?_set_self hlt', rfl, rfl, .inr rfl⟩, rfl⟩
  simp only [State.commit_draws, h.draws]

theorem execTimes_succ_next {i : Instr} {n : Nat} {s t : State} (h : execTimes i (n + 1) s = .next t) :
    ∃ s₁, exec i s = .next s₁ ∧ execTimes i n s₁ = .next t := by
  rw [execTimes] at h
  split at h
  · rename_i s₁ hx
    exact ⟨s₁, hx, h⟩
  · cases h
  · cases h

/-- Any number of steps of INIT in two states that agree, on the class too. -/
theorem State.InitAgrees.steps {n : Nat} {s s' t t' : State} {unit : BitVec 8} {U U' : UnitState}
    (h : s.InitAgrees s' unit U U') (hcls : U.cls = U'.cls) (hinv : s.Inv)
    (hx : execTimes (.init unit) n s = .next t) (hx' : execTimes (.init unit) n s' = .next t') :
    ∃ evs T T', t.trace = s.trace ++ evs ∧ t'.trace = s'.trace ++ evs ∧ t.InitAgrees t' unit T T' ∧
      T.cls = T'.cls := by
  induction n generalizing s s' U U' with
  | zero =>
    cases hx
    cases hx'
    exact ⟨[], U, U', (List.append_nil _).symm, (List.append_nil _).symm, h, hcls⟩
  | succ n ih =>
    obtain ⟨s₁, hs, hx⟩ := execTimes_succ_next hx
    obtain ⟨s₁', hs', hx'⟩ := execTimes_succ_next hx'
    obtain ⟨e, V, V', htr, htr', hinv₁, h₁, hcls₁⟩ := h.step hinv hs hs'
    obtain ⟨evs, T, T', ht, ht', hT⟩ := ih h₁ hcls₁ hinv₁ hx hx'
    exact ⟨e :: evs, T, T', by rw [ht, htr, List.append_assoc, List.singleton_append],
      by rw [ht', htr', List.append_assoc, List.singleton_append], hT⟩

/-- Settles O43: the first step makes the classes equal, and the steps after it keep the agreement. -/
theorem initIsAFunctionOfTheBytes : Obligations.InitIsAFunctionOfTheBytes := by
  intro n s s' t t' unit V V' hinv _ hcfg hdraws hV hV' hi hi' hin hx hx'
  obtain ⟨s₁, hs, hx⟩ := execTimes_succ_next hx
  obtain ⟨s₁', hs', hx'⟩ := execTimes_succ_next hx'
  have hstart : s.InitAgrees s' unit V V' := ⟨hcfg, hdraws, hV, hV', hi.trans hi'.symm, hin, .inl hi⟩
  obtain ⟨e, V₁, V₁', htr, htr', hinv₁, h₁, hcls₁⟩ := hstart.step hinv hs hs'
  obtain ⟨evs, T, T', ht, ht', hT, hcls⟩ := h₁.steps hcls₁ hinv₁ hx hx'
  exact ⟨[e] ++ evs, T, T', by rw [ht, htr, List.append_assoc], by rw [ht', htr', List.append_assoc], hT.record,
    hT.record', hcls, hT.agrees.agent, hT.agrees.inbound⟩

end Sys2Proof.Machine
end

section
/-! SUPPORT. A whole INIT as a chain of its pieces, from place to place: exchanges in a row, single primitives,
commands answered at once (41_init.md R170). With the proof that settles O42. -/

namespace Sys2Proof.Machine

/-! ### Layout A -/

theorem csdField_toNat (b : Byte) (lo len : Nat) (h : len ≤ 32) :
    (csdField b lo len).toNat = b.toNat / 2 ^ lo % 2 ^ len := by
  have hlt : b.toNat / 2 ^ lo % 2 ^ len < 2 ^ 32 :=
    (Nat.mod_lt _ (Nat.two_pow_pos _)).trans_le (Nat.pow_le_pow_right (by decide) h)
  rw [csdField, BitVec.toNat_setWidth, BitVec.extractLsb'_toNat, Nat.shiftRight_eq_div_pow, Nat.mod_eq_of_lt hlt]

/-- The count of a layout A CSD (42_capacity.md R213, R216). -/
theorem decodeCsd_layoutA {csd : Csd} (h : csd[0].toNat / 64 = 1) (free : Word) :
    (decodeCsd csd free).toNat = (csd[9].toNat + csd[8].toNat * 256 + 1) * 512 := by
  have hv : csd[0].extractLsb' 6 2 = 0b01#2 := by
    refine BitVec.eq_of_toNat_eq ?_
    rw [BitVec.extractLsb'_toNat, Nat.shiftRight_eq_div_pow]
    exact congrArg (· % 4) h
  have h8 := csd[8].isLt
  have h9 := csd[9].isLt
  simp only [decodeCsd, if_pos hv, layoutA, BitVec.toNat_ushiftRight, BitVec.toNat_shiftLeft, BitVec.toNat_add,
    csdField_toNat _ _ _ (by decide : 8 ≤ 32), Nat.shiftLeft_eq, Nat.shiftRight_eq_div_pow, pow_zero, Nat.div_one,
    (by decide : (1 : Word).toNat = 1)]
  omega

/-! ### From place to place -/

/-- The agent of unit `unit` runs INIT at the place `p`, and its transport returns `inb` next. -/
def State.InitAt (s : State) (cfg : Config) (unit : BitVec 8) (p : Pos × Work) (inb : List Byte) : Prop :=
  s.cfg = cfg ∧ ∃ U, s.Runs unit.toNat U ⟨initRequest unit, p.1, p.2⟩ ∧ U.inbound = inb

/-- From the place `p` with `inb` to come, `n` steps of INIT, `x` of them exchanges, lead to the place `q` with `inb'`
to come. -/
def InitLeads (cfg : Config) (unit : BitVec 8) (p : Pos × Work) (inb : List Byte) (n x : Nat) (q : Pos × Work)
    (inb' : List Byte) : Prop :=
  ∀ s : State, s.InitAt cfg unit p inb →
    ∃ t evs, execTimes (.init unit) n s = .next t ∧ t.InitAt cfg unit q inb' ∧ t.trace = s.trace ++ evs ∧
      evs.countP (Event.isExchangeOf unit.toNat) = x

section
variable {cfg : Config} {unit : BitVec 8} {p q r : Pos × Work} {inb inb' inb'' : List Byte} {n m x y : Nat}
  {w : Work} {b : Byte} {o : Option (Phase × Word)}

theorem InitLeads.trans (h : InitLeads cfg unit p inb n x q inb') (h' : InitLeads cfg unit q inb' m y r inb'') :
    InitLeads cfg unit p inb (n + m) (x + y) r inb'' := by
  intro s hs
  obtain ⟨t, evs, hx, ht, htrace, hcount⟩ := h s hs
  obtain ⟨t', evs', hx', ht', htrace', hcount'⟩ := h' t ht
  exact ⟨t', evs ++ evs', (execTimes_add hx m).trans hx', ht', by rw [htrace', htrace, List.append_assoc],
    by rw [List.countP_append, hcount, hcount']⟩

theorem InitLeads.refl : InitLeads cfg unit p inb 0 0 p inb :=
  fun s hs => ⟨s, [], rfl, hs, (List.append_nil _).symm, rfl⟩

/-- One exchange. -/
theorem InitLeads.exchange {out : Byte} (h : ∀ buf free, act cfg buf free b ⟨initRequest unit, p.1, p.2⟩ =
      .ok (Running.exchange ⟨initRequest unit, p.1, p.2⟩ out q o)) :
    InitLeads cfg unit p (b :: inb) 1 1 q inb := by
  rintro s ⟨rfl, U, hr, hin⟩
  have hb : U.answer s.draws = b := by rw [UnitState.answer, hin]
  have hx := exec_request (i := .init unit) (run := ⟨initRequest unit, p.1, p.2⟩) rfl hr (by rw [hb]; exact h ..)
  rw [State.commit_exchange] at hx
  refine ⟨_, _, (execTimes_of_exec hx 0).trans rfl, ⟨rfl, _, hr.afterExchanges, ?_⟩, rfl, ?_⟩
  · rw [UnitState.afterExchanges, hin]
    rfl
  · simp [Event.isExchangeOf, initRequest]

/-- One primitive that is no exchange. -/
theorem InitLeads.noExchange {prim : Prim} (hp : prim.isExchange = false)
    (h : ∀ buf free b, act cfg buf free b ⟨initRequest unit, p.1, p.2⟩ =
      .ok ⟨prim, Running.at ⟨initRequest unit, p.1, p.2⟩ q, o, none, none⟩) :
    InitLeads cfg unit p inb 1 0 q inb := by
  rintro s ⟨rfl, U, hr, hin⟩
  have hx := exec_request (i := .init unit) (run := ⟨initRequest unit, p.1, p.2⟩) rfl hr (h ..)
  refine ⟨_, _, (execTimes_of_exec hx 0).trans rfl, ⟨rfl, _, hr.commit rfl, ?_⟩, rfl, ?_⟩
  · rw [UnitState.after_inbound, hp, ← hin]
    rfl
  · cases prim with
    | exchange out => cases hp
    | _ => rfl

/-- As many exchanges in a row as `bytes` come; the agent stands at `place k` after `k` of them. -/
theorem InitLeads.exchanges {bytes : List Byte} {place : Nat → Pos × Work} (hn : bytes.length = n)
    (h : ∀ k (hk : k < bytes.length), ∃ out, ∀ buf free,
      act cfg buf free bytes[k] ⟨initRequest unit, (place k).1, (place k).2⟩ =
        .ok (Running.exchange ⟨initRequest unit, (place k).1, (place k).2⟩ out (place (k + 1)) none)) :
    InitLeads cfg unit (place 0) (bytes ++ inb) n n (place n) inb := by
  subst hn
  induction bytes generalizing place with
  | nil => exact .refl
  | cons b bytes ih =>
    obtain ⟨out, h0⟩ := h 0 (Nat.succ_pos _)
    have hrest := ih (place := fun k => place (k + 1)) fun k hk => h (k + 1) (Nat.succ_lt_succ hk)
    have hall := (InitLeads.exchange h0).trans hrest
    rwa [Nat.add_comm] at hall

/-! ### Commands answered at once -/

/-- The agent after `n` bytes of the frame (40_exchanger.md R132). -/
def framePlace (site : CallSite) (w : Work) (n : Nat) : Pos × Work :=
  if n < 6 then (.call site (.frame n), w) else (.call site .resp, { w with i := some 0 })

theorem act_framePlace {req : Request} {site : CallSite} {arg : Word} {k : Nat} (ha : site.argument w = some arg)
    (hk : k < 6) (buf : HostBuf) (free : Word) :
    act cfg buf free b ⟨req, (framePlace site w k).1, (framePlace site w k).2⟩ = .ok
      (Running.exchange ⟨req, (framePlace site w k).1, (framePlace site w k).2⟩
        ((frame cfg.commands site.command arg).getD k filler) (framePlace site w (k + 1)) none) := by
  simp only [framePlace, if_pos hk, act, actCall, ha, need_some, Nat.succ_lt_succ_iff]
  rfl

/-- The frame and a valid status at the first poll (40_exchanger.md R132, R134). -/
theorem initLeads_frame {site : CallSite} {arg : Word} {f : List Byte} {s : Byte} (ha : site.argument w = some arg)
    (hf : f.length = 6) (hs : s.toNat < 0x80)
    (hq : afterCall (initRequest unit) site s (Work.withStatus { w with i := some 0 } s true) = .ok q) :
    InitLeads cfg unit (.call site (.frame 0), w) (f ++ s :: inb) 7 7 q inb :=
  (InitLeads.exchanges (place := framePlace site w) hf
    fun _ hk => ⟨_, act_framePlace ha (hf ▸ hk)⟩).trans <|
  .exchange (o := some (.cmd, 0)) (out := filler) fun _ _ => by
    simp only [framePlace, if_neg (Nat.lt_irrefl 6), act, actCall, isStatus_iff.2 hs]
    exact pollStep_hit rfl hq

/-- A command whose pre-command wait and response poll succeed at once (40_exchanger.md R133). -/
theorem initLeads_command {site : CallSite} {arg : Word} {f : List Byte} {s : Byte}
    (ha : site.argument w = some arg) (hf : f.length = 6) (hs : s.toNat < 0x80)
    (hq : afterCall (initRequest unit) site s (Work.withStatus (w.waited 0xFF 0) s true) = .ok q) :
    InitLeads cfg unit (.call site .preWait, { w with i := some 0 }) (0xFF :: (f ++ s :: inb)) 8 8 q inb := by
  have hwait : InitLeads cfg unit (.call site .preWait, { w with i := some 0 }) (0xFF :: (f ++ s :: inb)) 1 1
      (.call site (.frame 0), w.waited 0xFF 0) (f ++ s :: inb) :=
    .exchange (out := filler) (o := some (.waitCmd, 0)) fun _ _ => by
      rw [act_call rfl, actCall]
      exact pollStep_hit rfl rfl
  exact hwait.trans (initLeads_frame (by cases site <;> exact ha) hf hs hq)

/-! ### The phases of INIT -/

/-- Power-up, and a first CMD0 answered `0x01` (41_init.md R172, R173). -/
theorem initLeads_reset {fill f : List Byte} (hfill : fill.length = 10) (hf : f.length = 6) (w : Work) :
    ∃ w', InitLeads cfg unit (.desPower, w) (fill ++ (f ++ 0x01 :: inb)) 20 17 (.selProbe, w') inb := by
  have hpower : InitLeads cfg unit (.desPower, w) (fill ++ (f ++ 0x01 :: inb)) 11 10 (.selReset, w)
      (f ++ 0x01 :: inb) :=
    (InitLeads.noExchange rfl fun _ _ _ => rfl).trans
      (.exchanges (place := powerUpPlace w) hfill fun _ hk => ⟨_, fun buf free => act_powerUpPlace (hfill ▸ hk) ..⟩)
  have hsel : InitLeads cfg unit (.selReset, w) (f ++ 0x01 :: inb) 1 0 (enterCall .reset { w with j := some 0 })
      (f ++ 0x01 :: inb) := .noExchange rfl fun _ _ _ => rfl
  exact ⟨_, ((hpower.trans hsel).trans
    (initLeads_frame rfl hf (by decide) (afterCall_reset_done rfl (.inl rfl)))).trans
      (.noExchange rfl fun _ _ _ => actDesReset_idle rfl rfl)⟩

/-- The version probe of an SD v2 card (41_init.md R175, R177). -/
theorem initLeads_probe {f : List Byte} {s t0 t1 t2 : Byte} (hf : f.length = 6) (hs : s.toNat < 0x80)
    (h2 : s.getLsbD 2 = false) (w : Work) :
    ∃ w', w'.c = some .sdv2 ∧ InitLeads cfg unit (.selProbe, w) (0xFF :: (f ++ s :: t0 :: t1 :: t2 :: 0xAA :: inb))
      13 12 (.desProbe, w') inb := by
  refine ⟨_, ?_, (InitLeads.noExchange rfl fun _ _ _ => rfl).trans <|
    (initLeads_command rfl hf hs (afterCall_probe_legal h2)).trans <| (InitLeads.exchange fun _ _ => rfl).trans <|
    (InitLeads.exchange fun _ _ => rfl).trans <| (InitLeads.exchange fun _ _ => rfl).trans <|
    .exchange fun _ _ => congrArg _ (actEcho_pattern rfl)⟩
  rfl

theorem argument_negCond {c : CardClass} (h : w.c = some c) :
    CallSite.argument .negCond w = some (hcsArgument (c == .sdv2)) := by
  rw [CallSite.argument, h, Option.map_some]

/-- A negotiation whose first iteration finds the card ready (41_init.md R178 to R180, R184). -/
theorem initLeads_negotiation {f f' : List Byte} {s s' : Byte} (hf : f.length = 6) (hs : s.toNat < 0x80)
    (hf' : f'.length = 6) (hs' : s'.toNat < 0x80) (h0 : s'.getLsbD 0 = false) (hc : w.c = some .sdv2) :
    ∃ w', w'.c = some .sdv2 ∧ InitLeads cfg unit (.desProbe, w) (0xFF :: (f ++ s :: 0xFF :: (f' ++ s' :: inb)))
      19 16 (.selOcr, w') inb := by
  have hprefix : InitLeads cfg unit (.desProbe, w) (0xFF :: (f ++ s :: 0xFF :: (f' ++ s' :: inb))) _ _
      (.call .negCond .preWait, _) (0xFF :: (f' ++ s' :: inb)) :=
    (InitLeads.noExchange rfl fun _ _ _ => rfl).trans <| (InitLeads.noExchange rfl fun _ _ _ => rfl).trans <|
    initLeads_command (site := .negPrefix) rfl hf hs rfl
  refine ⟨_, ?_, hprefix.trans <|
    (initLeads_command (site := .negCond) (argument_negCond (c := .sdv2) ?_) hf' hs' rfl).trans <|
    .noExchange rfl fun _ _ _ => actDesNeg_ready (c := .sdv2) rfl rfl ?_ h0⟩
  all_goals exact hc

/-- The registers `t` with the four trailing bytes kept (41_init.md R182). -/
def keepOcr (t : Vector (Option Byte) 4) (o0 o1 o2 o3 : Byte) : Vector (Option Byte) 4 :=
  (((t.set 0 (some o0)).set 1 (some o1)).set 2 (some o2)).set 3 (some o3)

theorem keepOcr_zero (t : Vector (Option Byte) 4) (o0 o1 o2 o3 : Byte) : (keepOcr t o0 o1 o2 o3)[0] = some o0 := by
  simp [keepOcr]

/-- The trailing bytes of the OCR (41_init.md R182). -/
theorem initLeads_ocrBytes (w : Work) (o0 o1 o2 o3 : Byte) :
    InitLeads cfg unit (.ocr 0, w) (o0 :: o1 :: o2 :: o3 :: inb) 4 4
      (.desOcr, { w with t := keepOcr w.t o0 o1 o2 o3 }) inb :=
  (InitLeads.exchange fun _ _ => congrArg _ (actOcr_of_lt (n := 0) (by decide))).trans <|
  (InitLeads.exchange fun _ _ => congrArg _ (actOcr_of_lt (n := 1) (by decide))).trans <|
  (InitLeads.exchange fun _ _ => congrArg _ (actOcr_of_lt (n := 2) (by decide))).trans <|
  .exchange fun _ _ => congrArg _ (actOcr_of_lt (n := 3) (by decide))

/-- The OCR of a block-addressed card (41_init.md R182, R183). -/
theorem initLeads_ocr {f : List Byte} {o0 o1 o2 o3 : Byte} (hf : f.length = 6) (ho : 0xC0 ≤ o0.toNat) (w : Work) :
    ∃ w', w'.c = some .sdv2Block ∧ InitLeads cfg unit (.selOcr, w)
      (0xFF :: (f ++ 0x00 :: o0 :: o1 :: o2 :: o3 :: inb)) 14 12 (.rateFast, w') inb := by
  have hcall : InitLeads cfg unit (.selOcr, w) (0xFF :: (f ++ 0x00 :: o0 :: o1 :: o2 :: o3 :: inb)) _ _ (.ocr 0, _)
      (o0 :: o1 :: o2 :: o3 :: inb) :=
    (InitLeads.noExchange rfl fun _ _ _ => rfl).trans (initLeads_command (site := .ocr) rfl hf (by decide) rfl)
  refine ⟨_, ?_, (hcall.trans (initLeads_ocrBytes _ _ _ _ _)).trans
    (.noExchange rfl fun _ _ _ => actDesOcr_eq (keepOcr_zero _ _ _ _ _))⟩
  rw [if_pos ho]

/-! ### The CSD block -/

/-- The CSD registers with the first `n` of `bytes` kept (42_capacity.md R211). -/
def keepCsd (v : Vector (Option Byte) 16) (bytes : List Byte) (n : Nat) : Vector (Option Byte) 16 :=
  Vector.ofFn fun k => if k.1 < n then bytes[k.1]? else v[k]

theorem keepCsd_zero (v : Vector (Option Byte) 16) (bytes : List Byte) : keepCsd v bytes 0 = v := by
  ext1 k hk
  simp [keepCsd]

theorem keepCsd_succ (v : Vector (Option Byte) 16) {bytes : List Byte} {n : Nat} (h : n < bytes.length) :
    keepCsd v bytes (n + 1) = (keepCsd v bytes n).setIfInBounds n (some bytes[n]) := by
  ext1 k hk
  rw [Vector.getElem_setIfInBounds]
  simp only [keepCsd, Vector.getElem_ofFn]
  obtain hlt | rfl | hgt := lt_trichotomy k n
  · rw [if_pos (hlt.trans n.lt_succ_self), if_neg hlt.ne', if_pos hlt]
  · rw [if_pos k.lt_succ_self, if_pos rfl, List.getElem?_eq_getElem h]
  · rw [if_neg (Nat.not_lt.2 hgt), if_neg hgt.ne, if_neg hgt.not_gt]

theorem keepCsd_all (v : Vector (Option Byte) 16) (bytes : List Byte) {k : Nat} (h : k < 16) :
    (keepCsd v bytes 16)[k] = bytes[k]? := by
  simp only [keepCsd, Vector.getElem_ofFn, if_pos h]

/-- The agent after `n` bytes of the CSD. -/
def csdPlace (w : Work) (bytes : List Byte) (n : Nat) : Pos × Work :=
  (if n < 16 then .csd n else .csdSum 0, { w with csd := keepCsd w.csd bytes n })

theorem act_csdPlace {req : Request} {bytes : List Byte} (hlen : bytes.length = 16) {n : Nat} (hn : n < bytes.length)
    (buf : HostBuf) (free : Word) :
    act cfg buf free bytes[n] ⟨req, (csdPlace w bytes n).1, (csdPlace w bytes n).2⟩ = .ok
      (Running.exchange ⟨req, (csdPlace w bytes n).1, (csdPlace w bytes n).2⟩ filler (csdPlace w bytes (n + 1))
        none) := by
  simp only [csdPlace, if_pos (hlen ▸ hn), act, actCsd, csdBytes, keepCsd_succ _ hn]
  split <;> rfl

theorem exists_csd_of_bytes {bytes : List Byte} (hlen : bytes.length = 16) :
    ∃ csd : Csd, ∀ (k : Nat) (h : k < 16), bytes[k]? = some csd[k] ∧ bytes.getD k 0 = csd[k] :=
  ⟨⟨bytes.toArray, hlen⟩, fun k hk => by simp [hlen, hk]⟩

/-- The fast clock, CMD9 and the CSD block (41_init.md R185, 42_capacity.md R210, R211). -/
theorem initLeads_capacity {f bytes : List Byte} {k0 k1 : Byte} (hf : f.length = 6) (hlen : bytes.length = 16)
    (w : Work) :
    ∃ w', w'.c = w.c ∧ (∀ (k : Nat) (h : k < 16), w'.csd[k] = bytes[k]?) ∧
      InitLeads cfg unit (.rateFast, w) (0xFF :: (f ++ 0x00 :: 0xFE :: (bytes ++ k0 :: k1 :: inb))) 29 27
        (.desCap, w') inb := by
  have hcsd (w : Work) : InitLeads cfg unit (.csd 0, w) (bytes ++ k0 :: k1 :: inb) 16 16 (csdPlace w bytes 16)
      (k0 :: k1 :: inb) := by
    have h := InitLeads.exchanges (cfg := cfg) (unit := unit) (place := csdPlace w bytes) (inb := k0 :: k1 :: inb) hlen
      fun _ hk => ⟨_, fun buf free => act_csdPlace hlen hk buf free⟩
    have hstart : csdPlace w bytes 0 = (.csd 0, w) := by rw [csdPlace, keepCsd_zero]; rfl
    rwa [hstart] at h
  have htoken (w : Work) : InitLeads cfg unit (.wait .csd, { w with i := some 0 })
      (0xFE :: (bytes ++ k0 :: k1 :: inb)) 1 1 (.csd 0, w.waited 0xFE 0) (bytes ++ k0 :: k1 :: inb) :=
    .exchange (out := filler) (o := some (.csd, 0)) fun _ _ => by
      simp only [act, actWait]
      exact pollStep_hit rfl rfl
  refine ⟨_, ?_, ?_, (InitLeads.noExchange rfl fun _ _ _ => rfl).trans <|
    (InitLeads.noExchange rfl fun _ _ _ => rfl).trans <|
    (initLeads_command (site := .capacity) rfl hf (by decide) rfl).trans <| (htoken _).trans <| (hcsd _).trans <|
    (InitLeads.exchange fun _ _ => rfl).trans <| .exchange fun _ _ => rfl⟩
  · rfl
  · exact fun k hk => keepCsd_all _ _ hk

end

/-! ### The whole INIT -/

/-- The first primitive: the agent stands at its power-up. -/
theorem initAt_start {s : State} {unit : BitVec 8} {V : UnitState} (hV : s.units[unit.toNat]? = some V)
    (hi : V.agent = .idle) :
    ∃ t, execTimes (.init unit) 1 s = .next t ∧ t.InitAt s.cfg unit (.desPower, Work.empty) V.inbound ∧
      t.trace = s.trace ++ [.rate unit.toNat 250] :=
  ⟨_, execTimes_of_exec (initStarts s unit V hV hi) 0,
    ⟨rfl, _, ⟨List.getElem?_set_self (List.getElem?_eq_some_iff.1 hV).1, rfl⟩, rfl⟩, rfl⟩

/-- Settles O42: the first primitive, the phases of a prompt card, and the commit of its count. -/
theorem initOfPromptSdhcCard : Obligations.InitOfPromptSdhcCard := by
  intro s unit V fill f0 f8 f55 f41 f58 f9 csd rest r8 t0 t1 t2 s55 s41 o0 o1 o2 o3 k0 k1 _ hV hi hin hfill h0 h8 h55
    h41 h58 h9 hcsd hr8 hlegal hs55 hs41 hready hblock hlayout
  obtain ⟨s₁, hx₁, hs₁, htrace₁⟩ := initAt_start hV hi
  simp only [hin, List.append_assoc, List.cons_append, List.nil_append] at hs₁
  obtain ⟨w₁, hreset⟩ := initLeads_reset hfill h0 Work.empty
  obtain ⟨w₂, hc₂, hprobe⟩ := initLeads_probe h8 hr8 hlegal w₁
  obtain ⟨w₃, -, hneg⟩ := initLeads_negotiation h55 hs55 h41 hs41 hready hc₂
  obtain ⟨w₄, hc₄, hocr⟩ := initLeads_ocr h58 hblock w₃
  obtain ⟨w₅, hc₅, hkept, hcap⟩ := initLeads_capacity h9 hcsd w₄
  obtain ⟨s₂, evs, hx₂, ⟨-, U, hr, hrest⟩, htrace₂, hcount⟩ :=
    (hreset.trans <| hprobe.trans <| hneg.trans <| hocr.trans hcap) s₁ hs₁
  obtain ⟨regs, hregs⟩ := exists_csd_of_bytes hcsd
  rw [(hregs 0 (by decide)).2] at hlayout
  have hn := decodeCsd_layoutA hlayout (Config.freeSectors s₂.draws)
  have hne : decodeCsd regs (Config.freeSectors s₂.draws) ≠ 0 := fun h => by simp [h] at hn
  have hx₃ := (initCommit s₂ U ⟨initRequest unit, .desCap, w₅⟩ regs .sdv2Block rfl hr rfl
    (fun k hk => (hkept k hk).trans (hregs k hk).1) (hc₅.trans hc₄)).2 hne
  refine ⟨_, _, _, [.rate unit.toNat 250] ++ (evs ++ [.des unit.toNat]),
    (execTimes_add hx₁ 97).trans ((execTimes_add hx₂ 2).trans hx₃),
    List.getElem?_set_self (List.getElem?_eq_some_iff.1 hr.1).1, rfl, rfl, hrest, rfl, ?_, ?_, ?_⟩
  · rw [hn, (hregs 8 (by decide)).2, (hregs 9 (by decide)).2]
  · simp only [htrace₂, htrace₁, List.append_assoc]
    rfl
  · rw [List.countP_append, List.countP_append, hcount]
    rfl

end Sys2Proof.Machine
end

section
/-! SUPPORT. The CSD block and its decoder (42_capacity.md R211 to R217), with the proofs that settle O39 and
O41. -/

namespace Sys2Proof.Machine

/-! ### The CSD block -/

/-- Exchanges of `0xFF` in a row that receive `bytes`; the agent stands at `place k` after `k` of them. -/
theorem execTimes_receive {i : Instr} {s : State} {U : UnitState} {req : Request} {bytes rest : List Byte}
    {place : Nat → Pos × Work} (hi : Running.IsOf ⟨req, (place 0).1, (place 0).2⟩ i)
    (hr : s.Runs req.unit.toNat U ⟨req, (place 0).1, (place 0).2⟩) (hin : U.inbound = bytes ++ rest)
    (h : ∀ k (hk : k < bytes.length), ∀ free, act s.cfg U.buf free bytes[k] ⟨req, (place k).1, (place k).2⟩ =
      .ok (Running.exchange ⟨req, (place k).1, (place k).2⟩ filler (place (k + 1)) none)) :
    execTimes i bytes.length s = .next (s.afterExchanges req.unit.toNat U (bytes.map (.x req.unit.toNat filler))
      ⟨req, (place bytes.length).1, (place bytes.length).2⟩ s.diag) := by
  have hanswer : ∀ k (hk : k < bytes.length), U.answerAt s.draws k = bytes[k] := fun k hk => by
    simp only [UnitState.answerAt, hin, List.getElem?_append_left hk, List.getElem?_eq_getElem hk, Option.getD_some]
  have hevents : (List.range bytes.length).map (fun k => Event.x req.unit.toNat filler (U.answerAt s.draws k)) =
      bytes.map (.x req.unit.toNat filler) := by
    refine List.ext_getElem (by simp) fun k _ hk => ?_
    rw [List.getElem_map, List.getElem_map, List.getElem_range, hanswer k (List.length_map _ ▸ hk)]
  rw [execTimes_exchanges (place := place) (out := fun _ => filler) hi hr
    fun k hk free => (hanswer k hk).symm ▸ h k hk free, hevents]

/-- The agent after `n` checksum bytes of the CSD (42_capacity.md R211). -/
def csdSumPlace (w : Work) (n : Nat) : Pos × Work := (if n < 2 then .csdSum n else .desCap, w)

theorem act_csdSumPlace {req : Request} {w : Work} {n : Nat} (h : n < 2) (cfg : Config) (buf : HostBuf) (free : Word)
    (b : Byte) :
    act cfg buf free b ⟨req, (csdSumPlace w n).1, (csdSumPlace w n).2⟩ = .ok
      (Running.exchange ⟨req, (csdSumPlace w n).1, (csdSumPlace w n).2⟩ filler (csdSumPlace w (n + 1)) none) := by
  simp only [csdSumPlace, if_pos h, act, actCsdSum, checksumBytes]
  split <;> rfl

/-- Settles O39: sixteen exchanges that keep their byte, then two that do not. -/
theorem csdIsRead : Obligations.CsdIsRead := by
  rintro s U ⟨req, pos, w⟩ csd sums rest hi hr hp hin hcsd hsums u
  cases hp
  have hstart : csdPlace w csd 0 = (.csd 0, w) := by rw [csdPlace, keepCsd_zero]; rfl
  have hend : csdPlace w csd csd.length = csdSumPlace { w with csd := keepCsd w.csd csd 16 } 0 := by rw [hcsd]; rfl
  have hbytes := execTimes_receive (place := csdPlace w csd) (i := .init req.unit) (req := req) (rest := sums ++ rest)
    hi (by rw [hstart]; exact hr) (by rw [hin, List.append_assoc]) fun k hk free => act_csdPlace hcsd hk _ free
  rw [hend] at hbytes
  have hlast := execTimes_receive (place := csdSumPlace { w with csd := keepCsd w.csd csd 16 }) (i := .init req.unit)
    (bytes := sums) (rest := rest) hi (hr.afterExchanges (es := csd.map (.x u filler)) (d := s.diag))
    (by simp [UnitState.afterExchanges, hin]) fun k hk free => act_csdSumPlace (hsums ▸ hk) ..
  have hall := execTimes_afterExchanges_trans hbytes hlast
  rw [← List.map_append, hcsd, hsums] at hall
  refine ⟨keepCsd w.csd csd 16, fun k hk => keepCsd_all _ _ hk, hall.trans ?_⟩
  have hlen : (csd ++ sums).length = 18 := by rw [List.length_append, hcsd, hsums]
  rw [State.afterExchanges, UnitState.afterExchanges_of_inbound hin (List.length_map _), List.length_map, hlen]
  rfl

/-! ### The capacity decoder -/

/-- The layout selector is the top two bits of byte 0 (42_capacity.md R212). -/
theorem extractLsb'_top_toNat (b : Byte) : (b.extractLsb' 6 2).toNat = b.toNat / 64 := by
  have := b.isLt
  rw [BitVec.extractLsb'_toNat, Nat.shiftRight_eq_div_pow]
  omega

section
variable {csd : Csd} {free : Word}

/-- The exponent does not wrap (42_capacity.md R214). -/
theorem layoutBExponent_toNat (csd : Csd) :
    (layoutBExponent csd).toNat = csd[5].toNat % 16 + csd[10].toNat / 128 + csd[9].toNat % 4 * 2 + 2 := by
  have h10 := csd[10].isLt
  simp only [layoutBExponent, BitVec.toNat_add, BitVec.toNat_shiftLeft, Nat.shiftLeft_eq,
    csdField_toNat _ _ 4 (by decide), csdField_toNat _ _ 1 (by decide), csdField_toNat _ _ 2 (by decide),
    (by decide : (2 : Word).toNat = 2)]
  omega

/-- The multiplier does not wrap (42_capacity.md R214). -/
theorem layoutBMultiplier_toNat (csd : Csd) :
    (layoutBMultiplier csd).toNat = csd[8].toNat / 64 + csd[7].toNat * 4 + csd[6].toNat % 4 * 1024 + 1 := by
  have h7 := csd[7].isLt
  have h8 := csd[8].isLt
  simp only [layoutBMultiplier, BitVec.toNat_add, BitVec.toNat_shiftLeft, Nat.shiftLeft_eq,
    csdField_toNat _ _ 8 (by decide), csdField_toNat _ _ 2 (by decide), (by decide : (1 : Word).toNat = 1)]
  omega

/-- The shift does not wrap: the exponent is at most 24 and the multiplier at most `2^12` (42_capacity.md R214). -/
theorem layoutB_toNat (csd : Csd) :
    (layoutB csd).toNat = (layoutBMultiplier csd).toNat * 2 ^ ((layoutBExponent csd).toNat - 9) ∧
      (layoutB csd).toNat ≤ 2 ^ 27 := by
  have h10 := csd[10].isLt
  have h7 := csd[7].isLt
  have h8 := csd[8].isLt
  have he : (layoutBExponent csd).toNat - 9 ≤ 15 := by rw [layoutBExponent_toNat]; omega
  have hm : (layoutBMultiplier csd).toNat ≤ 2 ^ 12 := by rw [layoutBMultiplier_toNat]; omega
  have hle : (layoutBMultiplier csd).toNat * 2 ^ ((layoutBExponent csd).toNat - 9) ≤ 2 ^ 12 * 2 ^ 15 :=
    Nat.mul_le_mul hm (Nat.pow_le_pow_right (by decide) he)
  rw [layoutB, BitVec.toNat_shiftLeft, Nat.shiftLeft_eq, Nat.mod_eq_of_lt (hle.trans_lt (by decide))]
  exact ⟨rfl, hle⟩

/-- The count of a layout B CSD (42_capacity.md R214 to R216). -/
theorem decodeCsd_layoutB (h : csd[0].toNat / 64 = 0) (free : Word) :
    decodeCsd csd free = if 9 ≤ (layoutBExponent csd).toNat then layoutB csd >>> 1 else free := by
  have hv : csd[0].extractLsb' 6 2 = 0b00#2 := BitVec.eq_of_toNat_eq ((extractLsb'_top_toNat _).trans h)
  rw [decodeCsd, hv, if_neg (by decide), if_pos rfl]

/-- The reserved layouts have no count (42_capacity.md R217). -/
theorem decodeCsd_reserved (h : 2 ≤ csd[0].toNat / 64) (free : Word) : decodeCsd csd free = 0 := by
  have hv : ∀ v : BitVec 2, v.toNat < 2 → csd[0].extractLsb' 6 2 ≠ v := by
    rintro v hlt rfl
    rw [extractLsb'_top_toNat] at hlt
    omega
  rw [decodeCsd, if_neg (hv _ (by decide)), if_neg (hv _ (by decide))]

end

/-- Settles O41, layout by layout. (`decodeCsd` itself is the decoder of the model.) -/
theorem decodeCsd_onNaturals : Obligations.DecodeCsd := by
  intro csd free b e mult n
  have hexp : (layoutBExponent csd).toNat = e := layoutBExponent_toNat csd
  refine ⟨fun h => ?_, fun h he => ?_, fun h he => ?_, fun h => ?_⟩
  · have hn : n = (b 9 + b 8 * 256 + 1) * 512 := decodeCsd_layoutA h free
    have h8 : b 8 < 2 ^ 8 := csd[8].isLt
    have h9 : b 9 < 2 ^ 8 := csd[9].isLt
    omega
  · obtain ⟨hval, hle⟩ := layoutB_toNat csd
    have hn : n = (layoutB csd).toNat / 2 := by
      have hd := decodeCsd_layoutB h free
      rw [if_pos (hexp.symm ▸ he)] at hd
      exact congrArg BitVec.toNat hd
    rw [layoutBMultiplier_toNat, hexp] at hval
    exact ⟨hn.trans (congrArg (· / 2) hval), by omega⟩
  · have hd := decodeCsd_layoutB h free
    rw [if_neg (by omega)] at hd
    exact congrArg BitVec.toNat hd
  · exact congrArg BitVec.toNat (decodeCsd_reserved h free)

end Sys2Proof.Machine
end

section
/-! SUPPORT. The steps of the tokens and of an accepted data-response, and what they leave unchanged
(30_encoding.md R100, R101), with the proofs that settle O33 and O53. -/

namespace Sys2Proof.Machine

/-! ### The start token -/

theorem Pos.isStartTokenWait_iff {p : Pos} : p.isStartTokenWait = true ↔ p = .wait .csd ∨ p = .wait .readStart := by
  refine ⟨fun h => ?_, by rintro (rfl | rfl) <;> rfl⟩
  unfold Pos.isStartTokenWait at h
  split at h
  · exact .inl rfl
  · exact .inr rfl
  · cases h

/-- The poll of a wait that receives the start token: the counter is raised, and the pseudocode goes on after the wait
(42_capacity.md R210, 43_transfer.md R234). -/
theorem exec_tokenStart {s : State} {u : Nat} {U : UnitState} {run : Running} {site : WaitSite} {n : Word}
    {next : Pos × Work} (hm : s.Moves u U run) (hi : run.work.i = some n) (hp : run.pos = .wait site)
    (hsite : (Pos.wait site).isStartTokenWait = true) (hcond : site.cond tokenStartByte = true)
    (h : afterWait site { run.work with b := some tokenStartByte, ok := some true } = .ok next) :
    exec .tokenStart s =
      .next (s.commit u U tokenStartByte (run.exchange filler next (some (site.phase, n)))) := by
  rw [exec, execTokenStart, execAt_of (State.mover_eq_some.2 hm) (by rw [hp]; exact hsite)]
  refine performRun_of_act ?_
  simp only [act, hp, actWait, hcond, Option.getD_some]
  exact pollStep_hit hi h

/-- Settles O33, by the poll that receives the token at each of the two waits. -/
theorem tokenStart : Obligations.TokenStart := by
  intro s u U run n hm hi received
  refine ⟨fun hp => exec_tokenStart hm hi hp rfl rfl rfl, fun rem hp hrem => ?_⟩
  exact exec_tokenStart hm hi hp rfl rfl (need_of_eq (reg := run.work.rem) hrem _)

/-! ### What a token leaves unchanged -/

/-- Of the registers at most `b`, `i`, `ok`, `m` and `d` differ. -/
def Work.KeptByToken (w w' : Work) : Prop := w' = { w with b := w'.b, i := w'.i, ok := w'.ok, m := w'.m, d := w'.d }

theorem Work.KeptByToken.eqs {w w' : Work} (h : w.KeptByToken w') :
    w'.r = w.r ∧ w'.j = w.j ∧ w'.c = w.c ∧ w'.t = w.t ∧ w'.csd = w.csd ∧ w'.arg = w.arg ∧ w'.nsec = w.nsec ∧
      w'.rem = w.rem ∧ w'.p = w.p := by
  rw [Work.KeptByToken] at h
  rw [h]
  exact ⟨rfl, rfl, rfl, rfl, rfl, rfl, rfl, rfl, rfl⟩

/-- What an action of a token is: an exchange; the counter it raises, if any, is that of the phase `ends`. -/
def Action.OfToken (a : Action) (run : Running) (ends : Option Phase) : Prop :=
  ∃ out next o, a = run.exchange out next o ∧ run.work.KeptByToken next.2 ∧ ∀ k n, o = some (k, n) → ends = some k

theorem Action.OfToken.quiet {run : Running} {out : Byte} {next : Pos × Work} (h : run.work.KeptByToken next.2)
    (ends : Option Phase) : (run.exchange out next none).OfToken run ends :=
  ⟨out, next, none, rfl, h, nofun⟩

section
variable {cfg : Config} {run : Running} {a : Action} {b : Byte}

theorem afterWait_keeps {site : WaitSite} {w : Work} {next : Pos × Work} (h : afterWait site w = .ok next) :
    w.KeptByToken next.2 := by
  cases site with
  | readStart =>
    obtain ⟨rem, -, h⟩ := need_ok h
    cases h
    rfl
  | csd | wdata | wdone | wstop | widle =>
    cases h
    rfl

theorem actWait_ofToken {site : WaitSite} (h : actWait cfg run site b = .ok a) : a.OfToken run (some site.phase) := by
  obtain ⟨n, -, ⟨-, next, hn, rfl⟩ | ⟨-, -, rfl⟩ | ⟨-, -, next, hn, rfl⟩⟩ := pollStep_ok h
  · have hw := afterWait_keeps hn
    exact ⟨_, next, some (site.phase, n), rfl, hw, by rintro k n' ⟨⟩; rfl⟩
  · exact .quiet (by rfl) _
  · cases hn
    exact .quiet (by rfl) _

theorem actWstart_ofToken (h : actWstart run = .ok a) : a.OfToken run none := by
  obtain ⟨rem, -, h⟩ := need_ok h
  cases h
  exact .quiet (by rfl) _

theorem actWstop_ofToken (run : Running) : (actWstop run).OfToken run none := .quiet (by rfl) _

theorem actDataResp_ofToken (run : Running) (b : Byte) : (actDataResp run b).OfToken run none := by
  refine .quiet ?_ _
  split <;> rfl

end

/-- A row that stands at a place of the wire performs the action of the agent that moves there. -/
theorem execAt_next_act {fits : Pos → Bool} {byte : Option Byte} {s t : State} (h : execAt fits byte s = .next t) :
    ∃ u U run b a, s.Moves u U run ∧ fits run.pos = true ∧
      act s.cfg U.buf (Config.freeSectors s.draws) b run = .ok a ∧ t = s.commit u U b a := by
  obtain ⟨u, U, run, hm, hfits, hperform⟩ := execAt_next h
  obtain ⟨a, ha, rfl⟩ := performRun_eq_next.1 hperform
  exact ⟨u, U, run, _, a, State.mover_eq_some.1 hm, hfits, ha, rfl⟩

/-- TOKEN_START is a poll of one of the two start-token waits. -/
theorem exec_tokenStart_next {s t : State} (h : exec .tokenStart s = .next t) :
    ∃ u U run b a site, s.Moves u U run ∧ t = s.commit u U b a ∧ a.OfToken run (some site.phase) ∧
      run.pos = .wait site ∧ (site = .csd ∨ site = .readStart) := by
  obtain ⟨u, U, run, b, a, hm, hfits, ha, rfl⟩ := execAt_next_act h
  obtain hp | hp := Pos.isStartTokenWait_iff.1 hfits <;> simp only [act, hp] at ha
  · exact ⟨u, U, run, b, a, .csd, hm, rfl, actWait_ofToken ha, hp, .inl rfl⟩
  · exact ⟨u, U, run, b, a, .readStart, hm, rfl, actWait_ofToken ha, hp, .inr rfl⟩

/-- A row that belongs to one position `p` performs the action there. -/
theorem execAt_next_ofToken {p : Pos} {byte : Option Byte} {s t : State}
    (h : execAt (fun q => decide (q = p)) byte s = .next t)
    (hact : ∀ cfg buf free b a (run : Running), act cfg buf free b { run with pos := p } = .ok a → a.OfToken run none) :
    ∃ u U run b a, s.Moves u U run ∧ t = s.commit u U b a ∧ a.OfToken run none := by
  obtain ⟨u, U, run, b, a, hm, hfits, ha, rfl⟩ := execAt_next_act h
  rw [act_at (of_decide_eq_true hfits)] at ha
  exact ⟨u, U, run, b, a, hm, rfl, hact _ _ _ _ _ _ ha⟩

/-- The step of a token or of an accepted data-response is an action of a token of the unit that moves; only
TOKEN_START may raise a counter, that of the wait it stands in. -/
theorem exec_token_next {i : Instr} {s t : State}
    (hi : i = .tokenStart ∨ i = .tokenWstart ∨ i = .tokenWstop ∨ ∃ x, i = .dataRespAccept x)
    (h : exec i s = .next t) :
    ∃ u U run b a ends, s.Moves u U run ∧ t = s.commit u U b a ∧ a.OfToken run ends ∧
      ∀ k, ends = some k → i = .tokenStart ∧ run.pos = .wait .csd ∧ k = .csd ∨
        i = .tokenStart ∧ run.pos = .wait .readStart ∧ k = .readStart := by
  obtain rfl | hi := hi
  · obtain ⟨u, U, run, b, a, site, hm, rfl, ha, hp, rfl | rfl⟩ := exec_tokenStart_next h
    · exact ⟨u, U, run, b, a, _, hm, rfl, ha, fun k hk => .inl ⟨rfl, hp, (Option.some.inj hk).symm⟩⟩
    · exact ⟨u, U, run, b, a, _, hm, rfl, ha, fun k hk => .inr ⟨rfl, hp, (Option.some.inj hk).symm⟩⟩
  · suffices hrow : ∃ u U run b a, s.Moves u U run ∧ t = s.commit u U b a ∧ a.OfToken run none by
      obtain ⟨u, U, run, b, a, hm, ht, ha⟩ := hrow
      exact ⟨u, U, run, b, a, none, hm, ht, ha, nofun⟩
    obtain rfl | rfl | ⟨x, rfl⟩ := hi
    · rw [exec, execTokenWstart] at h
      exact execAt_next_ofToken h fun _ _ _ _ _ run ha => actWstart_ofToken (run := run) ha
    · rw [exec, execTokenWstop] at h
      exact execAt_next_ofToken h fun _ _ _ _ _ run ha => by cases ha; exact actWstop_ofToken run
    · rw [exec, execDataRespAccept] at h
      exact execAt_next_ofToken h fun _ _ _ b _ run ha => by cases ha; exact actDataResp_ofToken run b

/-- A raise changes the counter it names, if any, alone (10_state.md R41). -/
theorem Diag.get_raiseOpt_eq (d : Diag) (o : Option (Phase × Word)) (k : Phase) :
    (d.raiseOpt o).get k = d.get k ∨ ∃ n, o = some (k, n) := by
  obtain _ | ⟨k', n⟩ := o
  · exact .inl rfl
  · obtain rfl | hk := eq_or_ne k k'
    · exact .inr ⟨n, rfl⟩
    · exact .inl (d.get_raise_of_ne n hk)

/-- Settles O53, by what an action of a token is. -/
theorem tokenFrame : Obligations.TokenFrame := by
  intro i s t hi h
  obtain ⟨u, U, run, b, a, ends, hm, rfl, ⟨out, next, o, rfl, hw, ho⟩, hends⟩ := exec_token_next hi h
  obtain ⟨hr, hj, hc, ht, hcsd, harg, hnsec, hrem, hp⟩ := hw.eqs
  refine ⟨u, U, run, U.after (run.exchange out next o), ⟨run.req, next.1, next.2⟩, out, b, hm, rfl, rfl, rfl, rfl, rfl,
    rfl, hr, hj, hc, ht, hcsd, harg, hnsec, hrem, hp, fun k => ?_, rfl, rfl, rfl, rfl, rfl, rfl, rfl, rfl⟩
  exact (s.diag.get_raiseOpt_eq o k).imp_right fun ⟨n, hn⟩ => hends k (ho k n hn)

end Sys2Proof.Machine
end

section
/-! SUPPORT. The start of READ and WRITE and their argument (43_transfer.md R230 to R232), with the proofs that settle
O17 and O20 to O22. -/

namespace Sys2Proof.Machine

/-! ### The operands on naturals -/

/-- Settles O22: either shift is a product modulo `2^32`. -/
theorem addressTransform : Obligations.AddressTransform := by
  intro cls offset a
  by_cases h : cls = .sdv2Block
  · simp only [a, cardAddress, if_pos h, BitVec.toNat_shiftLeft, Nat.shiftLeft_eq]
  · simp only [a, cardAddress, if_neg h, BitVec.toNat_shiftLeft, Nat.shiftLeft_eq]

/-- The two shifts in one: a block number is doubled, a byte address multiplied by 1024 (43_transfer.md R231). -/
theorem cardAddress_eq_ofNat (cls : CardClass) (offset : Word) :
    cardAddress cls offset = BitVec.ofNat 32 (offset.toNat * if cls = .sdv2Block then 2 else 1024) := by
  refine BitVec.eq_of_toNat_eq ((addressTransform cls offset).trans ?_)
  rw [BitVec.toNat_ofNat]
  split <;> omega

/-! ### READ and WRITE of an idle unit -/

section
variable {s : State} {unit : BitVec 8} {offset count : Word} {V : UnitState}

/-- A READ of an idle unit that breaks no duty goes on to the class check. -/
theorem exec_read_idle (hV : s.units[unit.toNat]? = some V) (hi : V.agent = .idle) (h0 : count ≠ 0)
    (hb : count.toNat ≤ s.port.buf.size) :
    exec (.read unit offset count) s = startTransfer (readRequest unit offset count) .selRead
      { Work.empty with arg := some (cardAddress V.cls offset) } s V := by
  rw [exec, execRead, transferDuty_eq_none.2 ⟨h0, hb⟩, hostRequest_idle hV hi]

/-- A WRITE of an idle unit that breaks no duty goes on to the class check. -/
theorem exec_write_idle (hV : s.units[unit.toNat]? = some V) (hi : V.agent = .idle) (h0 : count ≠ 0)
    (hb : count.toNat ≤ s.port.buf.size) :
    exec (.write unit offset count) s = startTransfer (writeRequest unit offset count) .selWrite
      { Work.empty with arg := some (cardAddress V.cls offset), nsec := some (sectorCount count) } s V := by
  rw [exec, execWrite, transferDuty_eq_none.2 ⟨h0, hb⟩, hostRequest_idle hV hi]

end

/-- A unit whose class is `UNKNOWN` starts no transfer (43_transfer.md R230). -/
theorem startTransfer_unknown {V : UnitState} (h : V.cls = .unknown) (req : Request) (pos : Pos) (w : Work)
    (s : State) :
    startTransfer req pos w s V = .next (s.respond (some req.unit.toNat) ⟨.notReady, .word 0⟩) := by
  rw [startTransfer, if_pos h]

/-- A usable unit starts a transfer, with the request's buffer, by its first `Select`; a command comes next
(43_transfer.md R233, R242). -/
theorem startTransfer_usable {V : UnitState} {pos : Pos} {site : CallSite} (h : V.cls ≠ .unknown)
    (hp : pos = .selRead ∧ site = .readStart ∨ pos = .selWrite ∧ site = .writePrefix) (req : Request) (w : Work)
    (s : State) :
    startTransfer req pos w s V = .next { s with
      units := s.units.set req.unit.toNat { V with
        buf := s.port.buf, agent := .running ⟨req, .call site .preWait, { w with i := some 0 }⟩ }
      trace := s.trace ++ [.sel req.unit.toNat] } := by
  rw [startTransfer, if_neg h]
  obtain ⟨rfl, rfl⟩ | ⟨rfl, rfl⟩ := hp <;> rfl

/-- Settles O17: `count = 0` breaks a duty, and else the class check answers. -/
theorem notReady : Obligations.NotReady := by
  intro s unit offset count V hV hidle i hi
  refine ⟨fun hcls h0 hb => ?_, fun h0 => ?_⟩
  · simp only [List.mem_cons, List.not_mem_nil, or_false] at hi
    obtain rfl | rfl := hi
    · exact (exec_read_idle hV hidle h0 hb).trans (startTransfer_unknown hcls ..)
    · exact (exec_write_idle hV hidle h0 hb).trans (startTransfer_unknown hcls ..)
  · subst h0
    refine exec_transfer_broken hi (fun W hW => ?_) (transferDuty_zero _)
    cases hV.symm.trans hW
    exact hidle

theorem Word.ne_zero_of_pos {count : Word} (h : 1 ≤ count.toNat) : count ≠ 0 := by
  rintro rfl
  exact absurd h (by decide)

/-- Settles O20: the first primitive of READ. -/
theorem readStarts : Obligations.ReadStarts := by
  intro s unit offset count V hV hi hcls h1 hb
  rw [exec_read_idle hV hi (Word.ne_zero_of_pos h1) hb, ← cardAddress_eq_ofNat]
  exact startTransfer_usable hcls (.inl ⟨rfl, rfl⟩) ..

/-- Settles O21: the first primitive of WRITE. -/
theorem writeStarts : Obligations.WriteStarts := by
  intro s unit offset count V hV hi hcls h1 hb
  rw [exec_write_idle hV hi (Word.ne_zero_of_pos h1) hb, ← cardAddress_eq_ofNat]
  exact startTransfer_usable hcls (.inr ⟨rfl, rfl⟩) ..

end Sys2Proof.Machine
end

section
/-! SUPPORT. The single primitives of a transfer outside the sectors' bytes: the tokens of WRITE, the data-response,
the turns between sectors and the end (43_transfer.md R237, R242 to R249), with the proofs that settle O45 and O47 to
O51. -/

namespace Sys2Proof.Machine

/-! ### The tokens of WRITE and the data-response -/

/-- A row that belongs to one position performs the action of the agent that moves there. -/
theorem execAt_of_pos {p : Pos} {byte : Option Byte} {s : State} {u : Nat} {U : UnitState} {run : Running} {a : Action}
    (hm : s.Moves u U run) (hp : run.pos = p)
    (ha : act s.cfg U.buf (Config.freeSectors s.draws) (byte.getD (U.answer s.draws)) { run with pos := p } = .ok a) :
    execAt (fun q => decide (q = p)) byte s = .next (s.commit u U (byte.getD (U.answer s.draws)) a) := by
  rw [execAt_of (State.mover_eq_some.2 hm) (decide_eq_true hp), performRun_of_act ((act_at hp).trans ha)]

theorem actWstart_eq {run : Running} {rem : Word} (h : run.work.rem = some rem) :
    actWstart run = .ok (run.go (.exchange tokenWstartByte)
      (.writePayload 0, { run.work with m := some (sectorShare rem) })) := need_of_eq h _

/-- Settles O45, by the action at the start token. -/
theorem tokenWstart : Obligations.TokenWstart := by
  intro s u U run rem hm hp hrem
  exact execAt_of_pos (byte := none) hm hp (actWstart_eq (run := run) hrem)

/-- Settles O50, by the action at the stop-write token. -/
theorem tokenWstop : Obligations.TokenWstop := by
  intro s u U run hm hp
  exact execAt_of_pos (byte := none) (a := actWstop run) hm hp rfl

/-- The low five bits tell an accepted data-response (30_encoding.md R101). -/
theorem isAccepted_iff {d : Byte} : isAccepted d = true ↔ d.toNat % 32 = 5 := by
  rw [isAccepted, beq_iff_eq, ← BitVec.toNat_inj, BitVec.extractLsb'_toNat, Nat.shiftRight_zero]
  rfl

theorem isAccepted_dataRespByte (x : BitVec 3) : isAccepted (dataRespByte x) = true :=
  beq_iff_eq.2 (dataRespByte_low x)

theorem actDataResp_accepted {run : Running} {b : Byte} (h : isAccepted b = true) :
    actDataResp run b = run.go (.exchange filler) (.wait .wdone, { run.work with d := some b, i := some 0 }) := by
  rw [actDataResp, if_pos h]
  rfl

theorem actDataResp_rejected {run : Running} {b : Byte} (h : ¬ isAccepted b = true) :
    actDataResp run b = run.go (.exchange filler) (.desFail .dataRejected, { run.work with d := some b }) := by
  rw [actDataResp, if_neg h]
  rfl

/-- Settles O47, by the action at an accepted data-response. -/
theorem dataRespAccept : Obligations.DataRespAccept := by
  intro s u U run ignored hm hp
  exact execAt_of_pos (byte := some (dataRespByte ignored)) hm hp
    (congrArg _ (actDataResp_accepted (run := run) (isAccepted_dataRespByte ignored)))

theorem Running.isOf_write (unit : BitVec 8) (offset count : Word) (pos : Pos) (w : Work) :
    Running.IsOf ⟨writeRequest unit offset count, pos, w⟩ (.write unit offset count) := rfl

/-- The exchange that receives another data-response, then the failure path (43_transfer.md R246). -/
theorem execTimes_dataRejected {i : Instr} {s : State} {U : UnitState} {run : Running} (hi : run.IsOf i)
    (hr : s.Runs run.req.unit.toNat U run) (hp : run.pos = .dataResp) (hrej : ¬ isAccepted (U.answer s.draws) = true) :
    execTimes i 3 s = .next { s with
      units := s.units.set run.req.unit.toNat { U with inbound := U.inbound.tail, agent := .idle }
      resp := ⟨.dataRejected, .word 0⟩
      trace := s.trace ++ [.x run.req.unit.toNat filler (U.answer s.draws), .des run.req.unit.toNat,
        .respond (some run.req.unit.toNat) ⟨.dataRejected, .word 0⟩]
      draws := s.draws + 1 } := by
  have hresp := exec_request hi hr ((act_at hp).trans (congrArg _ (actDataResp_rejected (run := run) hrej)))
  rw [execTimes_of_exec hresp, execTimes_desFail
    (run := ⟨run.req, .desFail .dataRejected, { run.work with d := some (U.answer s.draws) }⟩) hi (hr.commit rfl) rfl]
  simp only [State.commit, List.set_set, List.append_assoc]
  rfl

/-- Settles O48, by the low five bits of the byte received. -/
theorem dataRejected : Obligations.DataRejected := by
  intro s unit offset count U run hi hr hp hrej
  obtain ⟨req, pos, w⟩ := run
  obtain rfl : req = writeRequest unit offset count := hi
  exact execTimes_dataRejected (Running.isOf_write unit offset count ..) hr hp (mt isAccepted_iff.1 hrej)

/-! ### Between sectors -/

/-- The registers of a sector under the invariant: its share is in `m`, and what is done and what is left make the
count (43_transfer.md R235, R245). -/
theorem Running.sector_regs {run : Running} {rem p : Word} (hsector : run.sectorOk) (hshare : run.shareOk)
    (hrem : run.work.rem = some rem) (hp : run.work.p = some p) :
    run.work.m = some (sectorShare rem) ∧ p.toNat + rem.toNat = run.req.count.toNat := by
  obtain ⟨rem', p', hrem', hp', -, hsum⟩ := hsector
  obtain ⟨rem'', hrem'', hm⟩ := hshare
  cases hrem.symm.trans hrem'
  cases hrem.symm.trans hrem''
  cases hp.symm.trans hp'
  exact ⟨hm, hsum⟩

/-- The index after a sector, on naturals (43_transfer.md R233, R243). -/
theorem nextBufferIndex_share (p rem : Word) :
    nextBufferIndex p (sectorShare rem) = BitVec.ofNat 32 (p.toNat + min rem.toNat 512) := by
  refine BitVec.eq_of_toNat_eq ?_
  rw [nextBufferIndex, BitVec.toNat_add, BitVec.toNat_setWidth, sectorShare_toNat, BitVec.toNat_ofNat]
  omega

theorem lessOneSector_eq {rem : Word} (h : 512 < rem.toNat) : lessOneSector rem = BitVec.ofNat 32 (rem.toNat - 512) :=
  BitVec.eq_of_toNat_eq (by rw [lessOneSector_toNat h, BitVec.toNat_ofNat]; omega)

theorem moreSectors_iff {rem : Word} : moreSectors rem = true ↔ 512 < rem.toNat := decide_eq_true_iff

/-- The place after the `Deselect` that ends a WRITE sector (43_transfer.md R243, R248). -/
theorem actDesSector_eq {run : Running} {rem p : Word} (hrem : run.work.rem = some rem) (hp : run.work.p = some p)
    (hm : run.work.m = some (sectorShare rem)) :
    actDesSector run = .ok (run.go .deselect
      (if 512 < rem.toNat then (.selSector, { run.work with
          p := some (BitVec.ofNat 32 (p.toNat + min rem.toNat 512)), rem := some (lessOneSector rem) })
        else (.selStop, { run.work with p := some (BitVec.ofNat 32 (p.toNat + min rem.toNat 512)) }))) := by
  simp only [actDesSector, hrem, hp, hm, need_some, nextBufferIndex_share, moreSectors_iff]

/-- `Deselect`, then the `Select` of the next transaction, which starts with a wait (43_transfer.md R244, R249). -/
theorem execTimes_deselect_select {i : Instr} {s : State} {U : UnitState} {run : Running} {next : Pos × Work}
    {site : WaitSite} (hi : run.IsOf i) (hr : s.Runs run.req.unit.toNat U run)
    (hdes : act s.cfg U.buf (Config.freeSectors s.draws) (U.answer s.draws) run = .ok (run.go .deselect next))
    (hsel : next.1 = .selSector ∧ site = .wdata ∨ next.1 = .selStop ∧ site = .wstop) :
    execTimes i 2 s = .next { s with
      units := s.units.set run.req.unit.toNat { U with
        agent := .running ⟨run.req, .wait site, { next.2 with i := some 0 }⟩ }
      trace := s.trace ++ [.des run.req.unit.toNat, .sel run.req.unit.toNat] } := by
  obtain ⟨pos, w⟩ := next
  have hact (cfg : Config) (buf : HostBuf) (free : Word) (b : Byte) :
      act cfg buf free b ⟨run.req, pos, w⟩ = .ok (Running.go ⟨run.req, pos, w⟩ .select (enterWait site w)) := by
    obtain ⟨rfl, rfl⟩ | ⟨rfl, rfl⟩ := hsel <;> rfl
  have hselect := exec_request (run := ⟨run.req, pos, w⟩) hi
    (hr.commit (a := run.go .deselect (pos, w)) (b := U.answer s.draws) rfl) (hact ..)
  rw [execTimes_of_exec (exec_request hi hr hdes), execTimes_of_exec hselect, execTimes]
  simp only [State.commit, List.set_set, List.append_assoc]
  rfl

/-- Settles O49: the place that each `Deselect` leads to, and the `Select` there. -/
theorem writeNextSector : Obligations.WriteNextSector := by
  intro s unit offset count U run hinv hi hr goOn
  obtain ⟨req, pos, w⟩ := run
  obtain rfl : req = writeRequest unit offset count := hi
  refine ⟨fun hpos => ?_, fun rem p hpos hrem hp => ?_⟩
  · exact execTimes_deselect_select (Running.isOf_write unit offset count ..) hr (act_at hpos) (.inl ⟨rfl, rfl⟩)
  · cases hpos
    obtain ⟨-, hsector, hshare⟩ := ((hinv.units _ U hr.1).2 _ hr.2).2
    obtain ⟨hm, -⟩ := Running.sector_regs hsector hshare hrem hp
    have hdes := actDesSector_eq hrem hp hm
    refine ⟨fun hmore => ?_, fun hlast => ?_⟩
    · rw [if_pos hmore, lessOneSector_eq hmore] at hdes
      exact execTimes_deselect_select (Running.isOf_write unit offset count ..) hr hdes (.inl ⟨rfl, rfl⟩)
    · rw [if_neg (Nat.not_lt.2 hlast)] at hdes
      exact execTimes_deselect_select (Running.isOf_write unit offset count ..) hr hdes (.inr ⟨rfl, rfl⟩)

/-- Settles O51: the last `Deselect` writes no class, and the response follows. -/
theorem transferCompletes : Obligations.TransferCompletes := by
  intro i s U run hi hr hp
  exact execTimes_deselect_respond (cls := none) hi hr (act_at hp)

end Sys2Proof.Machine
end

section
/-! SUPPORT. The 514 exchanges of a sector of READ or WRITE, as a chain of places, and the buffer bytes that they fill
or send (43_transfer.md R235, R236, R245, R246), with the proofs that settle O44 and O46. -/

namespace Sys2Proof.Machine

/-! ### Bytes stored in a row -/

/-- The buffer with `bytes` stored from index `p` on. -/
def HostBuf.fill (buf : HostBuf) (p : Nat) : List Byte → HostBuf
  | [] => buf
  | b :: bytes => (buf.store p b).fill (p + 1) bytes

@[simp] theorem HostBuf.fill_size (buf : HostBuf) (p : Nat) (bytes : List Byte) :
    (buf.fill p bytes).size = buf.size := by
  induction bytes generalizing buf p with
  | nil => rfl
  | cons b bytes ih => exact ih ..

/-- One more byte. -/
theorem HostBuf.fill_concat (buf : HostBuf) (p : Nat) (bytes : List Byte) (b : Byte) :
    buf.fill p (bytes ++ [b]) = (buf.fill p bytes).store (p + bytes.length) b := by
  induction bytes generalizing buf p with
  | nil => rfl
  | cons c bytes ih =>
    rw [List.length_cons, Nat.add_comm bytes.length, ← Nat.add_assoc]
    exact ih ..

section
variable {buf : HostBuf} {p : Nat} {bytes : List Byte}

/-- Every other byte of the buffer is as before (20_memory.md R79). -/
theorem HostBuf.load_fill_outside (hw : buf.wf = true) (hsize : p + bytes.length ≤ buf.size) {a : Nat}
    (ha : a < p ∨ p + bytes.length ≤ a) : (buf.fill p bytes).load a = buf.load a := by
  induction bytes generalizing buf p with
  | nil => rfl
  | cons b bytes ih =>
    rw [List.length_cons] at hsize ha
    have hp : p < buf.size := by omega
    rw [HostBuf.fill, ih (HostBuf.wf_store hw hp b) (by rw [HostBuf.store_size]; omega) (by omega),
      HostBuf.load_store hw hp, if_neg (by omega)]

/-- The bytes are read back in order (20_memory.md R71). -/
theorem HostBuf.load_fill_inside (hw : buf.wf = true) (hsize : p + bytes.length ≤ buf.size) {k : Nat}
    (hk : k < bytes.length) : (buf.fill p bytes).load (p + k) = bytes[k]? := by
  induction bytes generalizing buf p k with
  | nil => exact absurd hk (Nat.not_lt_zero k)
  | cons b bytes ih =>
    rw [List.length_cons] at hsize hk
    have hp : p < buf.size := by omega
    have hw' := HostBuf.wf_store hw hp b
    have hsize' : p + 1 + bytes.length ≤ (buf.store p b).size := by rw [HostBuf.store_size]; omega
    cases k with
    | zero => rw [HostBuf.fill, HostBuf.load_fill_outside hw' hsize' (by omega), HostBuf.load_store hw hp]; simp
    | succ k =>
      rw [HostBuf.fill, List.getElem?_cons_succ, ← ih hw' hsize' (by omega), Nat.add_right_comm, Nat.add_assoc]

end

/-! ### One sector of READ -/

/-- The agent after `n` payload bytes of a READ sector (43_transfer.md R235). -/
def readPlace (w : Work) (n : Nat) : Pos × Work := (if n < 512 then .readPayload n else .readSum 0, w)

/-- The store of the payload byte `b` after `n` others: the first `m` have one (43_transfer.md R235). -/
def payloadStore (p m n : Nat) (b : Byte) : Option (Nat × Byte) := if n < m then some (p + n, b) else none

theorem act_readPlace {req : Request} {w : Work} {p : Word} {m : BitVec 10} {n : Nat} {buf : HostBuf}
    (hp : w.p = some p) (hm : w.m = some m) (hsize : p.toNat + m.toNat ≤ buf.size) (hn : n < 512) (cfg : Config)
    (free : Word) (b : Byte) :
    act cfg buf free b ⟨req, (readPlace w n).1, (readPlace w n).2⟩ = .ok
      ⟨.exchange filler, .running ⟨req, (readPlace w (n + 1)).1, (readPlace w (n + 1)).2⟩, none, none,
        payloadStore p.toNat m.toNat n b⟩ := by
  simp only [readPlace, if_pos hn, act, actReadPayload, hp, hm, need_some, payloadStore]
  by_cases hlt : n < m.toNat
  · rw [if_pos hlt, if_pos hlt, if_pos (by omega)]
    rfl
  · rw [if_neg hlt, if_neg hlt]
    rfl

/-- The first `m` bytes of a payload, one by one. -/
theorem HostBuf.fill_take_succ (buf : HostBuf) (p m : Nat) {payload : List Byte} {n : Nat} (hn : n < payload.length) :
    buf.fill p (payload.take (min (n + 1) m)) =
      (buf.fill p (payload.take (min n m))).storeOpt (payloadStore p m n payload[n]) := by
  by_cases hlt : n < m
  · rw [payloadStore, if_pos hlt, Nat.min_eq_left (Nat.succ_le_of_lt hlt), Nat.min_eq_left hlt.le,
      ← List.take_concat_get' payload n hn, HostBuf.fill_concat, List.length_take_of_le hn.le]
    rfl
  · rw [payloadStore, if_neg hlt, Nat.min_eq_right (by omega), Nat.min_eq_right (by omega)]
    rfl

/-- The record of a unit with `bytes` stored in its buffer from index `p` on. -/
def UnitState.filled (U : UnitState) (p : Nat) (bytes : List Byte) : UnitState := { U with buf := U.buf.fill p bytes }

section
variable {s : State} {u : Nat} {U V : UnitState} {run run' : Running} {es : List Event} {d : Diag}

/-- The record replaced may hold another buffer than the unit's before. -/
theorem State.Runs.afterExchanges_record (h : s.Runs u U run) :
    (s.afterExchanges u V es run' d).Runs u (V.afterExchanges es.length run') run' :=
  ⟨List.getElem?_set_self (List.getElem?_eq_some_iff.1 h.1).1, rfl⟩

/-- One more exchange, the byte received perhaps stored. -/
theorem State.commit_store_afterExchanges {out b : Byte} {store : Option (Nat × Byte)} :
    (s.afterExchanges u V es run d).commit u (V.afterExchanges es.length run) b
        ⟨.exchange out, .running run', none, none, store⟩ =
      s.afterExchanges u { V with buf := V.buf.storeOpt store } (es ++ [.x u out b]) run' d := by
  simp only [State.commit, State.afterExchanges, UnitState.afterExchanges, UnitState.after, Prim.isExchange, if_true,
    List.tail_drop, List.set_set, List.append_assoc, List.length_append, List.length_singleton, Nat.add_assoc]
  rfl

end

section
variable {i : Instr} {s : State} {U : UnitState} {req : Request} {w : Work} {payload sums rest : List Byte}
  {rem p : Word} {m : BitVec 10}

/-- The first `n` payload bytes: as many exchanges of `0xFF`, and those below `m` are stored in order
(43_transfer.md R235). -/
theorem execTimes_readPayload (hi : Running.IsOf ⟨req, .readPayload 0, w⟩ i)
    (hr : s.Runs req.unit.toNat U ⟨req, .readPayload 0, w⟩) (hp : w.p = some p) (hm : w.m = some m)
    (hsize : p.toNat + m.toNat ≤ U.buf.size) (hin : U.inbound = payload ++ rest) (hlen : payload.length = 512) {n : Nat}
    (hn : n ≤ 512) :
    execTimes i n s = .next (s.afterExchanges req.unit.toNat
      (U.filled p.toNat (payload.take (min n m.toNat)))
      ((payload.take n).map (.x req.unit.toNat filler)) ⟨req, (readPlace w n).1, (readPlace w n).2⟩ s.diag) := by
  induction n with
  | zero =>
    rw [Nat.zero_min]
    exact congrArg Host.Outcome.next (State.afterExchanges_nil hr).symm
  | succ n ih =>
    have hlt : n < payload.length := hlen ▸ hn
    have hbyte : (U.filled p.toNat (payload.take (min n m.toNat))).inbound =
        payload.take n ++ payload[n] :: (payload.drop (n + 1) ++ rest) := by
      rw [UnitState.filled, hin, ← List.cons_append, List.cons_getElem_drop_succ, ← List.append_assoc,
        List.take_append_drop]
    have hlength : ((payload.take n).map (Event.x req.unit.toNat filler)).length = (payload.take n).length :=
      List.length_map _
    have hx := exec_request (run := ⟨req, (readPlace w n).1, (readPlace w n).2⟩) hi
      (hr.afterExchanges_record (V := U.filled p.toNat (payload.take (min n m.toNat)))
        (es := (payload.take n).map (.x req.unit.toNat filler)) (d := s.diag))
      (act_readPlace hp hm (hsize.trans_eq (HostBuf.fill_size ..).symm) hn ..)
    rw [State.commit_store_afterExchanges, answer_of_inbound hbyte hlength] at hx
    rw [UnitState.filled, HostBuf.fill_take_succ _ _ _ hlt, ← List.take_concat_get' payload n hlt, List.map_append]
    exact execTimes_succ_of (ih (Nat.le_of_succ_le hn)) hx

/-- The place after a READ sector: the next sector's wait, or CMD12's (43_transfer.md R233, R237). -/
def afterReadSector (w : Work) (rem p : Word) : Pos × Work :=
  if 512 < rem.toNat then
    (.wait .readStart, { w with
      p := some (BitVec.ofNat 32 (p.toNat + min rem.toNat 512)), rem := some (BitVec.ofNat 32 (rem.toNat - 512))
      i := some 0 })
  else
    (.call .readStop .preWait, { w with p := some (BitVec.ofNat 32 (p.toNat + min rem.toNat 512)), i := some 0 })

/-- The agent after `n` checksum bytes of a READ sector (43_transfer.md R236). -/
def readSumPlace (w : Work) (rem p : Word) (n : Nat) : Pos × Work :=
  if n < 2 then (.readSum n, w) else afterReadSector w rem p

theorem actReadSum_last {run : Running} (hrem : run.work.rem = some rem) (hp : run.work.p = some p)
    (hm : run.work.m = some (sectorShare rem)) :
    actReadSum run 1 = .ok (run.go (.exchange filler) (afterReadSector run.work rem p)) := by
  simp only [actReadSum, checksumBytes, Nat.lt_irrefl, if_false, hrem, hp, hm, need_some, nextBufferIndex_share,
    moreSectors_iff, afterReadSector]
  by_cases hmore : 512 < rem.toNat
  · rw [if_pos hmore, if_pos hmore, lessOneSector_eq hmore]
    rfl
  · rw [if_neg hmore, if_neg hmore]
    rfl

theorem act_readSumPlace (hrem : w.rem = some rem) (hp : w.p = some p) (hm : w.m = some (sectorShare rem)) {n : Nat}
    (hn : n < 2) (cfg : Config) (buf : HostBuf) (free : Word) (b : Byte) :
    act cfg buf free b ⟨req, (readSumPlace w rem p n).1, (readSumPlace w rem p n).2⟩ = .ok
      (Running.exchange ⟨req, (readSumPlace w rem p n).1, (readSumPlace w rem p n).2⟩ filler
        (readSumPlace w rem p (n + 1)) none) := by
  obtain rfl | rfl : n = 0 ∨ n = 1 := by omega
  · rfl
  · exact actReadSum_last (run := ⟨req, .readSum 1, w⟩) hrem hp hm

/-- A whole sector of READ: the payload, then the checksum (43_transfer.md R233 to R236). -/
theorem execTimes_readSector (hi : Running.IsOf ⟨req, .readPayload 0, w⟩ i)
    (hr : s.Runs req.unit.toNat U ⟨req, .readPayload 0, w⟩) (hrem : w.rem = some rem) (hp : w.p = some p)
    (hm : w.m = some (sectorShare rem)) (hsize : p.toNat + min rem.toNat 512 ≤ U.buf.size)
    (hin : U.inbound = payload ++ sums ++ rest) (hlen : payload.length = 512) (hsums : sums.length = 2) :
    execTimes i 514 s = .next (s.afterExchanges req.unit.toNat
      (U.filled p.toNat (payload.take (min rem.toNat 512)))
      ((payload ++ sums).map (.x req.unit.toNat filler))
      ⟨req, (afterReadSector w rem p).1, (afterReadSector w rem p).2⟩ s.diag) := by
  rw [List.append_assoc] at hin
  have hpayload := execTimes_readPayload hi hr hp hm (by rwa [sectorShare_toNat]) hin hlen le_rfl
  rw [sectorShare_toNat, Nat.min_eq_right (Nat.min_le_right ..), List.take_of_length_le hlen.le] at hpayload
  have hrun := hr.afterExchanges_record (V := U.filled p.toNat (payload.take (min rem.toNat 512)))
    (es := payload.map (.x req.unit.toNat filler)) (d := s.diag) (run' := ⟨req, .readSum 0, w⟩)
  have hsum := execTimes_receive (i := i) (place := readSumPlace w rem p) (bytes := sums) (rest := rest) hi hrun
    (by simp [UnitState.afterExchanges, UnitState.filled, hin])
    fun k hk free => act_readSumPlace hrem hp hm (hsums ▸ hk) ..
  rw [hsums] at hsum
  rw [List.map_append]
  exact execTimes_afterExchanges_trans hpayload hsum

end

/-- Settles O44: the sector's exchanges, and what the stores in a row leave in the buffer. -/
theorem readSector : Obligations.ReadSector := by
  intro s unit offset count U run payload sums rest rem p hinv hi hr hpos hrem hp hin hlen hsums m
  obtain ⟨req, pos, w⟩ := run
  obtain rfl : req = readRequest unit offset count := hi
  cases hpos
  obtain ⟨hbuf, hrun⟩ := hinv.units _ U hr.1
  obtain ⟨-, ⟨-, -, -, hcount⟩, hsector, hshare, -⟩ := hrun _ hr.2
  obtain ⟨hm, hsum⟩ := Running.sector_regs hsector hshare hrem hp
  have hsize : p.toNat + m ≤ U.buf.size := by omega
  have htake : (payload.take m).length = m := List.length_take_of_le (by omega)
  have hx := execTimes_readSector (i := .read unit offset count) rfl hr hrem hp hm hsize hin hlen hsums
  refine ⟨_, _, _, hx, rfl, rfl, rfl, ?_, rfl, rfl, HostBuf.fill_size .., fun k hk => ?_, fun a ha => ?_, ?_,
    fun hmore => ?_, fun hlast => ?_⟩
  · rw [UnitState.afterExchanges_of_inbound (U := U.filled ..) hin (List.length_map _)]
  · exact (HostBuf.load_fill_inside hbuf (by rwa [htake]) (by rwa [htake])).trans (List.getElem?_take_of_lt hk)
  · exact HostBuf.load_fill_outside hbuf (by rwa [htake]) (by rwa [htake])
  · rw [afterReadSector]
    split <;> rfl
  · rw [afterReadSector, if_pos hmore]
    exact ⟨rfl, rfl, rfl⟩
  · rw [afterReadSector, if_neg (Nat.not_lt.2 hlast)]
    exact ⟨rfl, rfl⟩

/-! ### One sector of WRITE -/

/-- Byte `k` that a WRITE sector sends: the first `m` are the buffer's from `p` on, the rest fillers (43_transfer.md
R245, R246). -/
def HostBuf.sectorByte (buf : HostBuf) (p m k : Nat) : Byte := if k < m then (buf.load (p + k)).getD filler else filler

theorem HostBuf.sectorByte_share {buf : HostBuf} {p m k : Nat} (hsize : p + m ≤ buf.size) (hk : k < m) :
    buf.load (p + k) = some (buf.sectorByte p m k) := by
  rw [HostBuf.sectorByte, if_pos hk, HostBuf.load, if_pos (by omega), Option.getD_some]

theorem HostBuf.sectorByte_filler {buf : HostBuf} {p m k : Nat} (hk : m ≤ k) : buf.sectorByte p m k = filler :=
  if_neg (Nat.not_lt.2 hk)

/-- The agent after `n` bytes of a WRITE sector. -/
def writePlace (w : Work) (n : Nat) : Pos × Work :=
  (if n < 512 then .writePayload n else if n < 514 then .writeSum (n - 512) else .dataResp, w)

theorem actWritePayload_eq {buf : HostBuf} {run : Running} {p : Word} {m : BitVec 10} (hp : run.work.p = some p)
    (hm : run.work.m = some m) (hsize : p.toNat + m.toNat ≤ buf.size) (k : Nat) :
    actWritePayload buf run k = .ok (run.go (.exchange (buf.sectorByte p.toNat m.toNat k))
      (if k + 1 < 512 then .writePayload (k + 1) else .writeSum 0, run.work)) := by
  simp only [actWritePayload, hp, hm, need_some]
  by_cases hk : k < m.toNat
  · rw [if_pos hk, HostBuf.sectorByte_share hsize hk]
    rfl
  · rw [if_neg hk, HostBuf.sectorByte_filler (Nat.not_lt.1 hk)]
    rfl

theorem act_writePlace {req : Request} {w : Work} {p : Word} {m : BitVec 10} {buf : HostBuf} (hp : w.p = some p)
    (hm : w.m = some m) (hshare : m.toNat ≤ 512) (hsize : p.toNat + m.toNat ≤ buf.size) {n : Nat} (hn : n < 514)
    (cfg : Config) (free : Word) (b : Byte) :
    act cfg buf free b ⟨req, (writePlace w n).1, (writePlace w n).2⟩ = .ok
      (Running.exchange ⟨req, (writePlace w n).1, (writePlace w n).2⟩ (buf.sectorByte p.toNat m.toNat n)
        (writePlace w (n + 1)) none) := by
  by_cases hpay : n < 512
  · have hplace : writePlace w n = (.writePayload n, w) := by rw [writePlace, if_pos hpay]
    have hnext : writePlace w (n + 1) = (if n + 1 < 512 then .writePayload (n + 1) else .writeSum 0, w) := by
      obtain rfl | hlt : n = 511 ∨ n + 1 < 512 := by omega
      · rfl
      · rw [writePlace, if_pos hlt, if_pos hlt]
    rw [hplace, hnext]
    exact actWritePayload_eq (run := ⟨req, .writePayload n, w⟩) hp hm hsize n
  · rw [HostBuf.sectorByte_filler (by omega)]
    obtain rfl | rfl : n = 512 ∨ n = 513 := by omega
    · rfl
    · rfl

theorem mapIdx_map_range {α β : Type} (f : Nat → α) (g : Nat → α → β) (n : Nat) :
    ((List.range n).map f).mapIdx g = (List.range n).map fun k => g k (f k) := by
  refine List.ext_getElem (by simp) fun k _ _ => ?_
  simp only [List.getElem_mapIdx, List.getElem_map, List.getElem_range]

/-- Settles O46: 514 exchanges in a row. -/
theorem writeSector : Obligations.WriteSector := by
  intro s unit offset count U run rem p hinv hi hr hpos hrem hp m
  obtain ⟨req, pos, w⟩ := run
  obtain rfl : req = writeRequest unit offset count := hi
  cases hpos
  obtain ⟨-, ⟨-, -, -, hcount⟩, hsector, hshare, -⟩ := (hinv.units _ U hr.1).2 _ hr.2
  obtain ⟨hm, hsum⟩ := Running.sector_regs hsector hshare hrem hp
  have hmn : (sectorShare rem).toNat = m := sectorShare_toNat rem
  have hsize : p.toNat + m ≤ U.buf.size := by omega
  have hx := execTimes_exchanges (i := .write unit offset count) (n := 514) (place := writePlace w)
    (out := U.buf.sectorByte p.toNat m) rfl hr fun k hk free =>
      hmn ▸ act_writePlace hp hm (by omega) (by rwa [hmn]) hk ..
  have hdata (k : Nat) (hk : k < 514) :
      ((List.range 514).map (U.buf.sectorByte p.toNat m))[k]? = some (U.buf.sectorByte p.toNat m k) := by
    rw [List.getElem?_map, List.getElem?_range hk, Option.map_some]
  refine ⟨(List.range 514).map (U.buf.sectorByte p.toNat m), by rw [List.length_map, List.length_range],
    fun k hk => ?_, fun k hmk hk => ?_, hx.trans ?_⟩
  · rw [hdata k (by omega), HostBuf.sectorByte_share hsize hk]
  · rw [hdata k hk, HostBuf.sectorByte_filler hmk]
    rfl
  · rw [mapIdx_map_range, State.afterExchanges, List.length_map, List.length_range]
    rfl

end Sys2Proof.Machine
end

section
/-! SUPPORT. Host requests that are answered at once (44_host.md R280, R281, R285), with the proofs that settle O5,
O16 and O23. -/

namespace Sys2Proof

/-- Settles O5: the record's bytes give back its fields, and `op` decides. -/
theorem hostRecordDecodes : Obligations.HostRecordDecodes :=
  decode_request

end Sys2Proof

namespace Sys2Proof.Machine

section
variable {s : State} {unit : BitVec 8}

/-- A request to a unit that does not exist is answered `BadUnit` (44_host.md R281). -/
theorem hostRequest_absent {req : Request} {start : UnitState → StepOutcome} (h : s.units[req.unit.toNat]? = none) :
    hostRequest req none start s = .next (s.respond (some req.unit.toNat) ⟨.badUnit, .word 0⟩) := by
  simp only [hostRequest, h, ifDutiful]

theorem exec_shutdown_absent (h : s.units[unit.toNat]? = none) :
    exec (.shutdown unit) s = .next (s.respond (some unit.toNat) ⟨.badUnit, .word 0⟩) := by
  simp only [exec, execShutdown, h]

theorem exec_shutdown_idle {V : UnitState} (hV : s.units[unit.toNat]? = some V) (hi : V.agent = .idle) :
    exec (.shutdown unit) s = .next
      ((s.setUnit unit.toNat { V with cls := .unknown }).respond (some unit.toNat) ⟨.ok, .word 0⟩) := by
  simp only [exec, execShutdown, hV, hi]

end

/-- Settles O16: a unit number at or above the number of records names none. -/
theorem badUnit : Obligations.BadUnit := by
  intro s unit offset count hu i hi
  have hnone : s.units[unit.toNat]? = none := List.getElem?_eq_none hu
  have hduty (h1 : 1 ≤ count.toNat) (hb : count.toNat ≤ s.port.buf.size) : transferDuty count s.port.buf = none :=
    transferDuty_eq_none.2 ⟨Word.ne_zero_of_pos h1, hb⟩
  obtain rfl | rfl | ⟨h1, hb, rfl | rfl⟩ := hi
  · exact hostRequest_absent hnone
  · exact exec_shutdown_absent hnone
  · rw [exec, execRead, hduty h1 hb]
    exact hostRequest_absent hnone
  · rw [exec, execWrite, hduty h1 hb]
    exact hostRequest_absent hnone

/-- Settles O23: after it the unit is idle and its class `UNKNOWN`, so that the class check answers a transfer. -/
theorem shutdown : Obligations.Shutdown := by
  intro s unit
  refine ⟨fun hu => exec_shutdown_absent (List.getElem?_eq_none hu), fun V hV hi => ?_⟩
  refine ⟨_, exec_shutdown_idle hV hi, rfl, fun offset count h1 hb i hmem => ?_⟩
  have hunit : (s.units.set unit.toNat { V with cls := .unknown })[unit.toNat]? = some { V with cls := .unknown } :=
    List.getElem?_set_self (List.getElem?_eq_some_iff.1 hV).1
  exact (notReady _ unit offset count { V with cls := .unknown } hunit hi i hmem).1 rfl (Word.ne_zero_of_pos h1) hb

end Sys2Proof.Machine
end

section
/-! SUPPORT. DIAG (44_host.md R286): one sample a step while a unit runs, the nine counters at once else; and what
SHUTDOWN and DIAG leave unchanged (R285, R286). With the proofs that settle O24, O25 and O57. -/

namespace Sys2Proof.Machine

/-! ### The samples -/

/-- A counter sampled once is reported at the value sampled. -/
theorem Diag.get_ofSamples {taken : List (Phase × Word)} (h : (taken.map Prod.fst).Nodup) :
    ∀ x ∈ taken, (Diag.ofSamples taken).get x.1 = x.2 := by
  induction taken using List.reverseRecOn with
  | nil => exact fun x hx => absurd hx List.not_mem_nil
  | append_singleton taken y ih =>
    rw [List.map_append, List.nodup_append'] at h
    obtain ⟨hnodup, -, hdisj⟩ := h
    intro x hx
    rw [Diag.ofSamples, List.foldl_concat, Diag.get_set]
    obtain hx | hx := List.mem_append.1 hx
    · have hne : x.1 ≠ y.1 := fun he => hdisj (List.mem_map_of_mem hx) (by simp [he])
      rw [if_neg hne]
      exact ih hnodup x hx
    · rw [List.mem_singleton.1 hx, if_pos rfl]

/-- Each of the nine counters is sampled or not. -/
theorem le_length_add_unsampled (taken : List (Phase × Word)) : 9 ≤ taken.length + (unsampled taken).length := by
  have hsub : Phase.all ⊆ taken.map Prod.fst ++ unsampled taken := fun k _ =>
    List.mem_append.2 (or_iff_not_imp_left.2 mem_unsampled.2)
  simpa [Phase.all] using (List.subperm_of_subset (by decide : Phase.all.Nodup) hsub).length_le

section
variable {s : State} {taken : List (Phase × Word)}

/-- With two counters or more to come, a step of DIAG takes one more sample. -/
theorem sampleCounter_more (h : 2 ≤ (unsampled taken).length) : ∃ k ∈ unsampled taken,
    sampleCounter taken s = { s.dropChoice with diagRead := some (taken ++ [(k, s.diag.get k)]) } := by
  unfold sampleCounter
  split
  next hu => simp [hu] at h
  next k hu => simp [hu] at h
  next k l hne hu =>
    have hlt : s.choice % (k :: l).length < (k :: l).length := Nat.mod_lt _ (Nat.succ_pos _)
    refine ⟨_, ?_, rfl⟩
    rw [hu, List.getD_eq_getElem _ _ hlt]
    exact List.getElem_mem hlt

/-- With one counter to come, a step of DIAG ends it. -/
theorem sampleCounter_last {k : Phase} (h : unsampled taken = [k]) :
    sampleCounter taken s = s.respondDiag (Diag.ofSamples (taken ++ [(k, s.diag.get k)])) := by
  simp only [sampleCounter, h]

/-- A step of DIAG responds or takes a sample. -/
theorem sampleCounter_cases (taken : List (Phase × Word)) (s : State) :
    (∃ d, sampleCounter taken s = s.respondDiag d) ∨
      ∃ taken', sampleCounter taken s = { s.dropChoice with diagRead := some taken' } := by
  unfold sampleCounter
  split
  · exact .inl ⟨_, rfl⟩
  · exact .inl ⟨_, rfl⟩
  · exact .inr ⟨_, rfl⟩

/-! ### The step of DIAG -/

theorem exec_diag_in_flight (h : s.diagRead = some taken) : exec .diag s = .next (sampleCounter taken s) := by
  simp only [exec, execDiag, h]

/-- A DIAG taken while a unit runs samples its first counter at once (log 14). -/
theorem exec_diag_busy {V : UnitState} {run : Running} (h : s.diagRead = none) (hV : V ∈ s.units)
    (hr : V.agent = .running run) : exec .diag s = .next (sampleCounter [] s) := by
  have hbusy : s.units.any UnitState.busy = true := List.any_eq_true.2 ⟨V, hV, by rw [UnitState.busy, hr]⟩
  simp only [exec, execDiag, h, hbusy, if_true]

theorem exec_diag_quiet (h : s.diagRead = none) (hidle : ∀ U ∈ s.units, UnitState.agent U = .idle) :
    exec .diag s = .next (s.respondDiag s.diag) := by
  have hbusy : s.units.any UnitState.busy = false := List.any_eq_false.2 fun U hU => by
    rw [UnitState.busy, hidle U hU]
    exact Bool.false_ne_true
  simp only [exec, execDiag, h, hbusy, Bool.false_eq_true, if_false]

theorem State.respondDiag_of_none (h : s.diagRead = none) (d : Diag) :
    s.respondDiag d = s.respond none ⟨.ok, .counters d⟩ := by
  rw [State.respondDiag, ← h]
  rfl

end

/-- Settles O24: no unit runs, so the response is given at once, and no DIAG was in flight before or after it. -/
theorem diagQuiet : Obligations.DiagQuiet := by
  intro s h hidle
  rw [exec_diag_quiet h hidle, State.respondDiag_of_none h]
  rfl

/-- Settles O25: below eight samples two counters or more are to come, after eight the last one is. -/
theorem diagSamples : Obligations.DiagSamples := by
  rintro s taken hdiag ⟨hnodup, hlt, -⟩
  have hexec : exec .diag s = .next (sampleCounter taken s) := by
    obtain h | ⟨h, rfl, V, hV, run, hr⟩ := hdiag
    · exact exec_diag_in_flight h
    · exact exec_diag_busy h hV hr
  have hnew {k : Phase} (hk : k ∈ unsampled taken) : ∀ x ∈ taken, x.1 ≠ k := fun x hx he =>
    mem_unsampled.1 hk (he ▸ List.mem_map_of_mem hx)
  have hmin := le_length_add_unsampled taken
  have hmax := length_add_unsampled_le hnodup
  by_cases h8 : taken.length < 8
  · obtain ⟨k, hk, hs⟩ := sampleCounter_more (s := s) (taken := taken) (by omega)
    refine ⟨_, k, hexec.trans (congrArg _ hs), hnew hk, rfl, rfl, rfl, rfl, rfl, fun _ => ⟨rfl, rfl, rfl⟩,
      fun h => absurd h (by omega)⟩
  · obtain ⟨k, hu⟩ := List.length_eq_one_iff.1 (by omega : (unsampled taken).length = 1)
    have hk : k ∈ unsampled taken := by rw [hu]; exact List.mem_singleton_self k
    have hsampled : ((taken ++ [(k, s.diag.get k)]).map Prod.fst).Nodup := by
      rw [List.map_append, List.map_singleton]
      exact hnodup.append (List.nodup_singleton k) (List.disjoint_singleton.2 (mem_unsampled.1 hk))
    have hget := Diag.get_ofSamples hsampled
    refine ⟨_, k, hexec.trans (congrArg _ (sampleCounter_last hu)), hnew hk, rfl, rfl, rfl, rfl, rfl,
      fun h => absurd h h8, fun _ => ⟨rfl, _, rfl, rfl, ?_, fun x hx => ?_⟩⟩
    · exact hget (k, s.diag.get k) (List.mem_append_right _ (List.mem_singleton_self _))
    · exact hget x (List.mem_append_left _ hx)

/-! ### What SHUTDOWN and DIAG leave unchanged -/

/-- DIAG responds, or takes a sample and uses up a choice. -/
theorem DiagMoves.cases {s t : State} (h : DiagMoves s t) :
    (∃ d, t = s.respondDiag d) ∨ ∃ taken, t = { s.dropChoice with diagRead := some taken } := by
  cases h with
  | atOnce h => exact .inl ⟨_, rfl⟩
  | sample h => exact sampleCounter_cases _ s

/-- SHUTDOWN responds, and of an idle unit it changes the class (44_host.md R285). -/
theorem exec_shutdown_next {s t : State} {unit : BitVec 8} (h : exec (.shutdown unit) s = .next t) :
    ∃ s' r, t = s'.respond (some unit.toNat) r ∧ (s' = s ∨
      ∃ V, s.units[unit.toNat]? = some V ∧ s' = s.setUnit unit.toNat { V with cls := .unknown }) := by
  simp only [exec, execShutdown] at h
  split at h
  · cases h
    exact ⟨_, _, rfl, .inl rfl⟩
  · rename_i V hV
    split at h
    · cases h
    · cases h
      exact ⟨_, _, rfl, .inr ⟨V, hV, rfl⟩⟩

/-- Settles O57, by what DIAG and SHUTDOWN can answer: of the units' records only a class changes. -/
theorem shutdownDiagFrame : Obligations.ShutdownDiagFrame := by
  rintro s t i hi h
  have same {v : Nat} {U T : UnitState} {outside : Prop} (hu : t.units = s.units) (hU : s.units[v]? = some U)
      (hT : t.units[v]? = some T) :
      T.agent = U.agent ∧ T.buf = U.buf ∧ T.inbound = U.inbound ∧ (outside → T.cls = U.cls) := by
    rw [hu] at hT
    cases hU.symm.trans hT
    exact ⟨rfl, rfl, rfl, fun _ => rfl⟩
  obtain rfl | ⟨unit, rfl⟩ := hi
  · obtain ⟨t', ht', hm⟩ := execDiag_moves s
    cases ht'.symm.trans h
    obtain ⟨d, rfl⟩ | ⟨taken, rfl⟩ := hm.cases
    · exact ⟨rfl, rfl, rfl, rfl, rfl, rfl, fun _ _ _ => same rfl, .inr ⟨_, _, rfl⟩⟩
    · exact ⟨rfl, rfl, rfl, rfl, rfl, rfl, fun _ _ _ => same rfl, .inl rfl⟩
  · obtain ⟨s', r, rfl, rfl | ⟨V, hV, rfl⟩⟩ := exec_shutdown_next h
    · exact ⟨rfl, rfl, rfl, rfl, rfl, rfl, fun _ _ _ => same rfl, .inr ⟨_, _, rfl⟩⟩
    · refine ⟨rfl, rfl, rfl, rfl, rfl, List.length_set, fun v U T hU hT => ?_, .inr ⟨_, _, rfl⟩⟩
      by_cases hTU : T = U
      · subst hTU
        exact ⟨rfl, rfl, rfl, fun _ => rfl⟩
      · obtain ⟨rfl, rfl⟩ := eq_of_getElem?_set_ne hT hU hTU
        cases hU.symm.trans hV
        exact ⟨rfl, rfl, rfl, fun hout => absurd rfl (hout unit rfl)⟩

end Sys2Proof.Machine
end

section
/-! SUPPORT. What INIT, READ and WRITE leave unchanged (44_host.md R282 to R284; 20_memory.md R72, R79), with the
proofs that settle O54 to O56. -/

namespace Sys2Proof.Machine

/-! ### The step of a request -/

/-- The record `W` and the run with which a step of the request `req` of the unit of record `V` performs its primitive:
the unit's own, or those of a start. -/
inductive RunsWith (s : State) (V : UnitState) (req : Request) : UnitState → Running → Prop
  | own {run : Running} (hr : V.agent = .running run) (hq : run.req = req) : RunsWith s V req V run
  | start {U : UnitState} {pos : Pos} {w : Work} (hi : V.agent = .idle) (hs : Starts s V req U pos w) :
      RunsWith s V req { U with agent := .running ⟨req, pos, w⟩ } ⟨req, pos, w⟩

/-- What a step of the request `req` does: a response without a running agent, or a primitive of its unit. -/
inductive RequestMoves (s : State) (req : Request) : State → Prop
  | responds (r : Response) : RequestMoves s req (s.respond (some req.unit.toNat) r)
  | acts {V W : UnitState} {run : Running} {b : Byte} {a : Action} (hV : s.units[req.unit.toNat]? = some V)
      (hW : RunsWith s V req W run) (ha : act s.cfg W.buf (Config.freeSectors s.draws) b run = .ok a) :
      RequestMoves s req (s.commit req.unit.toNat W b a)

section
variable {s t : State} {req : Request}

theorem Starts.requestMoves {V U : UnitState} {pos : Pos} {w : Work} (hs : Starts s V req U pos w)
    (hV : s.units[req.unit.toNat]? = some V) (hi : V.agent = .idle) (h : startRequest req U pos w s = .next t) :
    RequestMoves s req t := by
  obtain ⟨a, ha, rfl⟩ := performRun_eq_next.1 h
  exact .acts hV (.start hi hs) ha

theorem hostRequest_moves {broken : Option Refusal} {start : UnitState → StepOutcome}
    (h : hostRequest req broken start s = .next t)
    (hstart : ∀ V, broken = none → s.units[req.unit.toNat]? = some V → V.agent = .idle → start V = .next t →
      RequestMoves s req t) : RequestMoves s req t := by
  obtain ⟨-, -, rfl⟩ | ⟨U, run, hU, hr, hq, h⟩ | ⟨hb, V, hV, hi, h⟩ := hostRequest_next h
  · exact .responds _
  · obtain ⟨a, ha, rfl⟩ := performRun_eq_next.1 h
    exact .acts hU (.own hr hq) ha
  · exact hstart V hb hV hi h

theorem startTransfer_moves {V : UnitState} {pos : Pos} {w : Work} (hV : s.units[req.unit.toNat]? = some V)
    (hi : V.agent = .idle) (hs : V.cls ≠ .unknown → Starts s V req { V with buf := s.port.buf } pos w)
    (h : startTransfer req pos w s V = .next t) : RequestMoves s req t := by
  obtain ⟨-, rfl⟩ | ⟨hc, h⟩ := startTransfer_next h
  · exact .responds _
  · exact (hs hc).requestMoves hV hi h

theorem exec_init_moves {unit : BitVec 8} (h : exec (.init unit) s = .next t) : RequestMoves s (initRequest unit) t :=
  hostRequest_moves h fun _ _ hV hi h => (Starts.init unit).requestMoves hV hi h

theorem exec_read_moves {unit : BitVec 8} {offset count : Word} (h : exec (.read unit offset count) s = .next t) :
    RequestMoves s (readRequest unit offset count) t :=
  hostRequest_moves h fun _ hb hV hi h =>
    have ⟨h0, hsize⟩ := transferDuty_eq_none.1 hb
    startTransfer_moves hV hi (fun hc => .read unit offset count hc h0 hsize) h

theorem exec_write_moves {unit : BitVec 8} {offset count : Word} (h : exec (.write unit offset count) s = .next t) :
    RequestMoves s (writeRequest unit offset count) t :=
  hostRequest_moves h fun _ hb hV hi h =>
    have ⟨h0, hsize⟩ := transferDuty_eq_none.1 hb
    startTransfer_moves hV hi (fun hc => .write unit offset count hc h0 hsize) h

/-- From a legal state the primitive stands at a legal position of the request, and the buffer is in canonical form. -/
theorem RunsWith.ok {V W : UnitState} {run : Running} (h : RunsWith s V req W run) (hinv : s.Inv)
    (hV : s.units[req.unit.toNat]? = some V) : run.req = req ∧ run.ok s.cfg W ∧ W.buf.wf = true := by
  obtain ⟨hbuf, hrun⟩ := hinv.units _ V hV
  cases h with
  | own hr hq => exact ⟨hq, (hrun run hr).2, hbuf⟩
  | start hi hs =>
    obtain ⟨hwf, hok⟩ := hs.unit_ok (cfg := s.cfg) hbuf hinv.portBuf
    exact ⟨rfl, (hok _ rfl).2, hwf⟩

/-- A start takes no buffer but the request's (44_host.md R280). -/
theorem RunsWith.buf_of_idle {V W : UnitState} {run : Running} (h : RunsWith s V req W run) (hi : V.agent = .idle) :
    W.buf = V.buf ∨ W.buf = s.port.buf := by
  cases h with
  | own hr hq => cases hi.symm.trans hr
  | start hi hs =>
    cases hs with
    | init => exact .inl rfl
    | read | write => exact .inr rfl

theorem RunsWith.eq_of_running {V W : UnitState} {run run' : Running} (h : RunsWith s V req W run)
    (hr : V.agent = .running run') : W = V ∧ run = run' := by
  cases h with
  | own hr' hq =>
    cases hr.symm.trans hr'
    exact ⟨rfl, rfl⟩
  | start hi hs => cases hi.symm.trans hr

/-- Only INIT starts with another class (41_init.md R187). -/
theorem RunsWith.op_or_cls {V W : UnitState} {run : Running} (h : RunsWith s V req W run) :
    req.op = opInit ∨ W.cls = V.cls := by
  cases h with
  | own hr hq => exact .inr rfl
  | start hi hs => exact hs.op_or_cls

/-- INIT starts with the unit's buffer (44_host.md R280). -/
theorem RunsWith.buf_of_init {V W : UnitState} {unit : BitVec 8} {run : Running}
    (h : RunsWith s V (initRequest unit) W run) : W.buf = V.buf := by
  cases h with
  | own hr hq => rfl
  | start hi hs =>
    generalize hreq : initRequest unit = req at hs
    cases hs with
    | init => rfl
    | read | write => cases hreq

end

/-! ### The counters and the buffer under a primitive -/

/-- The host `op` of a family's requests (44_host.md R280). -/
def Family.op : Family → BitVec 3
  | .init => opInit
  | .read => opRead
  | .write => opWrite

theorem Family.holdsFor_op {f : Family} {U : UnitState} {req : Request} (h : f.holdsFor U req) : req.op = f.op := by
  cases f with
  | init => exact congrArg Request.op h.1
  | read | write => exact h.1

theorem Family.op_injective {f g : Family} (h : f.op = g.op) : f = g := by
  revert h
  cases f <;> cases g <;> decide

/-- The counters that the waits of a family's pseudocode update (44_host.md R282 to R284). -/
def Family.phases : Family → List Phase
  | .init => [.waitCmd, .cmd, .sendOp, .csd]
  | .read => [.waitCmd, .cmd, .readStart]
  | .write => [.waitCmd, .cmd, .wdata, .wdone, .wstop, .widle]

theorem Family.waitCmd_mem_phases (f : Family) : .waitCmd ∈ f.phases := by cases f <;> decide

theorem Family.cmd_mem_phases (f : Family) : .cmd ∈ f.phases := by cases f <;> decide

theorem WaitSite.phase_mem_phases (site : WaitSite) : site.phase ∈ site.family.phases := by cases site <;> decide

section
variable {cfg : Config} {U : UnitState} {run : Running} {buf : HostBuf} {free : Word} {b : Byte} {a : Action}

/-- At a legal position the wait that ends is one of the request's family. -/
theorem Running.WaitEnds.mem_phases {k : Phase} {n : Word} (h : run.WaitEnds b k n) (hok : run.ok cfg U) :
    ∃ f : Family, f.holdsFor U run.req ∧ k ∈ f.phases := by
  have at_wait (site : WaitSite) (hp : run.pos = .wait site) :
      ∃ f : Family, f.holdsFor U run.req ∧ site.phase ∈ f.phases := by
    rw [Running.ok, hp] at hok
    exact ⟨site.family, hok.1, site.phase_mem_phases⟩
  obtain ⟨rfl, ⟨site, hp⟩, -⟩ | ⟨rfl, ⟨site, hp⟩, -⟩ | ⟨rfl, hp, -⟩ | ⟨-, h⟩ := h
  · rw [Running.ok, hp] at hok
    exact ⟨site.family, hok.1, site.family.waitCmd_mem_phases⟩
  · rw [Running.ok, hp] at hok
    exact ⟨site.family, hok.1, site.family.cmd_mem_phases⟩
  · rw [Running.ok, hp] at hok
    exact ⟨.init, hok.1, by decide⟩
  · obtain ⟨rfl, hp, -⟩ | ⟨rfl, hp, -⟩ | ⟨rfl, hp, -⟩ | ⟨rfl, hp, -⟩ | ⟨rfl, hp, -⟩ | ⟨rfl, hp, -⟩ := h <;>
      exact at_wait _ hp

/-- A primitive raises no counter but those of its request's family. -/
theorem act_diag_mem_phases {f : Family} (hok : run.ok cfg U) (hop : run.req.op = f.op)
    (ha : act cfg buf free b run = .ok a) {k : Phase} {n : Word} (hd : a.diag = some (k, n)) : k ∈ f.phases := by
  obtain hnone | ⟨k', n', hd', hends⟩ := act_diag ha
  · cases hnone.symm.trans hd
  · cases hd'.symm.trans hd
    obtain ⟨g, hg, hk⟩ := hends.mem_phases hok
    rwa [Family.op_injective (hop.symm.trans (Family.holdsFor_op hg))]

/-- The store of a payload byte of READ: the first `m` bytes of a sector go to the buffer from byte `p` on, inside
it (43_transfer.md R235). -/
theorem actReadPayload_store {k : Nat} (h : actReadPayload buf run k b = .ok a) :
    ∃ p m, run.work.p = some p ∧ run.work.m = some m ∧
      (k < m.toNat ∧ p.toNat + k < buf.size ∧ a.store = some (p.toNat + k, b) ∨ m.toNat ≤ k ∧ a.store = none) := by
  obtain ⟨p, hp, h⟩ := need_ok h
  obtain ⟨m, hm, h⟩ := need_ok h
  refine ⟨p, m, hp, hm, ?_⟩
  simp only at h
  split at h
  next hk =>
    split at h
    next hsize =>
      cases h
      exact .inl ⟨hk, hsize, rfl⟩
    next => cases h
  next hk =>
    cases h
    exact .inr ⟨Nat.le_of_not_lt hk, rfl⟩

theorem actDesNeg_store (h : actDesNeg cfg run = .ok a) : a.store = none := by
  obtain ⟨r, -, h⟩ := need_ok h
  obtain ⟨j, -, h⟩ := need_ok h
  obtain ⟨c, -, h⟩ := need_ok h
  split at h
  · cases h
    rfl
  · split at h <;> cases h <;> rfl

theorem actDesCap_store (h : actDesCap run free = .ok a) : a.store = none := by
  obtain ⟨csd, -, h⟩ := need_ok h
  simp only at h
  split at h
  · cases h
    rfl
  · obtain ⟨c, -, h⟩ := need_ok h
    cases h
    rfl

theorem actReadSum_store {n : Nat} (h : actReadSum run n = .ok a) : a.store = none := by
  unfold actReadSum at h
  split at h
  · cases h
    rfl
  · obtain ⟨p, -, h⟩ := need_ok h
    obtain ⟨m, -, h⟩ := need_ok h
    obtain ⟨rem, -, h⟩ := need_ok h
    cases h
    rfl

theorem actWritePayload_store {k : Nat} (h : actWritePayload buf run k = .ok a) : a.store = none := by
  obtain ⟨p, -, h⟩ := need_ok h
  obtain ⟨m, -, h⟩ := need_ok h
  simp only at h
  split at h
  · split at h <;> cases h
    rfl
  · cases h
    rfl

/-- No primitive but a payload byte of READ stores to the buffer (20_memory.md R79). -/
theorem act_store (hp : ∀ k, run.pos ≠ .readPayload k) (h : act cfg buf free b run = .ok a) : a.store = none := by
  obtain ⟨req, pos, w⟩ := run
  cases pos with
  | readPayload k => exact absurd rfl (hp k)
  | call site x => exact (actCall_ofCall h).store
  | wait site =>
    obtain ⟨out, next, o, rfl, -⟩ := actWait_ofToken h
    rfl
  | desNeg => exact actDesNeg_store h
  | desCap => exact actDesCap_store h
  | readSum n => exact actReadSum_store h
  | writePayload k => exact actWritePayload_store h
  | desReset | desOcr | wstartToken =>
    obtain ⟨x, -, h⟩ := need_ok h
    cases h
    rfl
  | desSector =>
    obtain ⟨p, -, h⟩ := need_ok h
    obtain ⟨m, -, h⟩ := need_ok h
    obtain ⟨rem, -, h⟩ := need_ok h
    cases h
    rfl
  | _ =>
    cases h
    rfl

/-- INIT and WRITE never stand at a payload byte of READ. -/
theorem Running.pos_ne_readPayload {f : Family} (hok : run.ok cfg U) (hop : run.req.op = f.op) (hf : f ≠ .read)
    (k : Nat) : run.pos ≠ .readPayload k := by
  intro hp
  rw [Running.ok, hp] at hok
  exact hf (Family.op_injective (hop.symm.trans (Family.holdsFor_op hok.1)))

/-- READ and WRITE never stand at the commit of INIT. -/
theorem Running.pos_ne_desCap (hok : run.ok cfg U) (hop : run.req.op ≠ opInit) : run.pos ≠ .desCap :=
  fun hp => hop (Running.op_of_desCap hok hp)

end

/-! ### What every step of a request leaves unchanged -/

theorem Response.after_of_not_respond {p : Prim} {u : Nat} {b : Byte} (h : ∀ v r, p.event u b ≠ .respond v r)
    (resp : Response) : resp.after p = resp := by
  cases p with
  | respond status value => exact absurd rfl (h _ _)
  | select | deselect | exchange | setRate | timeout => rfl

/-- From `s` to `t` at most the record of unit `u`, the counters in `phases`, the draw counter and, with a response, the
response registers differ; one event is appended. -/
structure State.FrameAt (s t : State) (u : Nat) (phases : List Phase) : Prop where
  others : ∀ v, v ≠ u → t.units[v]? = s.units[v]?
  length : t.units.length = s.units.length
  counters : ∀ k, k ∉ phases → t.diag.get k = s.diag.get k
  event : ∃ e, t.trace = s.trace ++ [e] ∧ ((∀ v r, e ≠ .respond v r) → t.resp = s.resp)
  rest : t.cfg = s.cfg ∧ t.port = s.port ∧ t.hostQueue = s.hostQueue ∧ t.diagRead = s.diagRead ∧ t.turn = s.turn ∧
    t.choices = s.choices

theorem State.respond_frameAt (s : State) (u : Nat) (r : Response) (phases : List Phase) :
    s.FrameAt (s.respond (some u) r) u phases where
  others _ _ := rfl
  length := rfl
  counters _ _ := rfl
  event := ⟨_, rfl, fun h => absurd rfl (h _ _)⟩
  rest := ⟨rfl, rfl, rfl, rfl, rfl, rfl⟩

theorem State.commit_frameAt (s : State) (u : Nat) (W : UnitState) (b : Byte) {a : Action} {phases : List Phase}
    (h : ∀ k n, a.diag = some (k, n) → k ∈ phases) : s.FrameAt (s.commit u W b a) u phases where
  others _ hv := List.getElem?_set_ne hv.symm
  length := List.length_set
  counters k hk := (s.diag.get_raiseOpt_eq a.diag k).resolve_right fun ⟨n, hn⟩ => hk (h k n hn)
  event := ⟨_, rfl, fun he => Response.after_of_not_respond he s.resp⟩
  rest := ⟨rfl, rfl, rfl, rfl, rfl, rfl⟩

section
variable {s t : State} {req : Request}

/-- The frame of INIT, READ and WRITE outside the unit's own record. -/
theorem RequestMoves.frameAt {f : Family} (h : RequestMoves s req t) (hinv : s.Inv) (hop : req.op = f.op) :
    s.FrameAt t req.unit.toNat f.phases := by
  cases h with
  | responds r => exact s.respond_frameAt _ r _
  | acts hV hW ha =>
    obtain ⟨hreq, hok, -⟩ := hW.ok hinv hV
    exact s.commit_frameAt _ _ _ fun k n => act_diag_mem_phases hok (hreq ▸ hop) ha

/-- The unit's own record is as before, or as a primitive of the request leaves it. -/
theorem RequestMoves.record {U T : UnitState} (h : RequestMoves s req t) (hU : s.units[req.unit.toNat]? = some U)
    (hT : t.units[req.unit.toNat]? = some T) :
    T = U ∨ ∃ W run b a, RunsWith s U req W run ∧
      act s.cfg W.buf (Config.freeSectors s.draws) b run = .ok a ∧ T = W.after a := by
  cases h with
  | responds r => exact .inl (Option.some.inj (hT.symm.trans hU))
  | acts hV hW ha =>
    cases hU.symm.trans hV
    rw [State.commit_units, List.getElem?_set_self (List.getElem?_eq_some_iff.1 hU).1] at hT
    exact .inr ⟨_, _, _, _, hW, ha, (Option.some.inj hT).symm⟩

end

theorem UnitState.after_buf_of_store {a : Action} (h : a.store = none) (U : UnitState) : (U.after a).buf = U.buf := by
  rw [UnitState.after_buf, h, HostBuf.storeOpt_none]

section
variable {s t : State} {req : Request} {U T : UnitState}

/-- A primitive of INIT or WRITE stores nothing (44_host.md R282, R284). -/
theorem RunsWith.after_buf {f : Family} {W : UnitState} {run : Running} {b : Byte} {a : Action}
    (h : RunsWith s U req W run) (hinv : s.Inv) (hU : s.units[req.unit.toNat]? = some U) (hop : req.op = f.op)
    (hf : f ≠ .read) (ha : act s.cfg W.buf (Config.freeSectors s.draws) b run = .ok a) :
    (W.after a).buf = W.buf := by
  obtain ⟨hreq, hok, -⟩ := h.ok hinv hU
  exact UnitState.after_buf_of_store (act_store (Running.pos_ne_readPayload hok (hreq ▸ hop) hf) ha) W

/-- A step of READ or WRITE leaves the class of its unit (44_host.md R283, R284). -/
theorem RequestMoves.cls (h : RequestMoves s req t) (hinv : s.Inv) (hop : req.op ≠ opInit)
    (hU : s.units[req.unit.toNat]? = some U) (hT : t.units[req.unit.toNat]? = some T) : T.cls = U.cls := by
  obtain rfl | ⟨W, run, b, a, hW, ha, rfl⟩ := h.record hU hT
  · rfl
  · obtain ⟨hreq, hok, -⟩ := hW.ok hinv hU
    have hcls := (act_cls ha).resolve_right (Running.pos_ne_desCap hok (hreq ▸ hop))
    rw [UnitState.after_cls, hcls, Option.getD_none]
    exact hW.op_or_cls.resolve_left hop

/-- A step that starts a request stores nothing: the buffer is the unit's own or that of the request. -/
theorem RequestMoves.buf_of_idle (h : RequestMoves s req t) (hi : U.agent = .idle)
    (hU : s.units[req.unit.toNat]? = some U) (hT : t.units[req.unit.toNat]? = some T) :
    T.buf = U.buf ∨ T.buf = s.port.buf := by
  obtain rfl | ⟨W, run, b, a, hW, ha, rfl⟩ := h.record hU hT
  · exact .inl rfl
  · have hp (k : Nat) : run.pos ≠ .readPayload k := by
      cases hW with
      | own hr hq => cases hi.symm.trans hr
      | start hi hs => cases hs <;> nofun
    rw [UnitState.after_buf_of_store (act_store hp ha)]
    exact hW.buf_of_idle hi

end

/-- Settles O54: INIT starts with the unit's buffer and never stands at a payload byte of READ. -/
theorem initFrame : Obligations.InitFrame := by
  intro s t unit hinv h
  have hm := exec_init_moves h
  have hf := hm.frameAt (f := .init) hinv rfl
  refine ⟨hf.others, hf.length, fun U T hU hT => ?_, hf.counters, hf.event, hf.rest⟩
  obtain rfl | ⟨W, run, b, a, hW, ha, rfl⟩ := hm.record hU hT
  · rfl
  · exact (hW.after_buf (f := .init) hinv hU rfl (by decide) ha).trans hW.buf_of_init

/-- Settles O56: WRITE never stands at a payload byte of READ, so that a running WRITE stores nothing. -/
theorem writeFrame : Obligations.WriteFrame := by
  intro s t unit offset count hinv h
  have hm := exec_write_moves h
  have hf := hm.frameAt (f := .write) hinv rfl
  refine ⟨hf.others, hf.length, fun U T hU hT => ?_, hf.counters, hf.event, hf.rest⟩
  refine ⟨hm.cls hinv (by decide : opWrite ≠ opInit) hU hT, fun hi => hm.buf_of_idle hi hU hT, fun run hr => ?_⟩
  obtain rfl | ⟨W, run', b, a, hW, ha, rfl⟩ := hm.record hU hT
  · rfl
  · obtain ⟨rfl, -⟩ := hW.eq_of_running hr
    exact hW.after_buf (f := .write) hinv hU rfl (by decide) ha

/-- A payload byte of the share stores at `p + k`, any other primitive nowhere (43_transfer.md R235). -/
theorem act_buf {cfg : Config} {U : UnitState} {run : Running} {free : Word} {b : Byte} {a : Action}
    (hwf : U.buf.wf = true) (ha : act cfg U.buf free b run = .ok a) :
    (∀ k p m, run.pos = .readPayload k → run.work.p = some p → run.work.m = some m → k < m.toNat →
      (U.after a).buf.size = U.buf.size ∧ ∀ x, x ≠ p.toNat + k → (U.after a).buf.load x = U.buf.load x) ∧
    ((∀ k p m, run.pos = .readPayload k → run.work.p = some p → run.work.m = some m → m.toNat ≤ k) →
      (U.after a).buf = U.buf) := by
  refine ⟨fun k p m hp hpr hmr hk => ⟨U.after_size a, fun x hx => ?_⟩, fun hout => ?_⟩
  · rw [act, hp] at ha
    obtain ⟨p', m', hp', hm', ⟨-, hsize, hs⟩ | ⟨hle, -⟩⟩ := actReadPayload_store ha
    · cases hpr.symm.trans hp'
      rw [UnitState.after_buf, hs, HostBuf.storeOpt_some, HostBuf.load_store hwf hsize, if_neg hx]
    · cases hmr.symm.trans hm'
      omega
  · refine UnitState.after_buf_of_store ?_ U
    by_cases hp : ∃ k, run.pos = .readPayload k
    · obtain ⟨k, hp⟩ := hp
      rw [act, hp] at ha
      obtain ⟨p, m, hpr, hmr, ⟨hk, -⟩ | ⟨-, hs⟩⟩ := actReadPayload_store ha
      · exact absurd (hout k p m hp hpr hmr) (Nat.not_le_of_lt hk)
      · exact hs
    · exact act_store (fun k hk => hp ⟨k, hk⟩) ha

/-- Settles O55: the one primitive that stores is a payload byte of the share. -/
theorem readFrame : Obligations.ReadFrame := by
  intro s t unit offset count hinv h
  have hm := exec_read_moves h
  have hf := hm.frameAt (f := .read) hinv rfl
  refine ⟨hf.others, hf.length, fun U T hU hT => ?_, hf.counters, hf.event, hf.rest⟩
  refine ⟨hm.cls hinv (by decide : opRead ≠ opInit) hU hT, fun hi => hm.buf_of_idle hi hU hT, fun run hr => ?_⟩
  obtain rfl | ⟨W, run', b, a, hW, ha, rfl⟩ := hm.record hU hT
  · exact ⟨fun k p m _ _ _ _ => ⟨rfl, fun _ _ => rfl⟩, fun _ => rfl⟩
  · obtain ⟨rfl, rfl⟩ := hW.eq_of_running hr
    obtain ⟨-, -, hwf⟩ := hW.ok hinv hU
    exact act_buf hwf ha

end Sys2Proof.Machine
end

section
/-! SUPPORT. Chip-select, as the trace leaves it and as the agents' positions say (00_scope.md R16), and the failure
path (60_exceptions.md R301, R302), with the proofs that settle O14 and O36. -/

namespace Sys2Proof.Machine

/-! ### Chip-select under one event -/

theorem selectedIn_concat (u : Nat) (trace : List Event) (e : Event) :
    selectedIn u (trace ++ [e]) = selectAfter u (selectedIn u trace) e :=
  List.foldl_concat ..

/-- Chip-select of a unit after its own primitive, `sel` before it (00_scope.md R12). -/
def Prim.selectAfter (sel : Bool) : Prim → Bool
  | .select => true
  | .deselect => false
  | .exchange _ => sel
  | .setRate _ => sel
  | .timeout _ => sel
  | .respond _ _ => sel

theorem selectAfter_event_self (p : Prim) (u : Nat) (b : Byte) (sel : Bool) :
    selectAfter u sel (p.event u b) = p.selectAfter sel := by
  cases p with
  | select | deselect => exact if_pos rfl
  | exchange | setRate | timeout | respond => rfl

/-- A primitive leaves the chip-select of every other unit. -/
theorem selectAfter_event_of_ne {u v : Nat} (h : v ≠ u) (p : Prim) (b : Byte) (sel : Bool) :
    selectAfter v sel (p.event u b) = sel := by
  cases p with
  | select | deselect => exact if_neg h.symm
  | exchange | setRate | timeout | respond => rfl

theorem UnitState.inTransaction_of_idle {U : UnitState} (h : U.agent = .idle) : U.inTransaction = false := by
  simp only [UnitState.inTransaction, h]

theorem UnitState.inTransaction_of_running {U : UnitState} {run : Running} (h : U.agent = .running run) :
    U.inTransaction = !run.pos.deselected := by
  simp only [UnitState.inTransaction, h]

/-! ### Chip-select under one primitive -/

/-- The action's primitive leaves chip-select as the position of the agent after it says, from what `run`'s says. -/
def Action.KeepsSelection (a : Action) (run : Running) : Prop :=
  ∀ U : UnitState, (U.after a).inTransaction = a.prim.selectAfter (!run.pos.deselected)

section
variable {cfg : Config} {run : Running} {b : Byte} {a : Action} {next : Pos × Work}

theorem Action.KeepsSelection.of_next (ha : a.agent = run.at next)
    (h : (!next.1.deselected) = a.prim.selectAfter (!run.pos.deselected)) : a.KeepsSelection run :=
  fun _ => (UnitState.inTransaction_of_running ha).trans h

/-- An exchange from a position inside a transaction to another. -/
theorem Action.KeepsSelection.exchange {out : Byte} {o : Option (Phase × Word)} (hp : run.pos.deselected = false)
    (h : next.1.deselected = false) : (run.exchange out next o).KeepsSelection run :=
  .of_next rfl (by rw [h, hp]; rfl)

/-- A command is sent inside a transaction (40_exchanger.md R133). -/
theorem enterCall_selected (site : CallSite) (w : Work) : (enterCall site w).1.deselected = false := by
  unfold enterCall
  split <;> rfl

/-- No caller of `SendCommand` leaves the transaction before its next primitive. -/
theorem afterCall_selected {req : Request} {site : CallSite} {r : Byte} {w : Work}
    (h : afterCall req site r w = .ok next) : next.1.deselected = false := by
  cases site with
  | reset =>
    obtain ⟨j, -, h⟩ := need_ok h
    simp only at h
    split at h <;> cases h
    · rfl
    · exact enterCall_selected ..
  | negPrefix | negCond | readStop | writePrefix =>
    cases h
    rfl
  | probe | ocr | capacity | readStart | writeErase | writeStart =>
    simp only [afterCall] at h
    split at h <;> cases h <;> rfl

theorem returnStatus_selected {req : Request} {site : CallSite} {w : Work} (h : returnStatus req site w = .ok next) :
    next.1.deselected = false := by
  obtain ⟨b, -, h⟩ := need_ok h
  exact afterCall_selected h

theorem afterWait_selected {site : WaitSite} {w : Work} (h : afterWait site w = .ok next) :
    next.1.deselected = false := by
  cases site with
  | readStart =>
    obtain ⟨rem, -, h⟩ := need_ok h
    cases h
    rfl
  | csd | wdata | wdone | wstop | widle =>
    cases h
    rfl

/-- Every poll, and what follows a wait, stands inside the transaction. -/
theorem pollStep_keepsSelection {k : Phase} {cond : Bool} {onHit onExpired : Work → Except Fault (Pos × Work)}
    (h : pollStep cfg run k cond b onHit onExpired = .ok a) (hp : run.pos.deselected = false)
    (hhit : ∀ w next, onHit w = .ok next → next.1.deselected = false)
    (hexpired : ∀ w next, onExpired w = .ok next → next.1.deselected = false) : a.KeepsSelection run := by
  obtain ⟨i, -, ⟨-, next, hn, rfl⟩ | ⟨-, -, rfl⟩ | ⟨-, -, next, hn, rfl⟩⟩ := pollStep_ok h
  · exact .exchange hp (hhit _ _ hn)
  · exact .exchange hp hp
  · exact .exchange hp (hexpired _ _ hn)

theorem actCall_keepsSelection {site : CallSite} {x : XPos} (hp : run.pos = .call site x)
    (h : actCall cfg run site x b = .ok a) : a.KeepsSelection run := by
  have hsel : run.pos.deselected = false := by rw [hp]; rfl
  cases x with
  | preWait =>
    rw [actCall] at h
    refine pollStep_keepsSelection h hsel (fun w next hn => ?_) (fun w next hn => ?_) <;> cases hn <;> rfl
  | preTimeout =>
    cases h
    exact .of_next rfl (by rw [hsel]; rfl)
  | frame k =>
    obtain ⟨arg, -, h⟩ := need_ok h
    cases h
    exact .exchange hsel (by split <;> rfl)
  | resp =>
    rw [actCall] at h
    refine pollStep_keepsSelection h hsel (fun w next hn => returnStatus_selected hn) (fun w next hn => ?_)
    split at hn
    · exact returnStatus_selected hn
    · cases hn
      rfl
  | respTimeout =>
    obtain ⟨next, hn, rfl⟩ := actCall_respTimeout h
    exact .of_next rfl (by rw [hsel, returnStatus_selected hn]; rfl)

theorem actWait_keepsSelection {site : WaitSite} (hp : run.pos = .wait site) (h : actWait cfg run site b = .ok a) :
    a.KeepsSelection run := by
  refine pollStep_keepsSelection h (by rw [hp]; rfl) (fun w next hn => afterWait_selected hn) (fun w next hn => ?_)
  cases hn
  rfl

theorem actDesNeg_keepsSelection (h : actDesNeg cfg run = .ok a) : a.KeepsSelection run := by
  obtain ⟨r, -, h⟩ := need_ok h
  obtain ⟨j, -, h⟩ := need_ok h
  obtain ⟨c, -, h⟩ := need_ok h
  split at h
  · cases h
    exact .of_next rfl (by unfold afterNegotiation; split <;> rfl)
  · split at h <;> cases h <;> exact fun _ => rfl

theorem actDesCap_keepsSelection {free : Word} (h : actDesCap run free = .ok a) : a.KeepsSelection run := by
  obtain ⟨csd, -, h⟩ := need_ok h
  simp only at h
  split at h
  · cases h
    exact fun _ => rfl
  · obtain ⟨c, -, h⟩ := need_ok h
    cases h
    exact fun _ => rfl

theorem actReadPayload_keepsSelection {buf : HostBuf} {k : Nat} (hp : run.pos = .readPayload k)
    (h : actReadPayload buf run k b = .ok a) : a.KeepsSelection run := by
  obtain ⟨p, -, h⟩ := need_ok h
  obtain ⟨m, -, h⟩ := need_ok h
  have hnext : ∀ store, Action.KeepsSelection ⟨.exchange filler,
      run.at (if k + 1 < sectorBytes then .readPayload (k + 1) else .readSum 0, run.work), none, none, store⟩ run :=
    fun store => .of_next rfl (by rw [hp]; split <;> rfl)
  simp only at h
  split at h
  · split at h <;> cases h
    exact hnext _
  · cases h
    exact hnext _

theorem actReadSum_keepsSelection {n : Nat} (hp : run.pos = .readSum n) (h : actReadSum run n = .ok a) :
    a.KeepsSelection run := by
  have hsel : run.pos.deselected = false := by rw [hp]; rfl
  unfold actReadSum at h
  split at h
  · cases h
    exact .exchange hsel rfl
  · obtain ⟨p, -, h⟩ := need_ok h
    obtain ⟨m, -, h⟩ := need_ok h
    obtain ⟨rem, -, h⟩ := need_ok h
    cases h
    exact .exchange hsel (by split <;> rfl)

theorem actWritePayload_keepsSelection {buf : HostBuf} {k : Nat} (hp : run.pos = .writePayload k)
    (h : actWritePayload buf run k = .ok a) : a.KeepsSelection run := by
  have hsel : run.pos.deselected = false := by rw [hp]; rfl
  obtain ⟨p, -, h⟩ := need_ok h
  obtain ⟨m, -, h⟩ := need_ok h
  simp only at h
  split at h
  · split at h <;> cases h
    exact .exchange hsel (by split <;> rfl)
  · cases h
    exact .exchange hsel (by split <;> rfl)

/-- A primitive selects on the way into a transaction, deselects on the way out of it, and else does neither
(00_scope.md R16, 60_exceptions.md R302). -/
theorem act_keepsSelection {buf : HostBuf} {free : Word} (h : act cfg buf free b run = .ok a) :
    a.KeepsSelection run := by
  obtain ⟨req, pos, w⟩ := run
  cases pos with
  | call site x => exact actCall_keepsSelection rfl h
  | wait site => exact actWait_keepsSelection rfl h
  | desNeg => exact actDesNeg_keepsSelection h
  | desCap => exact actDesCap_keepsSelection h
  | readPayload k => exact actReadPayload_keepsSelection rfl h
  | readSum n => exact actReadSum_keepsSelection rfl h
  | writePayload k => exact actWritePayload_keepsSelection rfl h
  | desReset =>
    obtain ⟨r, -, h⟩ := need_ok h
    cases h
    exact .of_next rfl (by split <;> rfl)
  | desOcr | wstartToken =>
    obtain ⟨x, -, h⟩ := need_ok h
    cases h
    exact fun _ => rfl
  | desSector =>
    obtain ⟨p, -, h⟩ := need_ok h
    obtain ⟨m, -, h⟩ := need_ok h
    obtain ⟨rem, -, h⟩ := need_ok h
    cases h
    exact .of_next rfl (by split <;> rfl)
  | powerFiller | ocr | csd | csdSum | writeSum | dataResp =>
    cases h
    exact .of_next rfl (by split <;> rfl)
  | echo =>
    cases h
    refine .of_next rfl ?_
    split
    · rfl
    · split <;> rfl
  | _ =>
    cases h
    exact fun _ => rfl

end

/-! ### Chip-select under one step -/

section
variable {s t : State} {u : Nat} {U V : UnitState}

/-- One event leaves every unit's chip-select as its record then says. -/
theorem State.SelectionMatches.of_event {e : Event} (h : s.SelectionMatches) (htrace : t.trace = s.trace ++ [e])
    (hunits : ∀ v T, t.units[v]? = some T →
      ∃ S, s.units[v]? = some S ∧ T.inTransaction = selectAfter v S.inTransaction e) : t.SelectionMatches := by
  intro v T hT
  obtain ⟨S, hS, hsel⟩ := hunits v T hT
  rw [htrace, selectedIn_concat, h v S hS, hsel]

/-- A response without a running agent moves no chip-select (44_host.md R280). -/
theorem State.SelectionMatches.respond (h : s.SelectionMatches) (o : Option Nat) (r : Response) :
    (s.respond o r).SelectionMatches :=
  h.of_event rfl fun _ T hT => ⟨T, hT, rfl⟩

/-- A record replaced by one that stands in a transaction if the old one does. -/
theorem State.SelectionMatches.setUnit (h : s.SelectionMatches) (hV : s.units[u]? = some V)
    (hU : U.inTransaction = V.inTransaction) : (s.setUnit u U).SelectionMatches := by
  intro v T hT
  obtain hne | rfl := ne_or_eq u v
  · exact h v T ((List.getElem?_set_ne hne).symm.trans hT)
  · rw [State.setUnit_units, List.getElem?_set_self (List.getElem?_eq_some_iff.1 hV).1] at hT
    cases hT
    exact (h u V hV).trans hU.symm

/-- A unit's primitive: its own chip-select follows its agent, every other stays. -/
theorem State.SelectionMatches.commit {run : Running} {free : Word} {b : Byte} {a : Action} (h : s.SelectionMatches)
    (hV : s.units[u]? = some V) (hrun : V.inTransaction = !run.pos.deselected)
    (ha : act s.cfg U.buf free b run = .ok a) : (s.commit u U b a).SelectionMatches := by
  refine h.of_event rfl fun v T hT => ?_
  obtain hne | rfl := ne_or_eq u v
  · rw [State.commit_units, List.getElem?_set_ne hne] at hT
    exact ⟨T, hT, (selectAfter_event_of_ne hne.symm ..).symm⟩
  · rw [State.commit_units, List.getElem?_set_self (List.getElem?_eq_some_iff.1 hV).1] at hT
    cases hT
    exact ⟨V, hV, by rw [selectAfter_event_self, hrun, act_keepsSelection ha]⟩

theorem State.SelectionMatches.reschedule (h : s.SelectionMatches) : s.reschedule.SelectionMatches := by
  intro u U hU
  rw [State.reschedule_units] at hU
  rw [State.reschedule_trace]
  exact h u U hU

theorem State.SelectionMatches.sampleCounter (h : s.SelectionMatches) (taken : List (Phase × Word)) :
    (sampleCounter taken s).SelectionMatches := by
  obtain ⟨d, heq⟩ | ⟨taken', heq⟩ := sampleCounter_cases taken s <;> rw [heq]
  · exact h.respond none _
  · exact h

/-- INIT, READ and WRITE start outside a transaction (41_init.md R171, 43_transfer.md R233, R242). -/
theorem Starts.deselected {req : Request} {pos : Pos} {w : Work} (h : Starts s V req U pos w) :
    pos.deselected = true := by
  cases h <;> rfl

theorem exec_keepsSelection {i : Instr} (h : s.SelectionMatches) (hx : exec i s = .next t) : t.SelectionMatches := by
  obtain ⟨u, r, rfl⟩ | ⟨u, V, hV, hi, rfl⟩ | ⟨u, U, run, b, hU, hr, hp⟩ | ⟨req, V, U, pos, w, hV, hi, hs, hp⟩ |
    ⟨rfl, -⟩ | ⟨taken, -, rfl⟩ := exec_next_cases hx
  · exact h.respond _ _
  · exact (h.setUnit (U := { V with cls := .unknown }) hV rfl).respond _ _
  · obtain ⟨a, ha, rfl⟩ := performRun_eq_next.1 hp
    exact h.commit hU (UnitState.inTransaction_of_running hr) ha
  · obtain ⟨a, ha, rfl⟩ := performRun_eq_next.1 hp
    exact h.commit hV (by rw [UnitState.inTransaction_of_idle hi, hs.deselected]; rfl) ha
  · exact h.respond none _
  · exact h.sampleCounter taken

end

/-- Settles O14: every operation keeps the match, whether it runs in the present state or with a request taken into the
port, and so does the choice of the next turn. -/
theorem stepKeepsSelectionMatches : Obligations.StepKeepsSelectionMatches := by
  intro s t h hstep
  obtain ⟨-, ⟨-, rfl⟩ | ⟨port, bytes, s', i, t', hf, -, hx, rfl⟩⟩ := step_next_cases hstep
  · exact h.reschedule
  · have h' : s'.SelectionMatches := by
      obtain ⟨q, rest, -, -, -, -, -, rfl⟩ | ⟨u, U, run, -, -, rfl⟩ | ⟨taken, -, -, -, -, rfl⟩ :=
        State.fetch_word_cases hf <;> exact h
    exact (exec_keepsSelection h' hx).reschedule

/-! ### The failure path -/

/-- Settles O36, by the two primitives of the failure path. -/
theorem failureEndsTheRequest : Obligations.FailureEndsTheRequest :=
  fun _ _ _ _ _ hi hr hp => execTimes_desFail hi hr hp

end Sys2Proof.Machine
end

section
/-! SUPPORT. The state after reset (10_state.md R47, 70_reset_and_hazards.md R330, R331), with the proofs that settle
O9, O10 and O11. -/

namespace Sys2Proof.Machine

section
variable {cfg : Config} {n u : Nat} {U : UnitState}

theorem State.resetWith_unit (h : (State.resetWith cfg n).units[u]? = some U) : U = UnitState.reset :=
  List.eq_of_mem_replicate (List.mem_of_getElem? h)

theorem Diag.get_zero (k : Phase) : Diag.zero.get k = 0 := by cases k <;> rfl

theorem State.resetWith_configOk (hw : cfg.wf = true) (hmin : 1 ≤ n) (hmax : n ≤ 256) :
    (State.resetWith cfg n).configOk = true := by
  have hlen : (State.resetWith cfg n).units.length = n := List.length_replicate
  exact State.configOk_iff.2 ⟨hw, by rwa [hlen], by rwa [hlen]⟩

theorem State.resetWith_runningAt (cfg : Config) (n u : Nat) : (State.resetWith cfg n).runningAt u = none := by
  refine Option.eq_none_iff_forall_ne_some.2 fun ⟨U, run⟩ h => ?_
  obtain ⟨hU, hr⟩ := State.runningAt_eq_some.1 h
  rw [State.resetWith_unit hU] at hr
  cases hr

/-- After reset no agent can move: no request is queued, no unit runs, no DIAG is in flight (70_reset_and_hazards.md
R331). -/
theorem State.resetWith_candidates (cfg : Config) (n : Nat) : (State.resetWith cfg n).candidates = [] := by
  have hhost : (State.resetWith cfg n).hostReady = false := rfl
  have hdiag : (State.resetWith cfg n).diagRead = none := rfl
  simp [State.candidates, hhost, hdiag, State.resetWith_runningAt]

theorem State.resetWith_inv (hw : cfg.wf = true) (hmin : 1 ≤ n) (hmax : n ≤ 256) : (State.resetWith cfg n).Inv where
  config := State.resetWith_configOk hw hmin hmax
  units u U hU := by
    rw [State.resetWith_unit hU]
    exact ⟨rfl, fun run hr => by cases hr⟩
  counters k := (congrArg BitVec.toNat (Diag.get_zero k)).trans_lt (Config.bound_pos hw k).1
  portBuf := rfl
  queueBufs _ hq := nomatch hq
  samples _ hd := nomatch hd

end

/-- Settles O9, by what the units and the counters are after reset. -/
theorem resetState : Obligations.ResetState := by
  intro cfg n
  refine ⟨List.length_replicate, fun u U hU => ?_, Diag.get_zero, rfl⟩
  rw [State.resetWith_unit hU]
  exact ⟨rfl, rfl⟩

/-- Settles O10: the step waits, and since no agent can move the turn stays the host's. -/
theorem resetWaits : Obligations.ResetWaits := by
  intro cfg n hw hmin hmax
  rw [step_of_waiting (State.resetWith_configOk hw hmin hmax) rfl, State.reschedule, State.resetWith_candidates]
  rfl

/-- Settles O11: every agent is IDLE, every counter is below its bound of at least 1, and no unit is selected. -/
theorem resetMeetsInv : Obligations.ResetMeetsInv := by
  intro cfg n hw hmin hmax
  refine ⟨State.resetWith_inv hw hmin hmax, fun u U hU => ?_⟩
  rw [State.resetWith_unit hU]
  rfl

end Sys2Proof.Machine
end

section
/-! SUPPORT. A running request goes on until its response, and its cost bounds what is to come (70_reset_and_hazards.md
R340, R341), with the proof that settles O15. -/

namespace Sys2Proof.Machine

/-! ### Which primitive ends a request -/

/-- If there is an action, the agent goes on after it and the primitive is not the response. -/
def GoesOn (o : Except Fault Action) : Prop :=
  ∀ a, o = .ok a → (∃ run, a.agent = .running run) ∧ ∀ status value, a.prim ≠ .respond status value

theorem GoesOn.ok {a : Action} {run : Running} (hagent : a.agent = .running run)
    (hprim : ∀ status value, a.prim ≠ .respond status value) : GoesOn (.ok a) := by
  rintro _ ⟨⟩
  exact ⟨⟨run, hagent⟩, hprim⟩

theorem GoesOn.error (f : Fault) : GoesOn (.error f) := by
  rintro a ⟨⟩

theorem GoesOn.need {α : Type} {reg : Option α} {k : α → Except Fault Action} (h : ∀ x, GoesOn (k x)) :
    GoesOn (need reg k) := by
  cases reg with
  | none => exact .error _
  | some x => exact h x

theorem GoesOn.ite {c : Prop} [Decidable c] {x y : Except Fault Action} (hx : GoesOn x) (hy : GoesOn y) :
    GoesOn (if c then x else y) := by
  split
  · exact hx
  · exact hy

section
variable {cfg : Config} {run : Running} {b : Byte}

theorem actCall_goesOn (site : CallSite) (x : XPos) : GoesOn (actCall cfg run site x b) := by
  intro a ha
  have h := actCall_ofCall ha
  obtain ⟨next, hagent, -⟩ := h.agent
  refine ⟨⟨_, hagent⟩, fun status value hp => ?_⟩
  obtain ⟨out, hprim⟩ | hprim | hprim := h.prim <;> cases hp.symm.trans hprim

theorem actWait_goesOn (site : WaitSite) : GoesOn (actWait cfg run site b) := by
  intro a ha
  obtain ⟨out, next, o, rfl, -⟩ := actWait_ofToken ha
  exact ⟨⟨_, rfl⟩, nofun⟩

/-- Only the response ends a request: any other primitive leaves its agent running (10_state.md R36). -/
theorem act_goesOn (hp : ∀ status value, run.pos ≠ .respond status value) (buf : HostBuf) (free : Word) :
    GoesOn (act cfg buf free b run) := by
  obtain ⟨req, pos, w⟩ := run
  cases pos with
  | respond status value => exact absurd rfl (hp status value)
  | call site x => exact actCall_goesOn site x
  | wait site => exact actWait_goesOn site
  | desReset | desOcr | wstartToken => exact .need fun _ => .ok rfl nofun
  | desNeg =>
    exact .need fun _ => .need fun _ => .need fun _ =>
      .ite (.ok rfl nofun) (.ite (.ok rfl nofun) (.ok rfl nofun))
  | desCap => exact .need fun _ => .ite (.ok rfl nofun) (.need fun _ => .ok rfl nofun)
  | readPayload k => exact .need fun _ => .need fun _ => .ite (.ite (.ok rfl nofun) (.error _)) (.ok rfl nofun)
  | readSum n => exact .ite (.ok rfl nofun) (.need fun _ => .need fun _ => .need fun _ => .ok rfl nofun)
  | writePayload k =>
    refine .need fun _ => .need fun _ => .ite ?_ (.ok rfl nofun)
    split
    · exact .ok rfl nofun
    · exact .error _
  | desSector => exact .need fun _ => .need fun _ => .need fun _ => .ok rfl nofun
  | _ => exact .ok rfl nofun

theorem act_respond {status : OutcomeCode} {value : Word} (hp : run.pos = .respond status value) (buf : HostBuf)
    (free : Word) : act cfg buf free b run = .ok (actRespond status value) := by
  simp only [act, hp]

theorem Running.IsOf.of_req_eq {run' : Running} {i : Instr} (h : run.IsOf i) (hreq : run'.req = run.req) :
    run'.IsOf i := by
  unfold Running.IsOf at h ⊢
  rwa [hreq]

end

/-! ### The events of a request -/

/-- Performed again and again, `i` reaches an IDLE agent of unit `u`; the events are some without a response, at most
`bound` of them exchanges of the unit, and then one response of the unit (70_reset_and_hazards.md R340, R341). -/
def State.EndsWithin (s : State) (i : Instr) (u bound : Nat) : Prop :=
  ∃ n t T evs resp, execTimes i n s = .next t ∧ t.units[u]? = some T ∧ T.agent = .idle ∧
    t.trace = s.trace ++ evs ++ [.respond (some u) resp] ∧ (∀ e ∈ evs, ∀ v r, e ≠ .respond v r) ∧
    evs.countP (Event.isExchangeOf u) ≤ bound

section
variable {s t : State} {i : Instr} {u bound : Nat}

/-- The response ends the request. -/
theorem State.EndsWithin.of_respond {T : UnitState} {resp : Response} (hx : exec i s = .next t)
    (hT : t.units[u]? = some T) (hidle : T.agent = .idle) (htrace : t.trace = s.trace ++ [.respond (some u) resp])
    (bound : Nat) : s.EndsWithin i u bound :=
  ⟨1, t, T, [], resp, execTimes_of_exec hx 0, hT, hidle, by rw [htrace, List.append_nil], nofun, Nat.zero_le _⟩

/-- One event before a request that ends. -/
theorem State.EndsWithin.of_exec {e : Event} {bound' : Nat} (h : t.EndsWithin i u bound) (hx : exec i s = .next t)
    (htrace : t.trace = s.trace ++ [e]) (he : ∀ v r, e ≠ .respond v r)
    (hbound : [e].countP (Event.isExchangeOf u) + bound ≤ bound') : s.EndsWithin i u bound' := by
  obtain ⟨n, t', T, evs, resp, hn, hT, hidle, htrace', hevs, hcount⟩ := h
  refine ⟨n + 1, t', T, e :: evs, resp, (execTimes_of_exec hx n).trans hn, hT, hidle, ?_, ?_, ?_⟩
  · rw [htrace', htrace, List.append_assoc s.trace, List.singleton_append]
  · exact List.forall_mem_cons.2 ⟨he, hevs⟩
  · rw [← List.singleton_append, List.countP_append]
    omega

end

/-- With an exchange counted for 1 and any other primitive for 0, a primitive costs as many as its event has
exchanges. -/
theorem Prim.countP_event (p : Prim) (u : Nat) (b : Byte) :
    [p.event u b].countP (Event.isExchangeOf u) = p.cost ⟨1, 0⟩ := by
  cases p with
  | exchange out => simp [Prim.event, Event.isExchangeOf, Prim.cost, Prim.isExchange]
  | select | deselect | setRate | timeout | respond => rfl

/-- With every primitive counted for 1 each costs 1. -/
theorem Prim.cost_steps (p : Prim) : p.cost ⟨1, 1⟩ = 1 := ite_self 1

theorem Prim.event_ne_respond {p : Prim} (h : ∀ status value, p ≠ .respond status value) (u : Nat) (b : Byte)
    (v : Option Nat) (r : Response) : p.event u b ≠ .respond v r := by
  cases p with
  | respond status value => exact absurd rfl (h status value)
  | select | deselect | exchange | setRate | timeout => nofun

/-- A running request ends within the exchanges of its cost, by induction on its cost in steps. -/
theorem State.Inv.endsWithin {s : State} {i : Instr} {u : Nat} {U : UnitState} {run : Running} (hinv : s.Inv)
    (hr : s.Runs u U run) (hi : run.IsOf i) : s.EndsWithin i u (run.cost ⟨1, 0⟩ s.cfg) := by
  induction hsteps : run.cost ⟨1, 1⟩ s.cfg using Nat.strongRecOn generalizing s U run with
  | ind steps ih =>
    have hU := hinv.units u U hr.1
    obtain ⟨rfl, hok⟩ := hU.2 run hr.2
    have hw := (State.configOk_iff.1 hinv.config).1
    obtain ⟨a, ha, hact⟩ := act_ok hw hok (Config.freeSectors s.draws) (U.answer s.draws)
    have hx := exec_request hi hr ha
    by_cases hp : ∃ status value, run.pos = .respond status value
    · obtain ⟨status, value, hp⟩ := hp
      obtain rfl := Except.ok.inj (ha.symm.trans (act_respond hp _ _))
      exact .of_respond hx (List.getElem?_set_self (List.getElem?_eq_some_iff.1 hr.1).1) rfl rfl _
    · obtain ⟨⟨run', hrun'⟩, hprim⟩ := act_goesOn (fun status value h => hp ⟨status, value, h⟩) _ _ a ha
      have hone := act_cost ⟨1, 1⟩ hw hok ha
      have hexchanges := act_cost ⟨1, 0⟩ hw hok ha
      rw [hrun', Agent.cost] at hone hexchanges
      rw [Prim.cost_steps] at hone
      have hrest := ih _ (by rw [State.commit_cfg]; omega) (hinv.commit hU hr.2 ha) (hr.commit hrun')
        (hi.of_req_eq (hact.next run' hrun').1) rfl
      refine hrest.of_exec hx rfl (Prim.event_ne_respond hprim _ _) ?_
      rwa [Prim.countP_event]

/-! ### From the start -/

section
variable {s : State} {V U : UnitState} {req : Request} {pos : Pos} {w : Work} {i : Instr}

theorem performRun_setUnit (u : Nat) (U W : UnitState) (run : Running) (b : Byte) (s : State) :
    performRun u U run b (s.setUnit u W) = performRun u U run b s := by
  simp only [performRun, State.commit, State.setUnit, List.set_set]

/-- The unit's agent stands at the first position of a request, whose first primitive is still to come. -/
def State.started (s : State) (U : UnitState) (run : Running) : State :=
  s.setUnit run.req.unit.toNat { U with agent := .running run }

theorem State.started_runs (hV : s.units[req.unit.toNat]? = some V) :
    (s.started U ⟨req, pos, w⟩).Runs req.unit.toNat { U with agent := .running ⟨req, pos, w⟩ } ⟨req, pos, w⟩ :=
  ⟨List.getElem?_set_self (List.getElem?_eq_some_iff.1 hV).1, rfl⟩

/-- Starting a request is performing the first primitive of an agent that stands there. -/
theorem exec_started (hV : s.units[req.unit.toNat]? = some V) (hi : Running.IsOf ⟨req, pos, w⟩ i) :
    exec i (s.started U ⟨req, pos, w⟩) = startRequest req U pos w s := by
  rw [(exec_of_isOf hi (State.started_runs hV)).2, State.started, performRun_setUnit]
  rfl

/-- A request that starts ends within its cost at its first position. -/
theorem Starts.endsWithin (h : Starts s V req U pos w) (hinv : s.Inv) (hV : s.units[req.unit.toNat]? = some V)
    (hx : exec i s = startRequest req U pos w s) (hi : Running.IsOf ⟨req, pos, w⟩ i) :
    s.EndsWithin i req.unit.toNat (Running.cost ⟨1, 0⟩ s.cfg ⟨req, pos, w⟩) := by
  have hr := State.started_runs (U := U) (pos := pos) (w := w) hV
  have hstarted : (s.started U ⟨req, pos, w⟩).Inv := hinv.setUnit (h.unit_ok (hinv.units _ V hV).1 hinv.portBuf)
  obtain ⟨n, t, T, evs, resp, hn, hT, hidle, hends⟩ := hstarted.endsWithin hr hi
  refine ⟨n, t, T, evs, resp, ?_, hT, hidle, hends⟩
  cases n with
  | zero =>
    cases hn
    cases hr.1.symm.trans hT
    cases hidle
  | succ n => rwa [execTimes, hx, ← exec_started hV hi]

end

/-! ### The cost in exchanges -/

/-- R341's `SC`; CMD0 has no pre-command wait (40_exchanger.md R131). -/
theorem sendCost_exchanges (cfg : Config) (c : Command) :
    sendCost ⟨1, 0⟩ cfg c = if c = .cmd0 then 6 + cfg.bCmd else sendExchanges cfg := by
  by_cases h : c = .cmd0
  · simp only [sendCost, callCost, if_pos h]
    omega
  · simp only [sendCost, callCost, if_neg h, sendExchanges]
    omega

section
variable (cfg : Config) (req : Request) (w : Work)

/-- At its start INIT costs R341's bound. -/
theorem cost_rateSlow : Running.cost ⟨1, 0⟩ cfg ⟨req, .rateSlow, w⟩ = initExchanges cfg := by
  simp only [Running.cost, selResetCost, desResetCost, selProbeCost, desProbeCost, negCost, selOcrCost, desOcrCost,
    rateFastCost, selCapCost, csdWaitCost, capTailCost, sendCost_exchanges, reduceCtorEq, if_true, if_false,
    Nat.sub_zero, initExchanges, resetFiller, resetAttempts]
  ring

/-- At its start READ costs R341's bound. -/
theorem cost_selRead :
    Running.cost ⟨1, 0⟩ cfg ⟨req, .selRead, w⟩ = readExchanges cfg ((req.count.toNat + 511) / 512) := by
  simp only [Running.cost, readTailCost, readSectorCost, sendCost_exchanges, reduceCtorEq, if_false, readExchanges,
    sectorsLeft, sectorBytes]
  ring

/-- At its start WRITE costs R341's bound. -/
theorem cost_selWrite :
    Running.cost ⟨1, 0⟩ cfg ⟨req, .selWrite, w⟩ = writeExchanges cfg ((req.count.toNat + 511) / 512) := by
  simp only [Running.cost, selStopCost, writeStopCost, writeSectorCost, sendCost_exchanges, reduceCtorEq, if_false,
    writeExchanges, sectorsLeft, sectorBytes]
  ring

end

/-- Settles O15: each request starts at its first position, whose cost in exchanges is R341's bound. -/
theorem everyRequestEnds : Obligations.EveryRequestEnds := by
  intro s unit V offset count hinv hV hi
  refine ⟨?_, fun hcls h1 hb => ?_⟩
  · have h := (Starts.init unit).endsWithin hinv hV (i := .init unit) (hostRequest_idle hV hi) rfl
    rwa [cost_rateSlow] at h
  · have h0 := Word.ne_zero_of_pos h1
    have hread := (Starts.read unit offset count hcls h0 hb).endsWithin hinv hV (i := .read unit offset count)
      ((exec_read_idle hV hi h0 hb).trans (if_neg hcls)) rfl
    have hwrite := (Starts.write unit offset count hcls h0 hb).endsWithin hinv hV (i := .write unit offset count)
      ((exec_write_idle hV hi h0 hb).trans (if_neg hcls)) rfl
    rw [cost_selRead] at hread
    rw [cost_selWrite] at hwrite
    exact ⟨hread, hwrite⟩

end Sys2Proof.Machine
end
